-- ==== Sys2Proof/Word.lean ====
section
/-! DEFINITION. The number types of rule R6 (00_scope.md): bytes and 16-bit fields. `Time`, stream
positions and byte counts are naturals with no upper bound and are written `Nat` (log 3, log 33). -/

namespace Sys2Proof

/-- `u8` (R6). -/
abbrev Byte := BitVec 8

/-- `u16` (R6). -/
abbrev U16 := BitVec 16

end Sys2Proof
end

