-- ==== Sys2Proof/Config.lean ====
section
/-! DEFINITION. The implementation parameters of rule R4 (00_scope.md). The source names them and gives no numbers, so they
are plain data that a machine carries (`State.cfg`): a statement about every state is a statement about every value of them. -/

namespace Sys2Proof

/-- `SHORTUP_SYMBOL` (R4, R114; log 24): the symbol that `Up/ShortUp` emits, one of two. -/
inductive ShortUpSymbol where
  | shortUp
  | shortTriggered
  deriving DecidableEq, Repr

/-- The parameters of R4. `MODE_CHANGE_PAGE` is no field: the source fixes it (`modeChangePage`). -/
structure Params where
  /-- `ROW_LENGTH`: bytes in the header block and in each function row. -/
  rowLength : Nat
  /-- `IMAGE_LENGTH`: bytes in each image block, liveness byte included. -/
  imageLength : Nat
  /-- `LONG_PRESS_THRESHOLD`. -/
  longPressThreshold : Nat
  /-- `MODE_PRESS_KEYS`. -/
  modePressKeys : BitVec 4
  /-- `MODE_NO_FUNCTION`. -/
  modeNoFunction : BitVec 4
  /-- `MODE_PRESS_SPECIAL_KEY`. -/
  modePressSpecialKey : BitVec 4
  /-- `MODE_SEND_TEXT`. -/
  modeSendText : BitVec 4
  /-- `MODE_SET_SETTING`. -/
  modeSetSetting : BitVec 4
  /-- `MODE_COMMUNICATE_TO_HOST`. -/
  modeCommunicateToHost : BitVec 4
  /-- `SHORTUP_SYMBOL`. -/
  shortUpSymbol : ShortUpSymbol
  /-- `MUX_ADDR_WIDTH`: bits of the multiplexer address. -/
  muxAddrWidth : Nat
  deriving DecidableEq, Repr

/-- `MODE_CHANGE_PAGE = 1`, fixed by the source (R4, R76). -/
def modeChangePage : BitVec 4 := 1

/-- `DATA_SIZE = ROW_LENGTH/2 - 1`: payload bytes of a slot (R4). -/
def Params.dataSize (p : Params) : Nat := p.rowLength / 2 - 1

/-- The seven assigned mode codes, in the order of R150's case list. -/
def Params.modeCodes (p : Params) : List (BitVec 4) :=
  [p.modePressKeys, modeChangePage, p.modePressSpecialKey, p.modeSendText, p.modeSetSetting, p.modeCommunicateToHost,
    p.modeNoFunction]

/-- The constraints of R4's last column that a machine's own parameters must meet (`bd_count <= 2^MUX_ADDR_WIDTH`
concerns the blob and is checked at boot). -/
def Params.valid (p : Params) : Bool :=
  p.rowLength % 2 == 0 && decide (8 ≤ p.rowLength) && decide (1 ≤ p.imageLength) && decide p.modeCodes.Nodup

/-- The parameters meet the constraints of R4. -/
abbrev Params.Valid (p : Params) : Prop := p.valid = true

/-- The values a machine has when nobody chose others: the default mode codes of R76 (log 2) and the example values of
95_test_vectors.md section 1 (log 1). No statement rests on them. -/
def Params.default : Params where
  rowLength := 16
  imageLength := 4
  longPressThreshold := 300
  modePressKeys := 0
  modeNoFunction := 2
  modePressSpecialKey := 3
  modeSendText := 4
  modeSetSetting := 5
  modeCommunicateToHost := 6
  shortUpSymbol := .shortUp
  muxAddrWidth := 16

end Sys2Proof
end

