-- ==== Sys2Proof/Syntax.lean ====
section
/-! DEFINITION. The operations of the block: one constructor of `Instr` for each row of spec/opcode_table.json, with the names of
the states, events, causes, formats and decoded functions they speak of. -/

namespace Sys2Proof

/-- The states of the Button Interaction State Machine (R11). -/
inductive FsmState where
  | start
  | down
  | downButWaiting
  | up
  deriving DecidableEq, Repr

/-- The output events (R85). -/
inductive Event where
  | idle
  | shortDown
  | shortUp
  | shortTriggered
  | longTriggered
  deriving DecidableEq, Repr

/-- The event named by `SHORTUP_SYMBOL` (R114). -/
def ShortUpSymbol.event : ShortUpSymbol → Event
  | .shortUp => .shortUp
  | .shortTriggered => .shortTriggered

/-- The causes of `raise Fatal(cause)` (R191). -/
inductive Cause where
  | formatError
  | truncated
  | streamRead
  | streamSeek
  deriving DecidableEq, Repr

/-- The two slots of a function row (R72). -/
inductive SlotName where
  | primary
  | secondary
  deriving DecidableEq, Repr

/-- `ButtonFunction`, the decoded meaning of a slot (R150). `noFunction` is the spec's `None`. -/
inductive ButtonFunction where
  | pressKeys (keys : List Byte) (goto : Option U16)
  | changePage (targetPage : U16)
  | pressSpecialKey
  | sendText
  | setSetting
  | communicateToHost
  | noFunction
  deriving DecidableEq, Repr

/-- The ten transitions of R84. -/
inductive Transition where
  | startIsUp
  | startIsDown
  | downHeldLong
  | downStillDown
  | downAnyUp
  | downButWaitingStillDown
  | downButWaitingReleased
  | upUpAfterLong
  | upShortHeld
  | upShortUp
  deriving DecidableEq, Repr

/-- The operations of the block, in the order of spec/opcode_table.json. -/
inductive Instr where
  -- the ten transitions, selected by the decider word (R84)
  | startIsUp
  | startIsDown
  | downHeldLong
  | downStillDown
  | downAnyUp
  | downButWaitingStillDown
  | downButWaitingReleased
  | upUpAfterLong
  | upShortHeld
  | upShortUp
  -- one slot: high nibble of the mode byte and the payload (R73, R75)
  | slotPressKeys (hi : BitVec 4) (payload : List Byte)
  | slotChangePage (hi : BitVec 4) (payload : List Byte)
  | slotNoFunction (hi : BitVec 4) (payload : List Byte)
  | slotPressSpecialKey (hi : BitVec 4) (payload : List Byte)
  | slotSendText (hi : BitVec 4) (payload : List Byte)
  | slotSetSetting (hi : BitVec 4) (payload : List Byte)
  | slotCommunicateToHost (hi : BitVec 4) (payload : List Byte)
  /-- An unassigned code `0ccc` (with the default codes: 7 alone; log 16). -/
  | slotUnknownLow (hi : BitVec 4) (c : BitVec 3) (payload : List Byte)
  /-- An unassigned code `1ccc` (with the default codes: 8 to 15; log 16). -/
  | slotUnknownHigh (hi : BitVec 4) (c : BitVec 3) (payload : List Byte)
  /-- `has_secondary_function` on a secondary mode byte, all 8 bits (R160; log 17). -/
  | hasSecondary (mode : Byte)
  -- one event handed to the Dispatcher (R85)
  | eventIdle
  | eventShortDown
  | eventShortUp
  | eventShortTriggered
  | eventLongTriggered
  -- one block of the binary configuration (R71, R72, R74)
  | header (bytes : List Byte)
  | row (bytes : List Byte)
  | image (bytes : List Byte)
  -- operations called by name
  | invoke
  | evaluate
  | opNew
  | loadPage (page : U16)
  | slotFunction (slot : SlotName) (button : U16)
  | isLive (button : U16)
  | changePage (page : U16)
  | redrawAll
  | raiseFatal (cause : Cause)
  | reset
  deriving DecidableEq, Repr

/-- The transition as an operation of the list. -/
def Transition.instr : Transition → Instr
  | .startIsUp => .startIsUp
  | .startIsDown => .startIsDown
  | .downHeldLong => .downHeldLong
  | .downStillDown => .downStillDown
  | .downAnyUp => .downAnyUp
  | .downButWaitingStillDown => .downButWaitingStillDown
  | .downButWaitingReleased => .downButWaitingReleased
  | .upUpAfterLong => .upUpAfterLong
  | .upShortHeld => .upShortHeld
  | .upShortUp => .upShortUp

/-- The event as an operation of the list. -/
def Event.instr : Event → Instr
  | .idle => .eventIdle
  | .shortDown => .eventShortDown
  | .shortUp => .eventShortUp
  | .shortTriggered => .eventShortTriggered
  | .longTriggered => .eventLongTriggered

/-- What a string of bits is read as: the "format" column of spec/opcode_table.json. The same bits mean different things in
different formats, so the unit that reads them knows the format (log 10). -/
inductive Format where
  | decider
  | slot
  | secondaryMode
  | event
  | header
  | row
  | image
  | call
  deriving DecidableEq, Repr

/-- The bytes of one operation, with the format they are read in. -/
structure OpWord where
  format : Format
  bytes : List Byte
  deriving DecidableEq, Repr

end Sys2Proof
end

