-- ==== Sys2Proof/WellFormed.lean ====
section
/-! DEFINITION. Which operations are well formed under given parameters: block and payload lengths (R71 to R74), and unassigned codes
that are indeed unassigned (R159). -/

namespace Sys2Proof

/-- The mode code of an unassigned-code slot: bit 3, then the three low bits. -/
def unknownCode (high : Bool) (c : BitVec 3) : BitVec 4 := BitVec.ofBool high ++ c

/-- The well-formed operations of a machine with parameters `p`. -/
def Instr.WellFormed (p : Params) : Instr → Bool
  | .startIsUp => true
  | .startIsDown => true
  | .downHeldLong => true
  | .downStillDown => true
  | .downAnyUp => true
  | .downButWaitingStillDown => true
  | .downButWaitingReleased => true
  | .upUpAfterLong => true
  | .upShortHeld => true
  | .upShortUp => true
  | .slotPressKeys _ payload => payload.length == p.dataSize
  | .slotChangePage _ payload => payload.length == p.dataSize
  | .slotNoFunction _ payload => payload.length == p.dataSize
  | .slotPressSpecialKey _ payload => payload.length == p.dataSize
  | .slotSendText _ payload => payload.length == p.dataSize
  | .slotSetSetting _ payload => payload.length == p.dataSize
  | .slotCommunicateToHost _ payload => payload.length == p.dataSize
  | .slotUnknownLow _ c payload => payload.length == p.dataSize && !p.modeCodes.contains (unknownCode false c)
  | .slotUnknownHigh _ c payload => payload.length == p.dataSize && !p.modeCodes.contains (unknownCode true c)
  | .hasSecondary _ => true
  | .eventIdle => true
  | .eventShortDown => true
  | .eventShortUp => true
  | .eventShortTriggered => true
  | .eventLongTriggered => true
  | .header bytes => bytes.length == p.rowLength
  | .row bytes => bytes.length == p.rowLength
  | .image bytes => bytes.length == p.imageLength
  | .invoke => true
  | .evaluate => true
  | .opNew => true
  | .loadPage _ => true
  | .slotFunction _ _ => true
  | .isLive _ => true
  | .changePage _ => true
  | .redrawAll => true
  | .raiseFatal _ => true
  | .reset => true

end Sys2Proof
end

