-- ==== Sys2Proof/Decode.lean ====
section
/-! DEFINITION. From bytes to an operation and back (30_encoding.md). Decoding is total on any bytes and refuses by name; the encoder,
after it, is written from the same tables. -/

namespace Sys2Proof

/-! ### Bit and byte helpers -/

/-- `le16(lo, hi) = lo + 256 * hi` (R5, R44). -/
def le16 (lo hi : Byte) : U16 := hi ++ lo

/-- The less significant byte of a u16. -/
def lowByte (v : U16) : Byte := v.extractLsb' 0 8

/-- The more significant byte of a u16. -/
def highByte (v : U16) : Byte := v.extractLsb' 8 8

/-- `code = mode_byte[3:0] = mode_byte mod 16` (R75). -/
def modeCode (mode : Byte) : BitVec 4 := mode.extractLsb' 0 4

/-- `mode_byte[7:4]`, ignored by the variant decode (R75). -/
def modeHigh (mode : Byte) : BitVec 4 := mode.extractLsb' 4 4

/-! ### The decider word -/

/-- The 2-bit state encoding (R82). -/
def FsmState.bits : FsmState → BitVec 2
  | .start => 0b00
  | .down => 0b01
  | .downButWaiting => 0b10
  | .up => 0b11

/-- The state that two bits stand for; all four patterns are used (R82). -/
def FsmState.ofBits (b : BitVec 2) : FsmState :=
  if b = 0b00 then .start else if b = 0b01 then .down else if b = 0b10 then .downButWaiting else .up

/-- The `match` column of R84. -/
def Transition.matchWord : Transition → BitVec 5
  | .startIsUp => 0x00
  | .startIsDown => 0x04
  | .downHeldLong => 0x09
  | .downStillDown => 0x0C
  | .downAnyUp => 0x08
  | .downButWaitingStillDown => 0x14
  | .downButWaitingReleased => 0x10
  | .upUpAfterLong => 0x1B
  | .upShortHeld => 0x1A
  | .upShortUp => 0x18

/-- The `mask` column of R84. -/
def Transition.maskWord : Transition → BitVec 5
  | .startIsUp => 0x1C
  | .startIsDown => 0x1C
  | .downHeldLong => 0x19
  | .downStillDown => 0x1D
  | .downAnyUp => 0x1D
  | .downButWaitingStillDown => 0x1C
  | .downButWaitingReleased => 0x1C
  | .upUpAfterLong => 0x1B
  | .upShortHeld => 0x1B
  | .upShortUp => 0x1A

/-- The ten transitions, in the order of R84's table. -/
def Transition.all : List Transition :=
  [.startIsUp, .startIsDown, .downHeldLong, .downStillDown, .downAnyUp, .downButWaitingStillDown, .downButWaitingReleased,
    .upUpAfterLong, .upShortHeld, .upShortUp]

/-- The transition a decider word `D = (s, p, h, l)` selects: the state's decider, with `long` tested before the pin in `Down`
(R83, R84, R104; log 23). Every one of the 32 words selects exactly one. -/
def decodeDecider (d : BitVec 5) : Transition :=
  let p := d.getLsbD 2
  let h := d.getLsbD 1
  let l := d.getLsbD 0
  match FsmState.ofBits (d.extractLsb' 3 2) with
  | .start => if p then .startIsDown else .startIsUp
  | .down => if l then .downHeldLong else if p then .downStillDown else .downAnyUp
  | .downButWaiting => if p then .downButWaitingStillDown else .downButWaitingReleased
  | .up => if h then (if l then .upUpAfterLong else .upShortHeld) else .upShortUp

/-! ### Decoding -/

/-- Why bytes are no operation. -/
inductive DecodeError where
  /-- The number of bytes is not the format's. -/
  | wrongLength
  /-- A decider word has five bits (R83); this one has a bit above them. -/
  | deciderTooWide
  /-- An event code is three bits (R85); this one has a bit above them. -/
  | eventTooWide
  /-- Event codes 101, 110 and 111 are never produced (R85). -/
  | eventReserved
  /-- No operation has this call number (log 10). -/
  | unknownCall
  /-- An operand byte of a call names nothing (log 10). -/
  | badOperand
  deriving DecidableEq, Repr

/-- A slot: the low nibble of the mode byte selects the variant (R76, R150). -/
def decodeSlot (p : Params) (mode : Byte) (payload : List Byte) : Instr :=
  let code := modeCode mode
  let hi := modeHigh mode
  if code = p.modePressKeys then .slotPressKeys hi payload
  else if code = modeChangePage then .slotChangePage hi payload
  else if code = p.modePressSpecialKey then .slotPressSpecialKey hi payload
  else if code = p.modeSendText then .slotSendText hi payload
  else if code = p.modeSetSetting then .slotSetSetting hi payload
  else if code = p.modeCommunicateToHost then .slotCommunicateToHost hi payload
  else if code = p.modeNoFunction then .slotNoFunction hi payload
  else if code.getLsbD 3 then .slotUnknownHigh hi (code.setWidth 3) payload
  else .slotUnknownLow hi (code.setWidth 3) payload

/-- An event code (R85). -/
def decodeEvent (b : Byte) : Except DecodeError Event :=
  if b = 0 then .ok .idle
  else if b = 1 then .ok .shortDown
  else if b = 2 then .ok .shortUp
  else if b = 3 then .ok .shortTriggered
  else if b = 4 then .ok .longTriggered
  else if b.toNat < 8 then .error .eventReserved
  else .error .eventTooWide

/-- The model's own numbers for the causes in a call (log 10). -/
def decodeCause (b : Byte) : Except DecodeError Cause :=
  if b = 0 then .ok .formatError
  else if b = 1 then .ok .truncated
  else if b = 2 then .ok .streamRead
  else if b = 3 then .ok .streamSeek
  else .error .badOperand

/-- The model's own numbers for the slots in a call (log 10). -/
def decodeSlotName (b : Byte) : Except DecodeError SlotName :=
  if b = 0 then .ok .primary else if b = 1 then .ok .secondary else .error .badOperand

/-- A call without operands. -/
def callAlone (i : Instr) : List Byte → Except DecodeError Instr
  | [] => .ok i
  | _ :: _ => .error .wrongLength

/-- A call with one u16 operand, little-endian (R44). -/
def callWithU16 (f : U16 → Instr) : List Byte → Except DecodeError Instr
  | [lo, hi] => .ok (f (le16 lo hi))
  | [] | [_] | _ :: _ :: _ :: _ => .error .wrongLength

/-- The call of `primary_function` or `secondary_function`: the slot, then the button. -/
def callSlotFunction : List Byte → Except DecodeError Instr
  | which :: operands => (decodeSlotName which).bind fun w => callWithU16 (.slotFunction w) operands
  | [] => .error .wrongLength

/-- The call of `raise Fatal`. -/
def callRaiseFatal : List Byte → Except DecodeError Instr
  | [c] => (decodeCause c).map .raiseFatal
  | [] | _ :: _ :: _ => .error .wrongLength

/-- A call by number: the ten operations to which the spec gives no encoding (log 10). -/
def decodeCall (number : Byte) (operands : List Byte) : Except DecodeError Instr :=
  if number = 0 then callAlone .invoke operands
  else if number = 1 then callAlone .evaluate operands
  else if number = 2 then callAlone .opNew operands
  else if number = 3 then callWithU16 .loadPage operands
  else if number = 4 then callSlotFunction operands
  else if number = 5 then callWithU16 .isLive operands
  else if number = 6 then callWithU16 .changePage operands
  else if number = 7 then callAlone .redrawAll operands
  else if number = 8 then callRaiseFatal operands
  else if number = 9 then callAlone .reset operands
  else .error .unknownCall

/-- The operation that the bytes of a word are, in the word's format. -/
def decode (p : Params) (w : OpWord) : Except DecodeError Instr :=
  match w.format, w.bytes with
  | .decider, [b] => if b.toNat < 32 then .ok (decodeDecider (b.setWidth 5)).instr else .error .deciderTooWide
  | .slot, mode :: payload => if payload.length = p.dataSize then .ok (decodeSlot p mode payload) else .error .wrongLength
  | .secondaryMode, [b] => .ok (.hasSecondary b)
  | .event, [b] => (decodeEvent b).map Event.instr
  | .header, bs => if bs.length = p.rowLength then .ok (.header bs) else .error .wrongLength
  | .row, bs => if bs.length = p.rowLength then .ok (.row bs) else .error .wrongLength
  | .image, bs => if bs.length = p.imageLength then .ok (.image bs) else .error .wrongLength
  | .call, number :: operands => decodeCall number operands
  | .decider, [] | .decider, _ :: _ :: _ => .error .wrongLength
  | .slot, [] => .error .wrongLength
  | .secondaryMode, [] | .secondaryMode, _ :: _ :: _ => .error .wrongLength
  | .event, [] | .event, _ :: _ :: _ => .error .wrongLength
  | .call, [] => .error .wrongLength

/-! ### The host's table words -/

/-- The bytes of a word whose bits count up from the first byte's bit 0. -/
def wordBytes (n w : Nat) : List Byte := (List.range n).map fun i => BitVec.ofNat 8 (w >>> (8 * i))

/-- A bare word of the opcode table, given a format (log 11). Words of at most 3 bits are event codes and words of at most 5 bits
decider words. The table pads both to a byte, which the bits alone cannot tell from a mode byte: of the 8-bit words,
the ten `match` words of R84 are read as decider words and every other one as the mode byte of a slot. -/
def tableWord (nbits w : Nat) : OpWord :=
  let b : Byte := BitVec.ofNat 8 w
  if nbits ≤ 3 then ⟨.event, [b]⟩
  else if nbits ≤ 5 ∨ (nbits ≤ 8 ∧ Transition.all.any fun t => t.matchWord.setWidth 8 == b) then ⟨.decider, [b]⟩
  else ⟨.slot, wordBytes (Params.default.dataSize + 1) w⟩

/-- The operation this decoder reads from a bare word of the opcode table, under the default parameters. -/
def decodeTableWord (nbits w : Nat) : Option Instr :=
  match decode Params.default (tableWord nbits w) with
  | .ok i => some i
  | .error _ => none

/-! ### Encoding -/

/-- A mode byte from its nibbles (R75). -/
def modeByte (hi code : BitVec 4) : Byte := hi ++ code

/-- The event codes (R85). -/
def Event.code : Event → Byte
  | .idle => 0
  | .shortDown => 1
  | .shortUp => 2
  | .shortTriggered => 3
  | .longTriggered => 4

/-- The model's own cause numbers (log 10). -/
def Cause.number : Cause → Byte
  | .formatError => 0
  | .truncated => 1
  | .streamRead => 2
  | .streamSeek => 3

/-- The model's own slot numbers (log 10). -/
def SlotName.number : SlotName → Byte
  | .primary => 0
  | .secondary => 1

/-- The word of a transition: its `match` word, don't-care bits zero (R84). -/
def Transition.word (t : Transition) : OpWord := ⟨.decider, [t.matchWord.setWidth 8]⟩

/-- A slot with the given mode code (R73, R75). -/
def slotWord (hi code : BitVec 4) (payload : List Byte) : OpWord := ⟨.slot, modeByte hi code :: payload⟩

/-- The word of an event (R85). -/
def Event.word (e : Event) : OpWord := ⟨.event, [e.code]⟩

/-- The words of an operation. -/
def encode (p : Params) : Instr → OpWord
  | .startIsUp => Transition.startIsUp.word
  | .startIsDown => Transition.startIsDown.word
  | .downHeldLong => Transition.downHeldLong.word
  | .downStillDown => Transition.downStillDown.word
  | .downAnyUp => Transition.downAnyUp.word
  | .downButWaitingStillDown => Transition.downButWaitingStillDown.word
  | .downButWaitingReleased => Transition.downButWaitingReleased.word
  | .upUpAfterLong => Transition.upUpAfterLong.word
  | .upShortHeld => Transition.upShortHeld.word
  | .upShortUp => Transition.upShortUp.word
  | .slotPressKeys hi payload => slotWord hi p.modePressKeys payload
  | .slotChangePage hi payload => slotWord hi modeChangePage payload
  | .slotNoFunction hi payload => slotWord hi p.modeNoFunction payload
  | .slotPressSpecialKey hi payload => slotWord hi p.modePressSpecialKey payload
  | .slotSendText hi payload => slotWord hi p.modeSendText payload
  | .slotSetSetting hi payload => slotWord hi p.modeSetSetting payload
  | .slotCommunicateToHost hi payload => slotWord hi p.modeCommunicateToHost payload
  | .slotUnknownLow hi c payload => slotWord hi (unknownCode false c) payload
  | .slotUnknownHigh hi c payload => slotWord hi (unknownCode true c) payload
  | .hasSecondary mode => ⟨.secondaryMode, [mode]⟩
  | .eventIdle => Event.idle.word
  | .eventShortDown => Event.shortDown.word
  | .eventShortUp => Event.shortUp.word
  | .eventShortTriggered => Event.shortTriggered.word
  | .eventLongTriggered => Event.longTriggered.word
  | .header bytes => ⟨.header, bytes⟩
  | .row bytes => ⟨.row, bytes⟩
  | .image bytes => ⟨.image, bytes⟩
  | .invoke => ⟨.call, [0]⟩
  | .evaluate => ⟨.call, [1]⟩
  | .opNew => ⟨.call, [2]⟩
  | .loadPage page => ⟨.call, [3, lowByte page, highByte page]⟩
  | .slotFunction slot button => ⟨.call, [4, slot.number, lowByte button, highByte button]⟩
  | .isLive button => ⟨.call, [5, lowByte button, highByte button]⟩
  | .changePage page => ⟨.call, [6, lowByte page, highByte page]⟩
  | .redrawAll => ⟨.call, [7]⟩
  | .raiseFatal cause => ⟨.call, [8, cause.number]⟩
  | .reset => ⟨.call, [9]⟩

end Sys2Proof
end

