-- ==== Sys2Proof/Machine/State.lean ====
section
/-! DEFINITION. The machine's state as plain data: every register of rule R10 (10_state.md) under its own unit, the configuration
stream (R40), the parameters, and the environment's answers that are still to come. -/

namespace Sys2Proof.Machine

/-- Memory: the listed bytes of the configuration stream. Canonical form: `Mem.wf`. -/
abbrev Mem := List Host.Cell

/-- What an unlisted address reads as (log 6). -/
def Mem.unlisted : Byte := 0

/-- The canonical form: addresses strictly rising, no entry equal to what an unlisted address reads as. -/
abbrev Mem.wf (m : Mem) : Prop := m.Pairwise (fun a b => a.1 < b.1) ∧ ∀ c ∈ m, c.2 ≠ Mem.unlisted

/-- The result of `pin.is_low()` (R102, R208): `Ok(true)`, `Ok(false)`, `Err(Fault)`. -/
inductive Pin where
  | low
  | high
  | fault
  deriving DecidableEq, Repr

/-- What a `stream.read` gave (R42; log 36). -/
inductive ReadResult where
  | ok
  | short (bytesRead : Nat)
  | error
  deriving DecidableEq, Repr

/-- The trace records of R29. -/
inductive TraceRecord where
  | emit (event : Event)
  | setAddress (address : Nat)
  | draw (frame : List Byte) (ok : Bool)
  | seek (position : Nat) (ok : Bool)
  | read (length : Nat) (result : ReadResult)
  | pinRead (result : Pin)
  deriving DecidableEq, Repr

/-- `fsm.*` (R11 to R14; log 39). -/
structure Fsm where
  state : FsmState
  busy : Bool
  pressTs : Option Nat
  hasSec : Bool
  deriving DecidableEq, Repr

/-- `hdr.*` (R17 to R21). -/
structure Hdr where
  width : Byte
  height : Byte
  offset : U16
  bdCount : Nat
  pageCount : U16
  deriving DecidableEq, Repr

/-- `page.*` (R22 to R24): raw rows and raw image blocks by button address. -/
structure Page where
  rows : List (List Byte)
  imgs : List (List Byte)
  index : Nat
  deriving DecidableEq, Repr

/-- `disp.*` (R25). -/
structure Disp where
  cursor : Nat
  deriving DecidableEq, Repr

/-- `sys.phase` (R26). -/
inductive Phase where
  | uninit
  | ready
  | fatal
  deriving DecidableEq, Repr

/-- `sys.*` (R26). -/
structure Sys where
  phase : Phase
  cause : Option Cause
  deriving DecidableEq, Repr

/-- The byte stream: its content (R31 `blob`, `blob_len`) and `stream.pos` (R27). -/
structure Stream where
  blob : Mem
  len : Nat
  pos : Nat
  deriving DecidableEq, Repr

/-- `mux.*` (R28). -/
structure Mux where
  addr : Nat
  deriving DecidableEq, Repr

/-- A collaborator's answers to the calls still to come: first those of `queue`, then `rest` for ever (R31; log 4). -/
structure Answers (α : Type) where
  queue : List α
  rest : α
  deriving DecidableEq, Repr

/-- The time base's readings still to come: first those of `queue`, then each `tick` later than the one before (R31, R204; log 4). -/
structure Clock where
  queue : List Nat
  tick : Nat
  deriving DecidableEq, Repr

/-- The environment (R31): answers to come, and the sample of the current evaluation (log 13). -/
structure Env where
  pins : Answers Pin
  clock : Clock
  stream : Answers Bool
  draws : Answers Bool
  now : Nat
  pin : Pin
  deriving DecidableEq, Repr

/-- What is left of an action that stopped at a `display.draw` without success (R179; log 9). -/
inductive Task where
  /-- `emit e` (R115). -/
  | emit (event : Event)
  /-- Submit the frame of button `address` again, then redraw the buttons after it (R178, R179). -/
  | retry (address : Nat)
  /-- The end of an `Up` transition: clear the timestamp, terminal (R112 to R114). -/
  | finish
  deriving DecidableEq, Repr

/-- The value an operation of the decoder returns to its caller (log 12). -/
inductive Returned where
  | function (f : ButtonFunction)
  | functions (primary secondary : ButtonFunction)
  | flag (b : Bool)
  | image (live : Bool) (frame : List Byte)
  deriving DecidableEq, Repr

/-- The state of the block and of what it is connected to. -/
structure State where
  fsm : Fsm
  hdr : Hdr
  page : Page
  disp : Disp
  sys : Sys
  stream : Stream
  mux : Mux
  trace : List TraceRecord
  cfg : Params
  env : Env
  calls : List OpWord
  work : List Task
  ret : Option Returned
  deriving DecidableEq, Repr

/-- The machine stops. -/
inductive Fault where
  /-- `sys.phase = Fatal` has no step of any kind (R195, R199). Raised by `step` and by every operation but `raiseFatal` and
  `reset`, in that phase. Safe: the hardware does nothing more either. -/
  | fatal (cause : Option Cause)
  deriving DecidableEq, Repr

/-- The model gives the request no meaning. -/
inductive Refusal where
  /-- An operation that has no meaning yet. Raised by `exec` only. Safe. -/
  | notModelled (mnemonic : String)
  /-- Parameters that break a constraint of R4 (R202, U21). Raised by every operation that depends on them. Safe. -/
  | badParameters
  /-- An operation that needs `sys.phase = Ready`, before boot (R202, U3). Safe. -/
  | notReady
  /-- `new` or a header decode after boot (R202, U4). Safe. -/
  | alreadyBooted
  /-- `new` with `stream.pos != 0` (R202, U4). Safe. -/
  | streamNotAtStart
  /-- A page load before a valid header is decoded (guard of R136; log 34). Safe. -/
  | headerNotDecoded
  /-- A header with more buttons than the multiplexer can address (R202, U19). Raised by `new`. Safe. -/
  | tooManyButtons
  /-- `invoke` while an invocation is in progress (R202, U3). Safe. -/
  | busy
  /-- An evaluation with no invocation in progress (guard of R101). Safe. -/
  | notBusy
  /-- A request while an earlier call is still waiting for the display (R53, R179; log 9). Safe. -/
  | callInProgress
  /-- `elapsed` with `fsm.press_ts = None` (R103, R202, U1). Safe. -/
  | noTimestamp
  /-- A time earlier than an earlier one (R103, R202, U2). Safe. -/
  | timeWentBack
  /-- A transition whose cube does not match the decider word (R84; log 37). Safe. -/
  | notSelected
  /-- A button index not below `hdr.bd_count` (R141, R202, U20), or a record that is not of the parameters' length. Safe. -/
  | buttonIndex
  /-- `Idle` with `hdr.bd_count = 0`, which no decoded header has (R132, R171). Safe. -/
  | noButtons
  /-- An operation that is not well formed under the machine's parameters. Safe. -/
  | illFormed
  /-- Bytes that are no operation in their format. Raised by `step`. Safe. -/
  | undecodable (error : DecodeError)
  deriving DecidableEq, Repr

/-- The registers right after reset (R33, R220). Values the spec calls unspecified: log 5. The model's own fields: log 1, log 4, log 6. -/
def State.reset : State where
  fsm := { state := .start, busy := false, pressTs := none, hasSec := false }
  hdr := { width := 0, height := 0, offset := 0, bdCount := 0, pageCount := 0 }
  page := { rows := [], imgs := [], index := 0 }
  disp := { cursor := 0 }
  sys := { phase := .uninit, cause := none }
  stream := { blob := [], len := 0, pos := 0 }
  mux := { addr := 0 }
  trace := []
  cfg := Params.default
  env :=
    { pins := { queue := [], rest := .high }, clock := { queue := [], tick := 0 }, stream := { queue := [], rest := true },
      draws := { queue := [], rest := true }, now := 0, pin := .high }
  calls := []
  work := []
  ret := none

end Sys2Proof.Machine
end

