-- ==== Sys2Proof/Machine/Operands.lean ====
section
/-! DEFINITION. Operand forms: the fields of a header, row, slot and image block (30_encoding.md, 42_record_decoder.md), all pure functions
of bytes, and the accessors of the page buffer (R141). -/

namespace Sys2Proof.Machine

/-! ### Memory -/

/-- One byte of memory. -/
def Mem.get : Mem → Nat → Byte
  | [], _ => Mem.unlisted
  | (b, v) :: m, a => if b = a then v else Mem.get m a

/-- `m` with the byte at `a` set to `v`, in canonical form. No operation of the block writes the stream (R48): this places a blob. -/
def Mem.set : Mem → Nat → Byte → Mem
  | [], a, v => if v = Mem.unlisted then [] else [(a, v)]
  | (b, w) :: m, a, v =>
    if a < b then (if v = Mem.unlisted then (b, w) :: m else (a, v) :: (b, w) :: m)
    else if a = b then (if v = Mem.unlisted then m else (a, v) :: m)
    else (b, w) :: Mem.set m a v

/-- The `n` bytes `blob[a .. a+n]`. -/
def Mem.bytes (m : Mem) (a n : Nat) : List Byte := (List.range n).map fun i => m.get (a + i)

/-- The memory that holds `bytes` from address `a` on and nothing else. -/
def Mem.ofBytes : Nat → List Byte → Mem
  | _, [] => []
  | a, v :: bytes => if v = Mem.unlisted then Mem.ofBytes (a + 1) bytes else (a, v) :: Mem.ofBytes (a + 1) bytes

/-! ### Header (R131, R133) -/

/-- `hb[0]` (R131). -/
def headerWidth (hb : List Byte) : Byte := hb.getD 0 0

/-- `hb[1]` (R131). -/
def headerHeight (hb : List Byte) : Byte := hb.getD 1 0

/-- `le16(hb[2], hb[3])` (R131). -/
def headerOffset (hb : List Byte) : U16 := le16 (hb.getD 2 0) (hb.getD 3 0)

/-- `width * height`, exact (R133, decision D18; log 20). -/
def bdCountOf (width height : Byte) : Nat := width.toNat * height.toNat

/-- `offset / bd_count`, floor division (R133, decision D19; log 21). -/
def pageCountOf (offset : U16) (bdCount : Nat) : U16 := BitVec.ofNat 16 (offset.toNat / bdCount)

/-- `data_offset(page)` (R134). -/
def dataOffset (p : Params) (h : Hdr) (page : Nat) : Nat := p.rowLength * h.bdCount * page + p.rowLength

/-- `images_offset(page)` (R135). -/
def imagesOffset (p : Params) (h : Hdr) (page : Nat) : Nat := h.offset.toNat * p.rowLength + p.imageLength * h.bdCount * page

/-! ### Slots (R72, R73, R150) -/

/-- The `DS + 1` bytes of a row's slot (R72, R150). -/
def slotBytes (p : Params) (slot : SlotName) (row : List Byte) : List Byte :=
  match slot with
  | .primary => row.take (p.dataSize + 1)
  | .secondary => row.drop (p.dataSize + 1)

/-- The key list: the payload bytes before the first zero, or all of them (R152, decisions D24 and D25; log 28). -/
def keysOf (payload : List Byte) : List Byte := payload.takeWhile (· ≠ 0)

/-- `g = le16(payload[DS-3], payload[DS-2])` (R77, R152). -/
def gotoField (payload : List Byte) : U16 :=
  le16 (payload.getD (payload.length - 3) 0) (payload.getD (payload.length - 2) 0)

/-- 0 is "none", `g` is page `g - 1` (R77, R152). -/
def gotoOf (g : U16) : Option U16 := if g = 0 then none else some (g - 1)

/-- `target_page` (R78, R153). -/
def targetPage (payload : List Byte) : U16 := le16 (payload.getD 0 0) (payload.getD 1 0)

/-- R152. -/
def pressKeysOf (payload : List Byte) : ButtonFunction := .pressKeys (keysOf payload) (gotoOf (gotoField payload))

/-- R153. -/
def changePageOf (payload : List Byte) : ButtonFunction := .changePage (targetPage payload)

/-- `decode_slot` (R150). The empty list is no slot; a slot has `DS + 1 >= 4` bytes. -/
def functionOfSlot (p : Params) : List Byte → ButtonFunction
  | [] => .noFunction
  | mode :: payload =>
    let code := modeCode mode
    if code = p.modePressKeys then pressKeysOf payload
    else if code = modeChangePage then changePageOf payload
    else if code = p.modePressSpecialKey then .pressSpecialKey
    else if code = p.modeSendText then .sendText
    else if code = p.modeSetSetting then .setSetting
    else if code = p.modeCommunicateToHost then .communicateToHost
    else .noFunction

/-- `primary_function(row)` and `secondary_function(row)` (R150). -/
def functionOfRow (p : Params) (slot : SlotName) (row : List Byte) : ButtonFunction := functionOfSlot p (slotBytes p slot row)

/-- The secondary slot's mode byte, `row[DS+1]` (R72, R160). -/
def secondaryMode (p : Params) (row : List Byte) : Byte := row.getD (p.dataSize + 1) 0

/-! ### Images (R74, R161) -/

/-- `image_buffer(img)`: the block without its liveness byte (R161). -/
def imageBuffer (img : List Byte) : List Byte := img.drop 1

/-! ### The page buffer (R141) -/

/-- `page.row[i]`, for `i < bd_count` and a record of `ROW_LENGTH` bytes. -/
def State.row? (s : State) (i : Nat) : Option (List Byte) :=
  match s.page.rows[i]? with
  | some r => if i < s.hdr.bdCount ∧ r.length = s.cfg.rowLength then some r else none
  | none => none

/-- `page.img[i]`, for `i < bd_count` and a record of `IMAGE_LENGTH` bytes. -/
def State.img? (s : State) (i : Nat) : Option (List Byte) :=
  match s.page.imgs[i]? with
  | some b => if i < s.hdr.bdCount ∧ b.length = s.cfg.imageLength then some b else none
  | none => none

end Sys2Proof.Machine
end

