-- ==== Sys2Proof/Machine/Flags.lean ====
section
/-! DEFINITION. The single-bit values of rule R30 (10_state.md) that are computed and not stored, and the decider word they enter
(30_encoding.md R83, 40_fsm.md R103). -/

namespace Sys2Proof.Machine

/-- `is_live(img)`: byte 0 equals 1 (R162; log 29). -/
def isLiveImage (img : List Byte) : Bool := img.getD 0 0 == 1

/-- `has_secondary_function` on the secondary mode byte: all 8 bits against `MODE_NO_FUNCTION` (R160). -/
def hasSecondaryOf (p : Params) (mode : Byte) : Bool := mode != p.modeNoFunction.setWidth 8

/-- `has_secondary_function(row)` (R160). -/
def hasSecondaryFunction (p : Params) (row : List Byte) : Bool := hasSecondaryOf p (secondaryMode p row)

/-- `over(now)`: `elapsed > LONG_PRESS_THRESHOLD`, strict, with `fsm.press_ts = Some ts` (R103). -/
def State.over (s : State) (ts : Nat) : Bool := s.env.now - ts > s.cfg.longPressThreshold

/-- `long(now)` (R103). Without a timestamp, which only a state that does not consult it has, the bit is 0 (R83 "Don't-care"). -/
def State.long (s : State) : Bool :=
  match s.fsm.pressTs with
  | some ts => s.fsm.hasSec && s.over ts
  | none => false

/-- The decider bit `p`: the sample is `Low`; `High` and `Fault` give 0 (R83, R102). State `Up` takes no sample, and its bit is 0. -/
def State.pressed (s : State) : Bool :=
  match s.fsm.state with
  | .up => false
  | .start => s.env.pin == .low
  | .down => s.env.pin == .low
  | .downButWaiting => s.env.pin == .low

/-- The decider word `D = (s[1:0], p, h, l)` of the current sample (R83). -/
def State.deciderWord (s : State) : BitVec 5 :=
  s.fsm.state.bits ++ BitVec.ofBool s.pressed ++ BitVec.ofBool s.fsm.hasSec ++ BitVec.ofBool s.long

/-- Why `elapsed` has no value where the state's decider asks for it (R103, U1, U2). Without a secondary function `long` is 0 whatever
the time is, so nothing asks. -/
def State.elapsedStop (s : State) : Option Refusal :=
  let ask : Option Refusal :=
    match s.fsm.pressTs with
    | none => some .noTimestamp
    | some ts => if ts ≤ s.env.now then none else some .timeWentBack
  match s.fsm.state with
  | .start => none
  | .down => if s.fsm.hasSec then ask else none
  | .downButWaiting => none
  | .up => if s.fsm.hasSec then ask else none

end Sys2Proof.Machine
end

