-- ==== Sys2Proof/Machine/Ops.lean ====
section
/-! DEFINITION. The named operations that the meanings share: the trace, the collaborators' calls (20_memory.md R41 to R43, 60_exceptions.md R205 to
R208), entering the fatal state (R195) and leaving it by reset (R220), the page load (R136), the redraw (R178), the events' actions
(43_dispatcher.md), and the guards. -/

namespace Sys2Proof.Machine

/-! ### Outcomes of the block's own statements -/

/-- An operation that returns a value or raises `Fatal`. -/
inductive Res (α : Type) where
  | ok (value : α) (s : State)
  | fatal (s : State)

/-- How an action ends: it completed, it raised `Fatal`, it stopped at a draw without success with `rest` still to do, or
the model refuses it. -/
inductive Flow where
  | done (s : State)
  | fatal (s : State)
  | blocked (s : State) (rest : List Task)
  | refused (r : Refusal)

abbrev Result := Host.Outcome State Fault Refusal

/-- An action's end as the outcome of a step. Raising `Fatal` gives a next state (R195; log 7). -/
def Flow.toResult : Flow → Result
  | .done s => .next s
  | .fatal s => .next s
  | .blocked s rest => .next { s with work := rest }
  | .refused r => .refused r

/-! ### Trace, multiplexer, fatal state, reset -/

/-- Append one record to the ghost trace (R29). -/
def State.record (s : State) (r : TraceRecord) : State := { s with trace := s.trace ++ [r] }

/-- `mux.set_address(a)` (R207). -/
def State.setAddress (s : State) (a : Nat) : State := { s.record (.setAddress a) with mux := { addr := a } }

/-- `raise Fatal(cause)` (R195): the first cause stays, and what the operation in progress still had to do is abandoned. -/
def State.raiseFatal (s : State) (c : Cause) : State :=
  { s with sys := { phase := .fatal, cause := if s.sys.phase = .fatal then s.sys.cause else some c }, work := [] }

/-- Reset (R220): every register at its reset value. The parameters, the blob, the environment and the requests still waiting are
not registers and stay (log 32). -/
def State.resetBlock (s : State) : State :=
  { State.reset with
    cfg := s.cfg
    stream := { blob := s.stream.blob, len := s.stream.len, pos := State.reset.stream.pos }
    env := s.env
    calls := s.calls }

/-! ### Answers of the environment -/

/-- The next answer and the answers after it. -/
def Answers.take {α : Type} (a : Answers α) : α × Answers α :=
  match a.queue with
  | [] => (a.rest, a)
  | x :: q => (x, { a with queue := q })

/-- The next reading of the time base after `now`, and the readings after it. -/
def Clock.take (c : Clock) (now : Nat) : Nat × Clock :=
  match c.queue with
  | [] => (now + c.tick, c)
  | t :: q => (t, { c with queue := q })

/-! ### The byte stream -/

/-- `stream.seek_from_start(p)` (R41). -/
def streamSeek (p : Nat) (s : State) : Res Unit :=
  let (ok, rest) := s.env.stream.take
  let s := { s with env := { s.env with stream := rest } }
  if ok then .ok () { s.record (.seek p true) with stream := { s.stream with pos := p } }
  else .fatal ((s.record (.seek p false)).raiseFatal .streamSeek)

/-- Bytes between the position and the end of the blob (R42). -/
def Stream.avail (st : Stream) : Nat := if st.pos ≤ st.len then st.len - st.pos else 0

/-- `stream.read(n)` (R42). A call that fails at the device returns no bytes, so its failure comes before a short read (log 15). -/
def streamRead (n : Nat) (s : State) : Res (List Byte) :=
  let (ok, rest) := s.env.stream.take
  let s := { s with env := { s.env with stream := rest } }
  if ok then
    if n ≤ s.stream.avail then
      .ok (s.stream.blob.bytes s.stream.pos n)
        { s.record (.read n .ok) with stream := { s.stream with pos := s.stream.pos + n } }
    else .fatal ((s.record (.read n (.short s.stream.avail))).raiseFatal .truncated)
  else .fatal ((s.record (.read n .error)).raiseFatal .streamRead)

/-- `count` consecutive reads of `n` bytes (R43, R136). -/
def readBlocks (n : Nat) : Nat → State → Res (List (List Byte))
  | 0, s => .ok [] s
  | count + 1, s =>
    match streamRead n s with
    | .fatal s => .fatal s
    | .ok b s =>
      match readBlocks n count s with
      | .fatal s => .fatal s
      | .ok bs s => .ok (b :: bs) s

/-- A seek and `count` reads of `n` bytes. -/
def readRegion (position n count : Nat) (s : State) : Res (List (List Byte)) :=
  match streamSeek position s with
  | .fatal s => .fatal s
  | .ok _ s => readBlocks n count s

/-- `load_page(k)` (R136): both passes read into a staging copy, and the page is replaced only after the last read (R137). -/
def loadPage (k : Nat) (s : State) : Res Unit :=
  match readRegion (dataOffset s.cfg s.hdr k) s.cfg.rowLength s.hdr.bdCount s with
  | .fatal s => .fatal s
  | .ok rows s =>
    match readRegion (imagesOffset s.cfg s.hdr k) s.cfg.imageLength s.hdr.bdCount s with
    | .fatal s => .fatal s
    | .ok imgs s => .ok () { s with page := { rows := rows, imgs := imgs, index := k } }

/-- `decode_header(hb)` (R131, R132, R133). The three fields are written before the validity check, the two derived
registers after it (log 18). -/
def decodeHeader (hb : List Byte) (s : State) : Res Unit :=
  let s := { s with hdr := { s.hdr with width := headerWidth hb, height := headerHeight hb, offset := headerOffset hb } }
  let n := bdCountOf s.hdr.width s.hdr.height
  if n = 0 then .fatal (s.raiseFatal .formatError)
  else if s.hdr.offset.toNat < 1 + n then .fatal (s.raiseFatal .formatError)
  else .ok () { s with hdr := { s.hdr with bdCount := n, pageCount := pageCountOf s.hdr.offset n } }

/-! ### The display -/

/-- Take one answer of `display.draw(frame)` off the environment and record it (R206). -/
def State.drawOnce (s : State) (frame : List Byte) (ok : Bool) (queue : List Bool) : State :=
  { s.record (.draw frame ok) with env := { s.env with draws := { s.env.draws with queue := queue } } }

/-- `repeat r <- display.draw(frame) until r = Ok` (R178, R179), over the queued answers. Where the queue is used up and the
lasting answer is `Err`, one more attempt fails and the answer is `false`: the block is still in the loop (log 9). -/
def drawQueued (frame : List Byte) : List Bool → State → Bool × State
  | [], s => (s.env.draws.rest, s.drawOnce frame s.env.draws.rest [])
  | true :: q, s => (true, s.drawOnce frame true q)
  | false :: q, s => drawQueued frame q (s.drawOnce frame false q)

/-- The draw of one frame, with its retries. -/
def drawUntilOk (frame : List Byte) (s : State) : Bool × State := drawQueued frame s.env.draws.queue s

/-- The redraw of the listed buttons, in order (R178). -/
def redrawList : List Nat → State → Flow
  | [], s => .done s
  | a :: as, s =>
    match s.img? a with
    | none => .refused .buttonIndex
    | some img =>
      match drawUntilOk (imageBuffer img) (s.setAddress a) with
      | (true, s) => redrawList as s
      | (false, s) => .blocked s [.retry a]

/-- `redraw_all()` (R178). -/
def redrawAll (s : State) : Flow := redrawList (List.range s.hdr.bdCount) s

/-- The draw of button `a` once more, without setting the address again (R179; log 30), then the buttons after it. -/
def retryDraw (a : Nat) (s : State) : Flow :=
  match s.img? a with
  | none => .refused .buttonIndex
  | some img =>
    match drawUntilOk (imageBuffer img) s with
    | (true, s) => redrawList (List.range' (a + 1) (s.hdr.bdCount - (a + 1))) s
    | (false, s) => .blocked s [.retry a]

/-- `change_page(t)` (R177). -/
def changePage (t : Nat) (s : State) : Flow :=
  match loadPage t s with
  | .fatal s => .fatal s
  | .ok _ s => redrawAll s

/-! ### The events' actions -/

/-- What the Dispatcher does for a decoded function (R172, R176): only `ChangePage` has a page-level effect. -/
def actOn (f : ButtonFunction) (s : State) : Flow :=
  match f with
  | .changePage t => changePage t.toNat s
  | .pressKeys _ _ => .done s
  | .pressSpecialKey => .done s
  | .sendText => .done s
  | .setSetting => .done s
  | .communicateToHost => .done s
  | .noFunction => .done s

/-- Decode a slot of the button under the cursor, on the page current now (R170, R181), and act on it. -/
def actOnSlot (slot : SlotName) (s : State) : Flow :=
  match s.row? s.disp.cursor with
  | none => .refused .buttonIndex
  | some row => actOn (functionOfRow s.cfg slot row) s

/-- The cursor's advance, and the request for the address advanced to (R171; log 26). -/
def idleAction (s : State) : Flow :=
  if s.hdr.bdCount = 0 then .refused .noButtons
  else
    let c := (s.disp.cursor + 1) % s.hdr.bdCount
    .done ({ s with disp := { cursor := c } }.setAddress c)

/-- The Dispatcher's action for an event (R171 to R175). -/
def dispatch (e : Event) (s : State) : Flow :=
  match e with
  | .idle => idleAction s
  | .shortDown => actOnSlot .primary s
  | .shortUp => actOnSlot .primary s
  | .shortTriggered => actOnSlot .primary s
  | .longTriggered => actOnSlot .secondary s

/-- `emit e` (R115): the record, then the action to its end (log 35, log 39). -/
def emit (e : Event) (s : State) : Flow := dispatch e (s.record (.emit e))

/-- The end of an `Up` transition: the timestamp cleared, terminal stored as `Start` and not busy (R112 to R114, R11). -/
def State.finish (s : State) : State := { s with fsm := { s.fsm with pressTs := none, state := .start, busy := false } }

/-- One task. -/
def runTask (t : Task) (s : State) : Flow :=
  match t with
  | .emit e => emit e s
  | .retry a => retryDraw a s
  | .finish => .done s.finish

/-- Tasks in order. A `Fatal` abandons the rest (R195); a draw without success keeps it for later steps (R179). -/
def runTasks : List Task → State → Flow
  | [], s => .done s
  | t :: ts, s =>
    match runTask t s with
    | .done s => runTasks ts s
    | .fatal s => .fatal s
    | .blocked s rest => .blocked s (rest ++ ts)
    | .refused r => .refused r

/-! ### Guards -/

/-- In the fatal state nothing runs (R195); elsewhere `k` does, if the parameters meet R4. -/
def State.whenAlive (s : State) (k : Result) : Result :=
  if s.sys.phase = .fatal then .fault (.fatal s.sys.cause)
  else if s.cfg.Valid then k
  else .refused .badParameters

/-- The guard `sys.phase = Ready` (R100), with no earlier call still in progress (R53). -/
def State.whenReady (s : State) (k : Result) : Result :=
  s.whenAlive (
    if s.sys.phase ≠ .ready then .refused .notReady
    else if s.work ≠ [] then .refused .callInProgress
    else k)

/-- The guard of a transition: an invocation is in progress and the decider word selects this transition (R84, R101). -/
def State.whenSelected (s : State) (t : Transition) (k : Result) : Result :=
  s.whenReady (
    if s.fsm.busy = false then .refused .notBusy
    else
      match s.elapsedStop with
      | some r => .refused r
      | none => if decodeDecider s.deciderWord = t then k else .refused .notSelected)

/-- A pure operation of the decoder (R163): it changes nothing but the returned value. -/
def State.returning (s : State) (i : Instr) (v : Returned) : Result :=
  s.whenAlive (if i.WellFormed s.cfg then .next { s with ret := some v } else .refused .illFormed)

end Sys2Proof.Machine
end

