-- ==== Sys2Proof/Machine/ConfigStore.lean ====
section
/-! DEFINITION. The Config Store (41_config_store.md): boot, the header block, and the page load. -/

namespace Sys2Proof.Machine

/-- An operation of the Config Store as the outcome of a step: a value or a `Fatal` both give a next state (R195; log 7). -/
def Res.toResult {α : Type} : Res α → Result
  | .ok _ s => .next s
  | .fatal s => .next s

/-- A header block (R131, R132, R133). The header is decoded once, at boot (R130), so after boot there is no such step. -/
def execHeader (bytes : List Byte) (s : State) : Result :=
  s.whenAlive (
    if s.sys.phase = .ready then .refused .alreadyBooted
    else if (Instr.header bytes).WellFormed s.cfg then (decodeHeader bytes s).toResult
    else .refused .illFormed)

/-- `load_page(k)` (R136). The guard "header decoded" is `hdr.bd_count > 0` (log 34). -/
def execLoadPage (page : U16) (s : State) : Result :=
  s.whenAlive (
    if s.work ≠ [] then .refused .callInProgress
    else if s.hdr.bdCount = 0 then .refused .headerNotDecoded
    else (loadPage page.toNat s).toResult)

/-- `sys.phase <- Ready`, the end of boot (R130). -/
def State.setReady (s : State) : State := { s with sys := { s.sys with phase := .ready } }

/-- The second half of boot, after the header is decoded. A header with more buttons than the multiplexer can address is refused
(R222, U19; log 22). -/
def bootPage (s : State) : Result :=
  if s.hdr.bdCount ≤ 2 ^ s.cfg.muxAddrWidth then
    match loadPage 0 s with
    | .fatal s => .next s
    | .ok _ s => .next s.setReady
  else .refused .tooManyButtons

/-- `new(stream)` (R130). -/
def execNew (s : State) : Result :=
  s.whenAlive (
    if s.sys.phase = .ready then .refused .alreadyBooted
    else if s.stream.pos ≠ 0 then .refused .streamNotAtStart
    else
      match streamRead s.cfg.rowLength s with
      | .fatal s => .next s
      | .ok hb s =>
        match decodeHeader hb s with
        | .fatal s => .next s
        | .ok _ s => bootPage s)

end Sys2Proof.Machine
end

