-- ==== Sys2Proof/Machine/Decoder.lean ====
section
/-! DEFINITION. The Button Record Decoder (42_record_decoder.md): pure functions of bytes, each returned to its caller in `State.ret` (log 12). -/

namespace Sys2Proof.Machine

/-- `PressKeys` (R152). -/
def execSlotPressKeys (hi : BitVec 4) (payload : List Byte) (s : State) : Result :=
  s.returning (.slotPressKeys hi payload) (.function (pressKeysOf payload))

/-- `ChangePage` (R153). -/
def execSlotChangePage (hi : BitVec 4) (payload : List Byte) (s : State) : Result :=
  s.returning (.slotChangePage hi payload) (.function (changePageOf payload))

/-- `None` by the reserved code (R158). -/
def execSlotNoFunction (hi : BitVec 4) (payload : List Byte) (s : State) : Result :=
  s.returning (.slotNoFunction hi payload) (.function .noFunction)

/-- `PressSpecialKey` (R154). -/
def execSlotPressSpecialKey (hi : BitVec 4) (payload : List Byte) (s : State) : Result :=
  s.returning (.slotPressSpecialKey hi payload) (.function .pressSpecialKey)

/-- `SendText` (R155). -/
def execSlotSendText (hi : BitVec 4) (payload : List Byte) (s : State) : Result :=
  s.returning (.slotSendText hi payload) (.function .sendText)

/-- `SetSetting` (R156). -/
def execSlotSetSetting (hi : BitVec 4) (payload : List Byte) (s : State) : Result :=
  s.returning (.slotSetSetting hi payload) (.function .setSetting)

/-- `CommunicateToHost` (R157). -/
def execSlotCommunicateToHost (hi : BitVec 4) (payload : List Byte) (s : State) : Result :=
  s.returning (.slotCommunicateToHost hi payload) (.function .communicateToHost)

/-- `None` by an unknown code below 8 (R159). -/
def execSlotUnknownLow (hi : BitVec 4) (c : BitVec 3) (payload : List Byte) (s : State) : Result :=
  s.returning (.slotUnknownLow hi c payload) (.function .noFunction)

/-- `None` by an unknown code from 8 on (R159). -/
def execSlotUnknownHigh (hi : BitVec 4) (c : BitVec 3) (payload : List Byte) (s : State) : Result :=
  s.returning (.slotUnknownHigh hi c payload) (.function .noFunction)

/-- `has_secondary_function` (R160). -/
def execHasSecondary (mode : Byte) (s : State) : Result :=
  s.returning (.hasSecondary mode) (.flag (hasSecondaryOf s.cfg mode))

/-- A raw row: `primary_function(row)` and `secondary_function(row)` (R150). -/
def execRow (bytes : List Byte) (s : State) : Result :=
  s.returning (.row bytes) (.functions (functionOfRow s.cfg .primary bytes) (functionOfRow s.cfg .secondary bytes))

/-- A raw image block: `image_buffer(img)` (R161) with its liveness flag (R162). -/
def execImage (bytes : List Byte) (s : State) : Result :=
  s.returning (.image bytes) (.image (isLiveImage bytes) (imageBuffer bytes))

/-- `primary_function(page.row[i])` or `secondary_function(page.row[i])` (R141, R150). -/
def execSlotFunction (slot : SlotName) (button : U16) (s : State) : Result :=
  s.whenReady (
    match s.row? button.toNat with
    | none => .refused .buttonIndex
    | some row => .next { s with ret := some (.function (functionOfRow s.cfg slot row)) })

/-- `is_live(page.img[i])` (R141, R162). -/
def execIsLive (button : U16) (s : State) : Result :=
  s.whenReady (
    match s.img? button.toNat with
    | none => .refused .buttonIndex
    | some img => .next { s with ret := some (.flag (isLiveImage img)) })

end Sys2Proof.Machine
end

