-- ==== Sys2Proof/Machine/Dispatcher.lean ====
section
/-! DEFINITION. The Dispatcher (43_dispatcher.md): the action on each of the five events, the page change and the redraw. -/

namespace Sys2Proof.Machine

/-- Action on `Idle` (R171). -/
def execEventIdle (s : State) : Result := s.whenReady (dispatch .idle s).toResult

/-- Action on `ShortDown` (R172). -/
def execEventShortDown (s : State) : Result := s.whenReady (dispatch .shortDown s).toResult

/-- Action on `ShortUp` (R173). -/
def execEventShortUp (s : State) : Result := s.whenReady (dispatch .shortUp s).toResult

/-- Action on `ShortTriggered` (R174). -/
def execEventShortTriggered (s : State) : Result := s.whenReady (dispatch .shortTriggered s).toResult

/-- Action on `LongTriggered` (R175). -/
def execEventLongTriggered (s : State) : Result := s.whenReady (dispatch .longTriggered s).toResult

/-- `change_page(t)` (R177). -/
def execChangePage (page : U16) (s : State) : Result := s.whenReady (changePage page.toNat s).toResult

/-- `redraw_all()` (R178). -/
def execRedrawAll (s : State) : Result := s.whenReady (redrawAll s).toResult

end Sys2Proof.Machine
end

