-- ==== Sys2Proof/Machine/Fsm.lean ====
section
/-! DEFINITION. The Button Interaction State Machine (40_fsm.md): the invocation, the ten transitions, and one evaluation. -/

namespace Sys2Proof.Machine

/-- Invocation (R100). -/
def execInvoke (s : State) : Result :=
  s.whenReady (
    if s.fsm.busy then .refused .busy
    else
      match s.row? s.disp.cursor with
      | none => .refused .buttonIndex
      | some row =>
        .next { s.setAddress s.disp.cursor with
          fsm := { s.fsm with hasSec := hasSecondaryFunction s.cfg row, state := .start, busy := true } })

/-- `Start/IsUp` (R105). -/
def execStartIsUp (s : State) : Result :=
  s.whenSelected .startIsUp (emit .idle { s with fsm := { s.fsm with state := .start, busy := false } }).toResult

/-- `Start/IsDown` (R106). -/
def execStartIsDown (s : State) : Result :=
  let s' := { s with fsm := { s.fsm with pressTs := some s.env.now, state := .down } }
  s.whenSelected .startIsDown (if s.fsm.hasSec then .next s' else (emit .shortDown s').toResult)

/-- `Down/HeldLong` (R107). -/
def execDownHeldLong (s : State) : Result :=
  s.whenSelected .downHeldLong (emit .longTriggered { s with fsm := { s.fsm with state := .downButWaiting } }).toResult

/-- `Down/StillDown` (R108). -/
def execDownStillDown (s : State) : Result :=
  s.whenSelected .downStillDown (.next { s with fsm := { s.fsm with state := .down } })

/-- `Down/AnyUp` (R109). -/
def execDownAnyUp (s : State) : Result :=
  s.whenSelected .downAnyUp (.next { s with fsm := { s.fsm with state := .up } })

/-- `DownButWaiting/StillDown` (R110). -/
def execDownButWaitingStillDown (s : State) : Result :=
  s.whenSelected .downButWaitingStillDown (.next { s with fsm := { s.fsm with state := .downButWaiting } })

/-- `DownButWaiting/Released` (R111). -/
def execDownButWaitingReleased (s : State) : Result :=
  s.whenSelected .downButWaitingReleased (.next { s with fsm := { s.fsm with state := .up } })

/-- `Up/UpAfterLong` (R112). -/
def execUpUpAfterLong (s : State) : Result :=
  s.whenSelected .upUpAfterLong (.next s.finish)

/-- `Up/ShortHeld` (R113). -/
def execUpShortHeld (s : State) : Result :=
  s.whenSelected .upShortHeld (runTasks [.emit .shortDown, .emit .shortTriggered, .finish] s).toResult

/-- `Up/ShortUp` (R114). -/
def execUpShortUp (s : State) : Result :=
  s.whenSelected .upShortUp (runTasks [.emit s.cfg.shortUpSymbol.event, .finish] s).toResult

/-- The transition selected. -/
def runTransition (t : Transition) (s : State) : Result :=
  match t with
  | .startIsUp => execStartIsUp s
  | .startIsDown => execStartIsDown s
  | .downHeldLong => execDownHeldLong s
  | .downStillDown => execDownStillDown s
  | .downAnyUp => execDownAnyUp s
  | .downButWaitingStillDown => execDownButWaitingStillDown s
  | .downButWaitingReleased => execDownButWaitingReleased s
  | .upUpAfterLong => execUpUpAfterLong s
  | .upShortHeld => execUpShortHeld s
  | .upShortUp => execUpShortUp s

/-- `pin.is_low()` (R102, R208): one answer, recorded. -/
def State.readPin (s : State) : State :=
  let (pin, rest) := s.env.pins.take
  { s.record (.pinRead pin) with env := { s.env with pins := rest, pin := pin } }

/-- The state with a new reading `now` of the time base. -/
def State.readClock (s : State) : State :=
  let (now, rest) := s.env.clock.take s.env.now
  { s with env := { s.env with clock := rest, now := now } }

/-- One fresh input sample (R101, R102): the time, and in every state but `Up` the pin. A time earlier than the last has no
step (U2). Every sample is taken at face value (log 38). -/
def State.sample (s : State) : Except Refusal State :=
  if s.readClock.env.now < s.env.now then .error .timeWentBack
  else
    match s.fsm.state with
    | .start => .ok s.readClock.readPin
    | .down => .ok s.readClock.readPin
    | .downButWaiting => .ok s.readClock.readPin
    | .up => .ok s.readClock

/-- One evaluation (R101): sample, form the decider word, apply the one transition it selects. -/
def execEvaluate (s : State) : Result :=
  s.whenReady (
    if s.fsm.busy = false then .refused .notBusy
    else
      match s.sample with
      | .error r => .refused r
      | .ok s => runTransition (decodeDecider s.deciderWord) s)

end Sys2Proof.Machine
end

