-- ==== Sys2Proof/Machine/System.lean ====
section
/-! DEFINITION. The fatal state and reset as operations (60_exceptions.md R195, 70_reset_and_hazards.md R220). -/

namespace Sys2Proof.Machine

/-- `raise Fatal(cause)` (R195). -/
def execRaiseFatal (cause : Cause) (s : State) : Result := .next (s.raiseFatal cause)

/-- Reset (R220), the only way out of the fatal state (R199). -/
def execReset (s : State) : Result := .next s.resetBlock

end Sys2Proof.Machine
end

