-- ==== Sys2Proof/Machine/Dispatch.lean ====
section
/-! DEFINITION. One arm for each operation of spec/opcode_table.json. -/

namespace Sys2Proof.Machine

def exec (i : Instr) (s : State) : Host.Outcome State Fault Refusal :=
  match i with
  | .startIsUp => Sys2Proof.Machine.execStartIsUp s
  | .startIsDown => Sys2Proof.Machine.execStartIsDown s
  | .downHeldLong => Sys2Proof.Machine.execDownHeldLong s
  | .downStillDown => Sys2Proof.Machine.execDownStillDown s
  | .downAnyUp => Sys2Proof.Machine.execDownAnyUp s
  | .downButWaitingStillDown => Sys2Proof.Machine.execDownButWaitingStillDown s
  | .downButWaitingReleased => Sys2Proof.Machine.execDownButWaitingReleased s
  | .upUpAfterLong => Sys2Proof.Machine.execUpUpAfterLong s
  | .upShortHeld => Sys2Proof.Machine.execUpShortHeld s
  | .upShortUp => Sys2Proof.Machine.execUpShortUp s
  | .slotPressKeys hi payload => Sys2Proof.Machine.execSlotPressKeys hi payload s
  | .slotChangePage hi payload => Sys2Proof.Machine.execSlotChangePage hi payload s
  | .slotNoFunction hi payload => Sys2Proof.Machine.execSlotNoFunction hi payload s
  | .slotPressSpecialKey hi payload => Sys2Proof.Machine.execSlotPressSpecialKey hi payload s
  | .slotSendText hi payload => Sys2Proof.Machine.execSlotSendText hi payload s
  | .slotSetSetting hi payload => Sys2Proof.Machine.execSlotSetSetting hi payload s
  | .slotCommunicateToHost hi payload => Sys2Proof.Machine.execSlotCommunicateToHost hi payload s
  | .slotUnknownLow hi c payload => Sys2Proof.Machine.execSlotUnknownLow hi c payload s
  | .slotUnknownHigh hi c payload => Sys2Proof.Machine.execSlotUnknownHigh hi c payload s
  | .hasSecondary mode => Sys2Proof.Machine.execHasSecondary mode s
  | .eventIdle => Sys2Proof.Machine.execEventIdle s
  | .eventShortDown => Sys2Proof.Machine.execEventShortDown s
  | .eventShortUp => Sys2Proof.Machine.execEventShortUp s
  | .eventShortTriggered => Sys2Proof.Machine.execEventShortTriggered s
  | .eventLongTriggered => Sys2Proof.Machine.execEventLongTriggered s
  | .header bytes => Sys2Proof.Machine.execHeader bytes s
  | .row bytes => Sys2Proof.Machine.execRow bytes s
  | .image bytes => Sys2Proof.Machine.execImage bytes s
  | .invoke => Sys2Proof.Machine.execInvoke s
  | .evaluate => Sys2Proof.Machine.execEvaluate s
  | .opNew => Sys2Proof.Machine.execNew s
  | .loadPage page => Sys2Proof.Machine.execLoadPage page s
  | .slotFunction slot button => Sys2Proof.Machine.execSlotFunction slot button s
  | .isLive button => Sys2Proof.Machine.execIsLive button s
  | .changePage page => Sys2Proof.Machine.execChangePage page s
  | .redrawAll => Sys2Proof.Machine.execRedrawAll s
  | .raiseFatal cause => Sys2Proof.Machine.execRaiseFatal cause s
  | .reset => Sys2Proof.Machine.execReset s

end Sys2Proof.Machine
end

