-- ==== Sys2Proof/Machine/Sequence.lean ====
section
/-! DEFINITION. What the block does next (R8, R101, R221): which operation a step runs and in which state, and how a word is placed so
that the next step runs it. -/

namespace Sys2Proof.Machine

/-- What the next step is. -/
inductive Selection where
  | run (i : Instr) (s : State)
  | resume
  | stop (f : Fault)
  | refuse (r : Refusal)
  deriving DecidableEq, Repr

/-- The operation a waiting call asks for, if its bytes are one. -/
def callOf (s : State) (w : OpWord) (rest : List OpWord) : Selection :=
  match decode s.cfg w with
  | .ok i => .run i { s with calls := rest }
  | .error e => .refuse (.undecodable e)

/-- The block's own sequence where nobody else asks for anything: boot, then invocation after invocation (R221, R223; log 8). -/
def ownNext (s : State) : Selection :=
  match s.sys.phase with
  | .uninit => .run .opNew s
  | .ready => .run .invoke s
  | .fatal => .stop (.fatal s.sys.cause)

/-- A reset that waits to be taken (R220). -/
def resetWaits (s : State) : Bool :=
  match s.calls with
  | w :: _ => decide (decode s.cfg w = .ok .reset)
  | [] => false

/-- The next step. A waiting reset comes first (R199); in the fatal state nothing else happens (R195); a draw that has not succeeded is
retried (R179); a busy FSM takes its next evaluation (R101); between invocations a waiting call is served, or the block goes its own
way (log 8, log 10). -/
def nextSelection (s : State) : Selection :=
  if resetWaits s then .run .reset { s with calls := s.calls.tail }
  else if s.sys.phase = .fatal then .stop (.fatal s.sys.cause)
  else if s.work ≠ [] then .resume
  else if s.sys.phase = .ready ∧ s.fsm.busy then .run .evaluate s
  else
    match s.calls with
    | w :: rest => callOf s w rest
    | [] => ownNext s

/-- The rest of an action that waited for the display (R179, R235). -/
def resumeWork (s : State) : Result := s.whenAlive (runTasks s.work { s with work := [] }).toResult

/-- A block with one button and a page of one inert row, for a machine that is not ready (log 11). -/
def State.withOneButton (s : State) : State :=
  { s with
    sys := { phase := .ready, cause := none }
    hdr := { width := 1, height := 1, offset := 2, bdCount := 1, pageCount := 2 }
    page :=
      { rows := [List.replicate s.cfg.rowLength (s.cfg.modeNoFunction.setWidth 8)]
        imgs := [List.replicate s.cfg.imageLength 0]
        index := 0 }
    disp := { cursor := 0 } }

/-- The state in which the next evaluation's sample gives a decider word that selects transition `t` (R83, R84; log 11). -/
def State.withDecider (s : State) (d : BitVec 5) : State :=
  let t := decodeDecider d
  let s := if s.sys.phase = .ready then s else s.withOneButton
  let waited := t = .downHeldLong ∨ t = .downButWaitingStillDown ∨ t = .downButWaitingReleased ∨ t = .upUpAfterLong
  let now := s.env.now + s.cfg.longPressThreshold + 1
  { s with
    calls := []
    work := []
    fsm :=
      { state := FsmState.ofBits (d.extractLsb' 3 2)
        busy := true
        pressTs :=
          if FsmState.ofBits (d.extractLsb' 3 2) = .start then none
          else some (if waited then s.env.now else now)
        hasSec := d.getLsbD 1 || decide waited }
    env :=
      { s.env with
        clock := { s.env.clock with queue := now :: s.env.clock.queue }
        pins := { s.env.pins with queue := (if d.getLsbD 2 then .low else .high) :: s.env.pins.queue } } }

/-- The state in which the next step serves the call `w`. -/
def State.withCall (s : State) (w : OpWord) : State :=
  { s with
    calls := w :: s.calls
    work := []
    fsm := { s.fsm with busy := false }
    sys := if s.sys.phase = .fatal then { phase := .uninit, cause := none } else s.sys }

/-- The state in which the next step runs the operation of `w`. -/
def State.withWord (s : State) (w : OpWord) : State :=
  match w.format, w.bytes with
  | .decider, [b] => s.withDecider (b.setWidth 5)
  | .event, bs => (if s.sys.phase = .ready then s else s.withOneButton).withCall ⟨.event, bs⟩
  | f, bs => s.withCall ⟨f, bs⟩

end Sys2Proof.Machine
end

