-- ==== Sys2Proof/Machine/Step.lean ====
section
/-! DEFINITION. One step (R8), and the host's word placed where the next step finds it. -/

namespace Sys2Proof.Machine

/-- One boot, one invocation, one evaluation, one requested call, or one more try of a draw (R8; log 8). -/
def step (s : State) : Host.Outcome State Fault Refusal :=
  match nextSelection s with
  | .run i s => exec i s
  | .resume => resumeWork s
  | .stop f => .fault f
  | .refuse r => .refused r

/-- `s` with the operation of a table word as what the next step runs (log 11). -/
def State.withFetchWord (s : State) (nbits w : Nat) : State := s.withWord (tableWord nbits w)

end Sys2Proof.Machine
end

