-- ==== Sys2Proof/Safety.lean ====
section
/-! DEFINITION. What counts as a good state, and the terms the statements are written in: the invariant of the block, and the states that
a page load, a redraw and a boot lead to when every collaborator answers. -/

namespace Sys2Proof.Machine

/-! ### Good states -/

/-- Not in the fatal state, with parameters that meet R4. -/
abbrev State.Alive (s : State) : Prop := s.sys.phase ≠ .fatal ∧ s.cfg.Valid

/-- Ready for a call: booted, parameters that meet R4, and no earlier call still in progress. -/
abbrev State.Open (s : State) : Prop := s.sys.phase = .ready ∧ s.cfg.Valid ∧ s.work = []

/-- The header registers are those of one valid header (R132, R133). -/
structure Hdr.Decoded (h : Hdr) : Prop where
  bdCount : h.bdCount = h.width.toNat * h.height.toNat
  positive : 0 < h.bdCount
  offset : 1 + h.bdCount ≤ h.offset.toNat
  pageCount : h.pageCount = BitVec.ofNat 16 (h.offset.toNat / h.bdCount)

/-- The page buffer holds `n` rows and `n` image blocks of the parameters' lengths (R22, R23). -/
structure Page.Holds (g : Page) (p : Params) (n : Nat) : Prop where
  rows : g.rows.length = n
  rowLength : ∀ r ∈ g.rows, r.length = p.rowLength
  imgs : g.imgs.length = n
  imgLength : ∀ b ∈ g.imgs, b.length = p.imageLength

/-- A whole page is loaded and the cursor is on one of its buttons (R25). -/
structure State.PageLoaded (s : State) : Prop where
  page : s.page.Holds s.cfg s.hdr.bdCount
  cursor : s.disp.cursor < s.hdr.bdCount

/-- The FSM between invocations: `Start`, not busy, no timestamp (R116). -/
def Fsm.Idle (f : Fsm) : Prop := f.state = .start ∧ f.busy = false ∧ f.pressTs = none

/-- The FSM inside an invocation (R116, R117): no timestamp in `Start`, a timestamp not later than now elsewhere, and in
`DownButWaiting` a button with a secondary function that was held past the threshold. -/
def Fsm.Running (f : Fsm) (now threshold : Nat) : Prop :=
  f.busy = true ∧
  match f.state with
  | .start => f.pressTs = none
  | .down => ∃ ts, f.pressTs = some ts ∧ ts ≤ now
  | .downButWaiting => ∃ ts, f.pressTs = some ts ∧ ts ≤ now ∧ f.hasSec = true ∧ threshold < now - ts
  | .up => ∃ ts, f.pressTs = some ts ∧ ts ≤ now

/-- The invariant of the block. -/
structure State.Inv (s : State) : Prop where
  /-- The parameters meet R4. -/
  cfg : s.cfg.Valid
  /-- The blob is in canonical form. -/
  blob : s.stream.blob.wf
  /-- A cause is recorded exactly in the fatal state (R26). -/
  cause : s.sys.phase = .fatal ↔ s.sys.cause ≠ none
  /-- The header registers are empty or those of one valid header (R132). -/
  header : s.sys.phase ≠ .fatal → s.hdr.bdCount = 0 ∨ s.hdr.Decoded
  /-- Before boot the FSM is idle and the cursor at its reset value (R33). -/
  uninit : s.sys.phase = .uninit → s.fsm.Idle ∧ s.disp.cursor = 0
  /-- After boot the header is decoded and addressable, a whole page is loaded, and the FSM is between or inside invocations. -/
  ready : s.sys.phase = .ready →
    s.hdr.Decoded ∧ s.hdr.bdCount ≤ 2 ^ s.cfg.muxAddrWidth ∧ s.PageLoaded ∧
      (s.fsm.Idle ∨ s.fsm.Running s.env.now s.cfg.longPressThreshold)
  /-- Only a booted block has an action waiting for the display. -/
  waiting : s.work ≠ [] → s.sys.phase = .ready
  /-- The button whose draw is retried exists. -/
  retry : ∀ a, Task.retry a ∈ s.work → a < s.hdr.bdCount
  /-- No `Idle` is still to be emitted: `Start/IsUp` emits it last, and its action draws nothing (R105, R171). -/
  noIdle : Task.emit .idle ∉ s.work

/-! ### What the deciders ask (R103, R104) -/

/-- `long = 1`: a secondary function, and held past the threshold (R103). -/
def State.HeldPast (s : State) : Prop :=
  s.fsm.hasSec = true ∧ ∃ ts, s.fsm.pressTs = some ts ∧ s.cfg.longPressThreshold < s.env.now - ts

/-- `long = 0`: no secondary function, or not held past the threshold (R103). -/
def State.NotHeldPast (s : State) : Prop :=
  s.fsm.hasSec = false ∨
    ∃ ts, s.fsm.pressTs = some ts ∧ ts ≤ s.env.now ∧ s.env.now - ts ≤ s.cfg.longPressThreshold

/-- The events among trace records, in order. -/
def eventsOf (rs : List TraceRecord) : List Event :=
  rs.filterMap fun r =>
    match r with
    | .emit e => some e
    | .setAddress _ => none
    | .draw _ _ => none
    | .seek _ _ => none
    | .read _ _ => none
    | .pinRead _ => none

/-! ### Collaborators that answer -/

/-- The answer to the call after `i` more calls. -/
def Answers.nth {α : Type} (a : Answers α) (i : Nat) : α := a.queue.getD i a.rest

/-- The next `n` stream calls do not fail at the device. -/
def State.Answered (s : State) (n : Nat) : Prop := ∀ i < n, s.env.stream.nth i = true

/-- No stream call fails at the device. -/
def State.StreamAnswers (s : State) : Prop := (∀ b ∈ s.env.stream.queue, b = true) ∧ s.env.stream.rest = true

/-- Every draw succeeds. -/
def State.DrawsSucceed (s : State) : Prop := (∀ b ∈ s.env.draws.queue, b = true) ∧ s.env.draws.rest = true

/-- The time base does not go back at the next reading (R204). -/
def State.ClockMonotone (s : State) : Prop := s.env.now ≤ (s.env.clock.take s.env.now).1

/-- `count` blocks of `n` bytes from `position` on lie inside the blob (R42). -/
def State.RegionInside (s : State) (position n count : Nat) : Prop := position + n * count ≤ s.stream.len

/-- Both regions of page `k` lie inside the blob (R50). -/
def State.PageInside (s : State) (k : Nat) : Prop :=
  s.RegionInside (dataOffset s.cfg s.hdr k) s.cfg.rowLength s.hdr.bdCount ∧
  s.RegionInside (imagesOffset s.cfg s.hdr k) s.cfg.imageLength s.hdr.bdCount

/-! ### Where the Config Store and the redraw lead -/

/-- The blocks of `n` bytes that lie one after another from `position` on (R50). -/
def blocksAt (blob : Mem) (position n count : Nat) : List (List Byte) :=
  (List.range count).map fun i => blob.bytes (position + n * i) n

/-- The trace of one pass: a seek, then `count` reads of `n` bytes (R136). -/
def passTrace (position n count : Nat) : List TraceRecord := .seek position true :: List.replicate count (.read n .ok)

/-- The calls of `load_page(k)`, in order, as the records of their success (R136). -/
def State.loadCalls (s : State) (k : Nat) : List TraceRecord :=
  passTrace (dataOffset s.cfg s.hdr k) s.cfg.rowLength s.hdr.bdCount ++
    passTrace (imagesOffset s.cfg s.hdr k) s.cfg.imageLength s.hdr.bdCount

/-- Where a stream call that succeeds leaves the position (R41, R42). -/
def positionAfterCall (pos : Nat) : TraceRecord → Nat
  | .seek p _ => p
  | .read n _ => pos + n
  | .emit _ => pos
  | .setAddress _ => pos
  | .draw _ _ => pos
  | .pinRead _ => pos

/-- Where stream calls that succeed one after another leave the position. -/
def positionAfter (pos : Nat) (calls : List TraceRecord) : Nat := calls.foldl positionAfterCall pos

/-- Every read of these calls lies inside a blob of `len` bytes, if they start at the position `pos` (R42). -/
def ReadsInside (len : Nat) : Nat → List TraceRecord → Prop
  | _, [] => True
  | pos, .read n _ :: calls => pos + n ≤ len ∧ ReadsInside len (pos + n) calls
  | _, .seek p _ :: calls => ReadsInside len p calls
  | pos, .emit _ :: calls => ReadsInside len pos calls
  | pos, .setAddress _ :: calls => ReadsInside len pos calls
  | pos, .draw _ _ :: calls => ReadsInside len pos calls
  | pos, .pinRead _ :: calls => ReadsInside len pos calls

/-- The state in which the calls `before` succeeded and the one after them raised `Fatal(cause)` and left `record` (R138, R195). -/
def State.afterFailure (s : State) (before : List TraceRecord) (record : TraceRecord) (cause : Cause) : State :=
  { s with
    sys := { phase := .fatal, cause := some cause }
    stream := { s.stream with pos := positionAfter s.stream.pos before }
    trace := s.trace ++ before ++ [record]
    env := { s.env with stream := { s.env.stream with queue := s.env.stream.queue.drop (before.length + 1) } } }

/-- The state after `load_page(k)` when every call succeeds (R136). -/
def State.afterLoad (s : State) (k : Nat) : State :=
  let n := s.hdr.bdCount
  let d := dataOffset s.cfg s.hdr k
  let m := imagesOffset s.cfg s.hdr k
  { s with
    page :=
      { rows := blocksAt s.stream.blob d s.cfg.rowLength n, imgs := blocksAt s.stream.blob m s.cfg.imageLength n, index := k }
    stream := { s.stream with pos := m + s.cfg.imageLength * n }
    trace := s.trace ++ passTrace d s.cfg.rowLength n ++ passTrace m s.cfg.imageLength n
    env := { s.env with stream := { s.env.stream with queue := s.env.stream.queue.drop (2 + 2 * n) } } }

/-- The state after the header block of a boot is read and decoded (R130, R131, R133). -/
def State.afterHeader (s : State) : State :=
  let hb := s.stream.blob.bytes 0 s.cfg.rowLength
  let n := (headerWidth hb).toNat * (headerHeight hb).toNat
  { s with
    hdr :=
      { width := headerWidth hb, height := headerHeight hb, offset := headerOffset hb, bdCount := n
        pageCount := BitVec.ofNat 16 ((headerOffset hb).toNat / n) }
    stream := { s.stream with pos := s.cfg.rowLength }
    trace := s.trace ++ [.read s.cfg.rowLength .ok]
    env := { s.env with stream := { s.env.stream with queue := s.env.stream.queue.drop 1 } } }

/-- The frame drawn for button `a` (R161, R178). -/
def State.frameOf (s : State) (a : Nat) : List Byte := (s.page.imgs.getD a []).drop 1

/-- The trace of a redraw in which every draw succeeds at once (R178). -/
def State.redrawTrace (s : State) : List TraceRecord :=
  (List.range s.hdr.bdCount).flatMap fun a => [.setAddress a, .draw (s.frameOf a) true]

/-- The state after `redraw_all()` when every draw succeeds at once (R178). -/
def State.afterRedraw (s : State) : State :=
  { s with
    mux := { addr := s.hdr.bdCount - 1 }
    trace := s.trace ++ s.redrawTrace
    env := { s.env with draws := { s.env.draws with queue := s.env.draws.queue.drop s.hdr.bdCount } } }

/-- The answers that draws use up when one button after another fails so many times and then succeeds (R179). -/
def answersUsed (fails : List Nat) : List Bool := fails.flatMap fun n => List.replicate n false ++ [true]

/-- The trace of the redraw of the buttons from `a` on, one for each entry of `fails`: the address once, so many failed draws of the
button's frame, and the draw that succeeds (R178, R179). -/
def State.retryTrace (s : State) : Nat → List Nat → List TraceRecord
  | _, [] => []
  | a, n :: fails =>
    .setAddress a :: (List.replicate n (.draw (s.frameOf a) false) ++ .draw (s.frameOf a) true :: s.retryTrace (a + 1) fails)

/-! ### Frames -/

/-- Everything that a page load or a redraw leaves alone (R177, R178). -/
structure State.SameButPage (s t : State) : Prop where
  fsm : t.fsm = s.fsm
  hdr : t.hdr = s.hdr
  disp : t.disp = s.disp
  blob : t.stream.blob = s.stream.blob
  len : t.stream.len = s.stream.len
  cfg : t.cfg = s.cfg
  calls : t.calls = s.calls
  ret : t.ret = s.ret
  pins : t.env.pins = s.env.pins
  clock : t.env.clock = s.env.clock
  now : t.env.now = s.env.now
  pin : t.env.pin = s.env.pin

end Sys2Proof.Machine
end

