-- ==== Sys2Proof/Certificates/Slice0/Obligations.lean ====
section
/-! DEFINITION. The statements about the block, each from the numbered rules of spec/ that its docstring names. Where a statement speaks of
the model's own fields (`calls`, `work`, `ret`, `env`), the log entry is named. -/

open Sys2Proof Sys2Proof.Machine

/-! ### Reset and the fatal state -/

/-- R33 and R220: the registers right after reset, and a reset from any state puts them there. The parameters and the blob are no
registers and stay (log 32). (Of the registers the spec calls unspecified, log 5, nothing is said.) The values are the spec's decision
D28. -/
def Obligations.ResetPutsRegistersAtResetValues : Prop :=
  let isReset : State → Prop := fun t =>
    t.fsm = { state := .start, busy := false, pressTs := none, hasSec := false } ∧ t.disp.cursor = 0 ∧
    t.sys.phase = .uninit ∧ t.sys.cause = none ∧ t.stream.pos = 0 ∧ t.trace = []
  isReset State.reset ∧
  ∀ s : State, ∃ t, exec .reset s = .next t ∧ isReset t ∧
    t.cfg = s.cfg ∧ t.stream.blob = s.stream.blob ∧ t.stream.len = s.stream.len

/-- R195: raising `Fatal` changes `sys.phase` and `sys.cause` only, and the first cause stays. (`work` is the model's own, log 9: what was
still to do is abandoned.) The fatal state is the spec's decision D27. -/
def Obligations.RaiseFatalEntersFatalState : Prop :=
  ∀ (s : State) (c : Cause),
    exec (.raiseFatal c) s =
      .next { s with
        sys := { phase := .fatal, cause := if s.sys.phase = .fatal then s.sys.cause else some c }
        work := [] }

/-- R195 and R199: in the fatal state every operation but the raise itself and a reset faults. So does the step, unless a reset waits;
then the step is that reset. The fatal state is the spec's decision D27, the waiting reset log 32. -/
def Obligations.FatalStateHasNoStep : Prop :=
  ∀ s : State, s.sys.phase = .fatal →
    (∀ i : Instr, (∀ c, i ≠ .raiseFatal c) → i ≠ .reset → exec i s = .fault (.fatal s.sys.cause)) ∧
    (resetWaits s = false → step s = .fault (.fatal s.sys.cause)) ∧
    (resetWaits s = true → ∃ t, step s = .next t ∧ t.sys = { phase := .uninit, cause := none })

/-! ### Invocation and evaluation -/

/-- R100: the invocation. The address and the latch are the spec's decisions D9 and D15 (log 25, log 26). -/
def Obligations.InvokeSelectsAddressAndLatchesFlag : Prop :=
  ∀ (s : State) (row : List Byte), s.Open → s.fsm.busy = false → s.PageLoaded → s.page.rows[s.disp.cursor]? = some row →
    exec .invoke s =
      .next { s with
        mux := { addr := s.disp.cursor }
        trace := s.trace ++ [.setAddress s.disp.cursor]
        fsm :=
          { state := .start, busy := true, pressTs := s.fsm.pressTs
            hasSec := decide (row.getD (s.cfg.rowLength / 2) 0 ≠ s.cfg.modeNoFunction.setWidth 8) } }

/-- R84: the ten cubes are pairwise disjoint and cover every decider word, and the decoder follows them. The bit patterns are the spec's
decision D30, the priority in `Down` its decisions D6 and D7 (log 23). -/
def Obligations.DeciderWordSelectsExactlyOneTransition : Prop :=
  ∀ (d : BitVec 5) (t : Transition), d &&& t.maskWord = t.matchWord ↔ t = decodeDecider d

/-- R83: the bits of the decider word. The bit patterns are the spec's decision D30. -/
def Obligations.DeciderWordBits : Prop :=
  ∀ s : State,
    FsmState.ofBits (s.deciderWord.extractLsb' 3 2) = s.fsm.state ∧
    (s.fsm.state ≠ .up → s.deciderWord.getLsbD 2 = decide (s.env.pin = .low)) ∧
    s.deciderWord.getLsbD 1 = s.fsm.hasSec ∧
    (s.fsm.state = .down ∨ s.fsm.state = .up → ∀ ts, s.fsm.pressTs = some ts →
      s.deciderWord.getLsbD 0 = (s.fsm.hasSec && decide (s.cfg.longPressThreshold < s.env.now - ts)))

/-- R101: one evaluation takes one fresh sample and applies the one transition that the decider word selects. What a sample is, is the
spec's decision D13. -/
def Obligations.EvaluateAppliesSelectedTransition : Prop :=
  ∀ s t : State, s.Open → s.fsm.busy = true → s.sample = .ok t →
    exec .evaluate s = exec (decodeDecider t.deciderWord).instr t

/-- R102: the sample of an evaluation. In `Up` the pin is not read. That `Up` reads no pin is the spec's decision D13; the queues are log
4. -/
def Obligations.SampleReadsClockAndPin : Prop :=
  ∀ s : State, s.ClockMonotone →
    s.sample = .ok (
      let t := { s with
        env := { s.env with now := (s.env.clock.take s.env.now).1, clock := (s.env.clock.take s.env.now).2 } }
      if s.fsm.state = .up then t
      else
        { t with
          trace := s.trace ++ [.pinRead s.env.pins.take.1]
          env := { t.env with pin := s.env.pins.take.1, pins := s.env.pins.take.2 } })

/-- In a good state whose clock does not go back an evaluation answers a next state, that of the transition which the fresh sample `u`
selects (R101; the invariant rules out unreachable states). It is not said that an action in it is over;
that would need the premise that each draw succeeds in the end (R235). An action that waits for the display is a next state by log 9, one
that raised `Fatal` by log 7. -/
def Obligations.EvaluateCompletes : Prop :=
  ∀ s : State, s.Inv → s.Open → s.fsm.busy = true → s.ClockMonotone →
    ∃ u t, s.sample = .ok u ∧ exec .evaluate s = .next t ∧ exec (decodeDecider u.deciderWord).instr u = .next t

/-- R193: with a pin fault the decider sees what it sees with a released pin. That `HeldLong` does not look at the pin, and that `AnyUp` is
taken whenever `long = 0`, are the spec's decisions D6 and D7 (log 23). -/
def Obligations.PinFaultReadsAsReleased : Prop :=
  ∀ s : State,
    { s with env := { s.env with pin := .fault } }.deciderWord = { s with env := { s.env with pin := .high } }.deciderWord ∧
    (s.fsm.busy = true → s.env.pin = .fault → s.elapsedStop = none →
      (s.fsm.state = .start → decodeDecider s.deciderWord = .startIsUp) ∧
      (s.fsm.state = .down → s.HeldPast → decodeDecider s.deciderWord = .downHeldLong) ∧
      (s.fsm.state = .down → s.NotHeldPast → decodeDecider s.deciderWord = .downAnyUp) ∧
      (s.fsm.state = .downButWaiting → decodeDecider s.deciderWord = .downButWaitingReleased))

/-- R103: the comparison with the threshold is strict. At exactly the threshold the press is still short, one unit later it is long. The
order of the tests in `Down` is the spec's decision D6 (log 23). -/
def Obligations.LongPressBoundaryIsStrict : Prop :=
  ∀ (s : State) (ts : Nat), s.fsm.hasSec = true → s.fsm.pressTs = some ts →
    (s.env.now = ts + s.cfg.longPressThreshold →
      (s.fsm.state = .down → s.env.pin = .low → decodeDecider s.deciderWord = .downStillDown) ∧
      (s.fsm.state = .up → decodeDecider s.deciderWord = .upShortHeld)) ∧
    (s.env.now = ts + s.cfg.longPressThreshold + 1 →
      (s.fsm.state = .down → decodeDecider s.deciderWord = .downHeldLong) ∧
      (s.fsm.state = .up → decodeDecider s.deciderWord = .upUpAfterLong))

/-! ### The ten transitions -/

/-- R105, with the `Idle` action of R171. The address requested is the spec's decision D16 (log 26). -/
def Obligations.StartIsUpEndsInvocationWithIdle : Prop :=
  ∀ s : State, s.Open → s.fsm.busy = true → s.fsm.state = .start → s.env.pin ≠ .low → 0 < s.hdr.bdCount →
    exec .startIsUp s =
      .next { s with
        fsm := { s.fsm with state := .start, busy := false }
        disp := { cursor := (s.disp.cursor + 1) % s.hdr.bdCount }
        mux := { addr := (s.disp.cursor + 1) % s.hdr.bdCount }
        trace := s.trace ++ [.emit .idle, .setAddress ((s.disp.cursor + 1) % s.hdr.bdCount)] }

/-- R106: the press. The timestamp is recorded. A button with a secondary function emits nothing yet; without one, `ShortDown` is emitted
and its action runs. That there is a next state on every loaded page does not need R235's premise on the draws only because an action that
waits for the display is a next state (log 9), as one that raised `Fatal` is (log 7). -/
def Obligations.StartIsDownRecordsTimestamp : Prop :=
  ∀ s : State, s.Open → s.fsm.busy = true → s.fsm.state = .start → s.env.pin = .low →
    let pressed := { s.fsm with pressTs := some s.env.now, state := .down }
    let u := { s with fsm := pressed, trace := s.trace ++ [.emit .shortDown] }
    (s.fsm.hasSec = true → exec .startIsDown s = .next { s with fsm := pressed }) ∧
    (s.fsm.hasSec = false →
      exec .startIsDown s = exec .eventShortDown u ∧
      (s.PageLoaded → ∃ t, exec .startIsDown s = .next t ∧ u.SameButPage t))

/-- R107: the long press, whatever the pin reads. That the pin is not consulted is the spec's decision D6 (log 23). That there is a next
state on every loaded page does not need R235's premise on the draws only because an action that waits for the display is a next state (log
9), as one that raised `Fatal` is (log 7). -/
def Obligations.DownHeldLongEmitsLongTriggered : Prop :=
  ∀ s : State, s.Open → s.fsm.busy = true → s.fsm.state = .down → s.HeldPast →
    let u := { s with
      fsm := { s.fsm with state := .downButWaiting }
      trace := s.trace ++ [.emit .longTriggered] }
    exec .downHeldLong s = exec .eventLongTriggered u ∧
    (s.PageLoaded → ∃ t, exec .downHeldLong s = .next t ∧ u.SameButPage t)

/-- R108 and R110: a pin still low changes nothing. -/
def Obligations.StillDownChangesNothing : Prop :=
  ∀ s : State, s.Open → s.fsm.busy = true → s.env.pin = .low →
    (s.fsm.state = .down → s.NotHeldPast → exec .downStillDown s = .next s) ∧
    (s.fsm.state = .downButWaiting → exec .downButWaitingStillDown s = .next s)

/-- R109 and R111: a released or faulty pin leads to `Up`, and nothing else changes. That `AnyUp` is taken whenever the pin is not low and
`long = 0` is the spec's decisions D6 and D7 (log 23). -/
def Obligations.ReleaseLeadsToUp : Prop :=
  ∀ s : State, s.Open → s.fsm.busy = true → s.env.pin ≠ .low →
    (s.fsm.state = .down → s.NotHeldPast → exec .downAnyUp s = .next { s with fsm := { s.fsm with state := .up } }) ∧
    (s.fsm.state = .downButWaiting →
      exec .downButWaitingReleased s = .next { s with fsm := { s.fsm with state := .up } })

/-- R112: after a long press the invocation ends without an event, and the cursor does not move. -/
def Obligations.UpAfterLongEndsWithoutEvent : Prop :=
  ∀ s : State, s.Open → s.fsm.busy = true → s.fsm.state = .up → s.HeldPast →
    exec .upUpAfterLong s = .next { s with fsm := { s.fsm with pressTs := none, state := .start, busy := false } }

/-- R113: the short press of a button with a secondary function. It emits `ShortDown` then `ShortTriggered`, each action to its end, then
clears the timestamp and ends. If the first action raises `Fatal` the second event is not emitted; if the second one does, the timestamp is
not cleared. An action that waits for the display leaves the rest of the transition to do (log 9). -/
def Obligations.UpShortHeldEmitsTwoEvents : Prop :=
  ∀ s : State, s.Open → s.fsm.busy = true → s.fsm.state = .up → s.fsm.hasSec = true → s.NotHeldPast →
    let first := exec .eventShortDown { s with trace := s.trace ++ [.emit .shortDown] }
    let second : State → Result := fun t => exec .eventShortTriggered { t with trace := t.trace ++ [.emit .shortTriggered] }
    (∀ t, first = .next t → t.sys.phase = .fatal → exec .upShortHeld s = .next t) ∧
    (∀ t, first = .next t → t.work ≠ [] →
      exec .upShortHeld s = .next { t with work := t.work ++ [.emit .shortTriggered, .finish] }) ∧
    (∀ t u, first = .next t → t.Open → second t = .next u →
      (u.sys.phase = .fatal → exec .upShortHeld s = .next u) ∧
      (u.work ≠ [] → exec .upShortHeld s = .next { u with work := u.work ++ [.finish] }) ∧
      (u.Open → exec .upShortHeld s = .next { u with fsm := { u.fsm with pressTs := none, state := .start, busy := false } }))

/-- R114: the short press of a button without a secondary function, whatever the time. It emits the one symbol of `SHORTUP_SYMBOL`, then
clears the timestamp and ends. An action that waits for the display leaves that end to do (log 9). The parameter is the spec's decision D8
(log 24). -/
def Obligations.UpShortUpEmitsOneEvent : Prop :=
  ∀ s : State, s.Open → s.fsm.busy = true → s.fsm.state = .up → s.fsm.hasSec = false →
    let e := s.cfg.shortUpSymbol.event
    let action := exec e.instr { s with trace := s.trace ++ [.emit e] }
    (e = .shortUp ∨ e = .shortTriggered) ∧
    (∀ t, action = .next t → t.sys.phase = .fatal → exec .upShortUp s = .next t) ∧
    (∀ t, action = .next t → t.work ≠ [] → exec .upShortUp s = .next { t with work := t.work ++ [.finish] }) ∧
    (∀ t, action = .next t → t.Open →
      exec .upShortUp s = .next { t with fsm := { t.fsm with pressTs := none, state := .start, busy := false } })

/-- R113 and R114 complete on a loaded page: the transition ends the invocation with exactly its events, or an action raised `Fatal` (log 7)
or still waits for the display (log 9), and then the FSM is as it was. That `Up/ShortUp` emits the one symbol of `SHORTUP_SYMBOL` is the
spec's decision D8 (log 24). -/
def Obligations.UpShortTransitionsComplete : Prop :=
  ∀ (s : State) (i : Instr) (es : List Event), s.Open → s.PageLoaded → s.fsm.busy = true → s.fsm.state = .up →
    (i = .upShortHeld ∧ s.fsm.hasSec = true ∧ s.NotHeldPast ∧ es = [.shortDown, .shortTriggered] ∨
      i = .upShortUp ∧ s.fsm.hasSec = false ∧ es = [s.cfg.shortUpSymbol.event]) →
    ∃ t added, exec i s = .next t ∧ t.trace = s.trace ++ added ∧ eventsOf added <+: es ∧
      { s with fsm := t.fsm }.SameButPage t ∧
      (t.Open → eventsOf added = es ∧ t.fsm = { s.fsm with pressTs := none, state := .start, busy := false }) ∧
      (¬ t.Open → t.fsm = s.fsm)

/-- R106, R107, R113 and R114 with R176, on a button whose function in question is no `ChangePage`: the transitions that emit complete,
with their events in the trace and nothing else changed but the FSM. That other functions do nothing is the spec's decision D36 (log 31),
that `Down/HeldLong` does not look at the pin its decision D6 (log 23), the symbol of `Up/ShortUp` its decision D8 (log 24). -/
def Obligations.PressesOfInertButtonsComplete : Prop :=
  ∀ (s : State) (row : List Byte), s.Open → s.PageLoaded → s.page.rows[s.disp.cursor]? = some row → s.fsm.busy = true →
    let half := s.cfg.rowLength / 2
    let inert : List Byte → Prop := fun slot => ∀ t, functionOfSlot s.cfg slot ≠ .changePage t
    (s.fsm.state = .start → s.env.pin = .low → s.fsm.hasSec = false → inert (row.take half) →
      exec .startIsDown s =
        .next { s with
          fsm := { s.fsm with pressTs := some s.env.now, state := .down }
          trace := s.trace ++ [.emit .shortDown] }) ∧
    (s.fsm.state = .down → s.HeldPast → inert (row.drop half) →
      exec .downHeldLong s =
        .next { s with fsm := { s.fsm with state := .downButWaiting }, trace := s.trace ++ [.emit .longTriggered] }) ∧
    (s.fsm.state = .up → s.fsm.hasSec = true → s.NotHeldPast → inert (row.take half) →
      exec .upShortHeld s =
        .next { s with
          fsm := { s.fsm with pressTs := none, state := .start, busy := false }
          trace := s.trace ++ [.emit .shortDown, .emit .shortTriggered] }) ∧
    (s.fsm.state = .up → s.fsm.hasSec = false → inert (row.take half) →
      exec .upShortUp s =
        .next { s with
          fsm := { s.fsm with pressTs := none, state := .start, busy := false }
          trace := s.trace ++ [.emit s.cfg.shortUpSymbol.event] })

/-! ### The Config Store -/

/-- R131 and R133: a valid header block. The exact product and the floor are the spec's decisions D18 and D19 (log 20, log 21). -/
def Obligations.HeaderBlockDecodes : Prop :=
  ∀ (s : State) (hb : List Byte), s.cfg.Valid → s.sys.phase = .uninit → hb.length = s.cfg.rowLength →
    let n := (hb.getD 0 0).toNat * (hb.getD 1 0).toNat
    let off := (hb.getD 2 0).toNat + 256 * (hb.getD 3 0).toNat
    0 < n → 1 + n ≤ off →
    ∃ h : Hdr, exec (.header hb) s = .next { s with hdr := h } ∧ h.width = hb.getD 0 0 ∧ h.height = hb.getD 1 0 ∧
      h.offset.toNat = off ∧ h.bdCount = n ∧ h.pageCount.toNat = off / n

/-- R132: a header block with `bd_count = 0` or `offset < 1 + bd_count` raises `Fatal(FormatError)`; the page is not touched. What is
malformed is the spec's decision D20 (log 19); that `hdr.bd_count` keeps its old value is the model's order of writes (log 18). Boot on such
a header: `BootLoadsHeaderAndPageZero`. -/
def Obligations.MalformedHeaderIsFatal : Prop :=
  ∀ (s : State) (hb : List Byte), s.cfg.Valid → s.sys.phase = .uninit → hb.length = s.cfg.rowLength →
    let n := (hb.getD 0 0).toNat * (hb.getD 1 0).toNat
    n = 0 ∨ (hb.getD 2 0).toNat + 256 * (hb.getD 3 0).toNat < 1 + n →
    ∃ t, exec (.header hb) s = .next t ∧ t.sys = { phase := .fatal, cause := some .formatError } ∧
      t.hdr.bdCount = s.hdr.bdCount ∧ t.page = s.page ∧ t.fsm = s.fsm ∧ t.disp = s.disp ∧ t.stream = s.stream ∧
      t.mux = s.mux ∧ t.trace = s.trace

/-- R136: a page load whose calls succeed. Both regions are read in order and the page is replaced; nothing else changes. `page.index` and
the trace are the spec's ghosts (decision D33). -/
def Obligations.LoadPageReplacesPage : Prop :=
  ∀ (s : State) (k : U16), s.Alive → s.work = [] → 0 < s.hdr.bdCount → s.StreamAnswers → s.PageInside k.toNat →
    exec (.loadPage k) s = .next (s.afterLoad k.toNat)

/-- R49, R137 and R138: a page load always answers, and either the whole page is new or none of it and the state is fatal. The fatal state is
the spec's decision D27; that it is a next state is log 7. -/
def Obligations.LoadPageIsAllOrNothing : Prop :=
  ∀ (s : State) (k : U16), s.Alive → s.work = [] → 0 < s.hdr.bdCount →
    ∃ t, exec (.loadPage k) s = .next t ∧ s.SameButPage t ∧ t.mux = s.mux ∧ t.work = [] ∧ t.env.draws = s.env.draws ∧
      (t.sys = s.sys ∧ t.page = (s.afterLoad k.toNat).page ∨
       t.sys.phase = .fatal ∧ t.sys.cause ≠ none ∧ t.page = s.page)

/-- R138 and R42: a page of which some region runs off the end of the blob raises `Fatal(Truncated)`, at the first read that does: the calls
`before` it are made and no later one, and the page stays. That a short read is `Truncated`, and that it leaves the position, is the spec's
decision D22; that no page index is refused beforehand is its decision D19 (log 21). -/
def Obligations.ShortReadIsTruncated : Prop :=
  ∀ (s : State) (k : U16), s.Alive → s.work = [] → 0 < s.hdr.bdCount →
    (s.StreamAnswers → ¬ s.PageInside k.toNat →
      ∃ t, exec (.loadPage k) s = .next t ∧ t.sys = { phase := .fatal, cause := some .truncated } ∧ t.page = s.page) ∧
    ∀ (before after : List TraceRecord) (n : Nat), s.loadCalls k.toNat = before ++ .read n .ok :: after →
      s.Answered (before.length + 1) → ReadsInside s.stream.len s.stream.pos before →
      s.stream.len < positionAfter s.stream.pos before + n →
      exec (.loadPage k) s =
        .next (s.afterFailure before (.read n (.short (s.stream.len - positionAfter s.stream.pos before))) .truncated)

/-- R41, R42, R138 and R197: the first stream call that fails at the device raises its cause, `Fatal(StreamSeek)` for a seek and
`Fatal(StreamRead)` for a read: the calls `before` it are made and no later one, and the page stays. The call is any of a page load's (a seek,
a read of a row, the seek to the images, a read of an image) or the header read of `new`. The position a failed read leaves is the spec's
decision D22; a failure at the device comes before a short read (log 15). -/
def Obligations.StreamFailuresRaiseTheirCause : Prop :=
  (∀ (s : State) (k : U16), s.Alive → s.work = [] → 0 < s.hdr.bdCount →
    ∀ (before after : List TraceRecord) (c : TraceRecord), s.loadCalls k.toNat = before ++ c :: after →
      s.Answered before.length → s.env.stream.nth before.length = false → ReadsInside s.stream.len s.stream.pos before →
      (∀ p ok, c = .seek p ok → exec (.loadPage k) s = .next (s.afterFailure before (.seek p false) .streamSeek)) ∧
      (∀ n r, c = .read n r → exec (.loadPage k) s = .next (s.afterFailure before (.read n .error) .streamRead))) ∧
  (∀ s : State, s.cfg.Valid → s.sys.phase = .uninit → s.work = [] → s.stream.pos = 0 → s.env.stream.nth 0 = false →
    exec .opNew s = .next (s.afterFailure [] (.read s.cfg.rowLength .error) .streamRead))

/-- R130: boot reads the header block, checks it, then loads page 0, and the block is ready. A short header block is `Fatal(Truncated)`; a
malformed header is `Fatal(FormatError)` with no seek made (R132, R197); too many buttons for the multiplexer are refused (U19); a load of
page 0 that raises `Fatal` is the end of the boot. That boot makes no seek before the header is the spec's decision D23 (log 27), a short read
D22, what is malformed D20 (log 19); the place of the refusal is log 22. -/
def Obligations.BootLoadsHeaderAndPageZero : Prop :=
  ∀ s : State, s.cfg.Valid → s.sys.phase = .uninit → s.work = [] → s.stream.pos = 0 → s.env.stream.nth 0 = true →
    let u := s.afterHeader
    let addressable := u.hdr.bdCount ≤ 2 ^ s.cfg.muxAddrWidth
    (s.stream.len < s.cfg.rowLength →
      exec .opNew s = .next (s.afterFailure [] (.read s.cfg.rowLength (.short s.stream.len)) .truncated)) ∧
    (s.cfg.rowLength ≤ s.stream.len → u.hdr.bdCount = 0 ∨ u.hdr.offset.toNat < 1 + u.hdr.bdCount →
      ∃ t, exec .opNew s = .next t ∧ t.sys = { phase := .fatal, cause := some .formatError } ∧ t.trace = u.trace ∧
        t.stream = u.stream ∧ t.page = s.page ∧ t.fsm = s.fsm ∧ t.disp = s.disp ∧ t.mux = s.mux) ∧
    (s.cfg.rowLength ≤ s.stream.len → u.hdr.Decoded →
      (¬ addressable → exec .opNew s = .refused .tooManyButtons) ∧
      (addressable → ∀ t, exec (.loadPage 0) u = .next t →
        (t.sys.phase = .fatal → exec .opNew s = .next t) ∧
        (t.sys.phase = .uninit → exec .opNew s = .next { t with sys := { t.sys with phase := .ready } })) ∧
      (addressable → s.StreamAnswers → u.PageInside 0 →
        exec .opNew s = .next { u.afterLoad 0 with sys := { phase := .ready, cause := s.sys.cause } }) ∧
      (addressable → s.StreamAnswers → ¬ u.PageInside 0 →
        ∃ t, exec .opNew s = .next t ∧ t.sys = { phase := .fatal, cause := some .truncated } ∧ t.page = s.page))

/-- R202: the requests that the rules give no meaning are refused (names: log 14). Parameters that break R4 (U21); an invocation before
boot or with `fsm.busy = 1` (U3); `new` after boot or with a stream that is not at its start (U4); `redraw_all` before boot; a time that
goes back (U2); `elapsed` where the decider needs it and there is no timestamp or a later one (U1, U2; log 37 for a transition executed
alone); more buttons than the multiplexer can address (U19; log 22). (A button index: `ButtonReadsUsePageBuffer`.) -/
def Obligations.MisusedCallsAreRefused : Prop :=
  ∀ s : State,
    (¬ s.cfg.Valid → s.sys.phase ≠ .fatal → ∀ i : Instr, (∀ c, i ≠ .raiseFatal c) → i ≠ .reset →
      exec i s = .refused .badParameters) ∧
    (s.cfg.Valid →
      (s.sys.phase = .uninit → exec .invoke s = .refused .notReady) ∧
      (s.sys.phase = .ready → s.work = [] → s.fsm.busy = true → exec .invoke s = .refused .busy) ∧
      (s.sys.phase = .ready → exec .opNew s = .refused .alreadyBooted) ∧
      (s.sys.phase = .uninit → s.stream.pos ≠ 0 → exec .opNew s = .refused .streamNotAtStart) ∧
      (s.sys.phase = .uninit → exec .redrawAll s = .refused .notReady) ∧
      (s.sys.phase = .uninit → s.stream.pos = 0 → s.env.stream.nth 0 = true → s.cfg.rowLength ≤ s.stream.len →
        s.afterHeader.hdr.Decoded → 2 ^ s.cfg.muxAddrWidth < s.afterHeader.hdr.bdCount →
        exec .opNew s = .refused .tooManyButtons)) ∧
    (s.Open → s.fsm.busy = true → ¬ s.ClockMonotone → exec .evaluate s = .refused .timeWentBack) ∧
    (s.Open → s.fsm.busy = true → s.fsm.hasSec = true → s.fsm.state = .down ∨ s.fsm.state = .up →
      (s.fsm.pressTs = none →
        (s.ClockMonotone → exec .evaluate s = .refused .noTimestamp) ∧
        ∀ t : Transition, exec t.instr s = .refused .noTimestamp) ∧
      (∀ ts, s.fsm.pressTs = some ts → s.env.now < ts → ∀ t : Transition, exec t.instr s = .refused .timeWentBack))

/-! ### The Button Record Decoder -/

/-- R152: `PressKeys`. The keys are the payload bytes before the first zero, or all of them; the goto field is stored one too high. No
zero byte, and keys that run into the goto bytes, are the spec's decisions D24 and D25 (log 28). -/
def Obligations.PressKeysDecodes : Prop :=
  ∀ (s : State) (hi : BitVec 4) (payload : List Byte), s.Alive → payload.length = s.cfg.dataSize →
    ∃ z goto, exec (.slotPressKeys hi payload) s =
        .next { s with ret := some (.function (.pressKeys (payload.take z) goto)) } ∧
      z ≤ payload.length ∧ (∀ j < z, payload.getD j 0 ≠ 0) ∧ (z < payload.length → payload.getD z 0 = 0) ∧
      (let g := (payload.getD (s.cfg.dataSize - 3) 0).toNat + 256 * (payload.getD (s.cfg.dataSize - 2) 0).toNat
       (g = 0 → goto = none) ∧ (0 < g → ∃ p : U16, goto = some p ∧ p.toNat = g - 1))

/-- R153: `ChangePage`. -/
def Obligations.ChangePageDecodes : Prop :=
  ∀ (s : State) (hi : BitVec 4) (payload : List Byte), s.Alive → payload.length = s.cfg.dataSize →
    ∃ t : U16, exec (.slotChangePage hi payload) s = .next { s with ret := some (.function (.changePage t)) } ∧
      t.toNat = (payload.getD 0 0).toNat + 256 * (payload.getD 1 0).toNat

/-- R154 to R159: the variants without fields, and the two ways to `None`, whatever the payload and the high nibble. -/
def Obligations.TagVariantsDecode : Prop :=
  ∀ (s : State) (hi : BitVec 4) (payload : List Byte), s.Alive → payload.length = s.cfg.dataSize →
    exec (.slotPressSpecialKey hi payload) s = .next { s with ret := some (.function .pressSpecialKey) } ∧
    exec (.slotSendText hi payload) s = .next { s with ret := some (.function .sendText) } ∧
    exec (.slotSetSetting hi payload) s = .next { s with ret := some (.function .setSetting) } ∧
    exec (.slotCommunicateToHost hi payload) s = .next { s with ret := some (.function .communicateToHost) } ∧
    exec (.slotNoFunction hi payload) s = .next { s with ret := some (.function .noFunction) } ∧
    (∀ c, (∀ code ∈ s.cfg.modeCodes, code.toNat ≠ c.toNat) →
      exec (.slotUnknownLow hi c payload) s = .next { s with ret := some (.function .noFunction) }) ∧
    (∀ c, (∀ code ∈ s.cfg.modeCodes, code.toNat ≠ 8 + c.toNat) →
      exec (.slotUnknownHigh hi c payload) s = .next { s with ret := some (.function .noFunction) })

/-- R151: two mode bytes with the same low nibble decode alike, whatever their high nibbles. -/
def Obligations.HighNibbleIsIgnored : Prop :=
  ∀ (p : Params) (m m' : Byte) (payload : List Byte), m.toNat % 16 = m'.toNat % 16 →
    functionOfSlot p (m :: payload) = functionOfSlot p (m' :: payload)

/-- R150: the low nibble of the mode byte selects one of the seven variants, and any other code is the unknown one. What the Dispatcher
decodes from a slot (`functionOfSlot`) is what the operation that the slot's bytes are returns. The numbers of six codes are parameters
(the spec's decision D5). -/
def Obligations.SlotDecodeAgreesWithOperations : Prop :=
  ∀ (s : State) (mode : Byte) (payload : List Byte), s.Alive → payload.length = s.cfg.dataSize →
    let code := mode.extractLsb' 0 4
    let hi := mode.extractLsb' 4 4
    let selects : Instr → Prop := fun i =>
      decode s.cfg ⟨.slot, mode :: payload⟩ = .ok i ∧
        exec i s = .next { s with ret := some (.function (functionOfSlot s.cfg (mode :: payload))) }
    (code = s.cfg.modePressKeys → selects (.slotPressKeys hi payload)) ∧
    (code = 1 → selects (.slotChangePage hi payload)) ∧
    (code = s.cfg.modePressSpecialKey → selects (.slotPressSpecialKey hi payload)) ∧
    (code = s.cfg.modeSendText → selects (.slotSendText hi payload)) ∧
    (code = s.cfg.modeSetSetting → selects (.slotSetSetting hi payload)) ∧
    (code = s.cfg.modeCommunicateToHost → selects (.slotCommunicateToHost hi payload)) ∧
    (code = s.cfg.modeNoFunction → selects (.slotNoFunction hi payload)) ∧
    (code ∉ s.cfg.modeCodes →
      selects (.slotUnknownLow hi (code.extractLsb' 0 3) payload) ∨ selects (.slotUnknownHigh hi (code.extractLsb' 0 3) payload))

/-- R160: `has_secondary_function` is false exactly for the reserved code as a whole byte. -/
def Obligations.HasSecondaryComparesWholeByte : Prop :=
  ∀ (s : State) (mode : Byte), s.Alive →
    exec (.hasSecondary mode) s = .next { s with ret := some (.flag (decide (mode.toNat ≠ s.cfg.modeNoFunction.toNat))) }

/-- R150: a raw row decodes into the functions of its two halves. -/
def Obligations.RowDecodesBothSlots : Prop :=
  ∀ (s : State) (primary secondary : List Byte), s.Alive → primary.length = s.cfg.rowLength / 2 →
    secondary.length = s.cfg.rowLength / 2 →
    exec (.row (primary ++ secondary)) s =
      .next { s with ret := some (.functions (functionOfSlot s.cfg primary) (functionOfSlot s.cfg secondary)) }

/-- R141, R150 and R162: the function of a button and its liveness are read from the current page; an index from `bd_count` on is refused.
Live means exactly 1 by the spec's decision D26 (log 29). -/
def Obligations.ButtonReadsUsePageBuffer : Prop :=
  ∀ (s : State) (button : U16), s.Open → s.page.Holds s.cfg s.hdr.bdCount →
    (∀ row, s.page.rows[button.toNat]? = some row →
      exec (.slotFunction .primary button) s =
        .next { s with ret := some (.function (functionOfSlot s.cfg (row.take (s.cfg.rowLength / 2)))) } ∧
      exec (.slotFunction .secondary button) s =
        .next { s with ret := some (.function (functionOfSlot s.cfg (row.drop (s.cfg.rowLength / 2)))) }) ∧
    (∀ b frame, s.page.imgs[button.toNat]? = some (b :: frame) →
      exec (.isLive button) s = .next { s with ret := some (.flag (decide (b = 1))) }) ∧
    (s.hdr.bdCount ≤ button.toNat →
      (∀ slot, exec (.slotFunction slot button) s = .refused .buttonIndex) ∧ exec (.isLive button) s = .refused .buttonIndex)

/-- R161 and R162: a raw image block. Live means exactly 1 by the spec's decision D26 (log 29). -/
def Obligations.ImageBlockDecodes : Prop :=
  ∀ (s : State) (b : Byte) (frame : List Byte), s.Alive → (b :: frame).length = s.cfg.imageLength →
    exec (.image (b :: frame)) s = .next { s with ret := some (.image (decide (b = 1)) frame) }

/-! ### The Dispatcher -/

/-- R171: the action on `Idle`. The address is the spec's decision D16 (log 26). -/
def Obligations.IdleAdvancesCursor : Prop :=
  ∀ s : State, s.Open → 0 < s.hdr.bdCount →
    exec .eventIdle s =
      .next { s with
        disp := { cursor := (s.disp.cursor + 1) % s.hdr.bdCount }
        mux := { addr := (s.disp.cursor + 1) % s.hdr.bdCount }
        trace := s.trace ++ [.setAddress ((s.disp.cursor + 1) % s.hdr.bdCount)] }

/-- R172 to R176: `ShortDown`, `ShortUp` and `ShortTriggered` decode the primary function of the button under the cursor, `LongTriggered`
the secondary one. A `ChangePage` changes the page; any other function has no effect at all. The button is the cursor's by the spec's
decision D15 (log 26); other functions do nothing by its decision D36 (log 31). -/
def Obligations.EventsActOnDecodedFunction : Prop :=
  ∀ (s : State) (row : List Byte) (e : Event), s.Open → s.PageLoaded → s.page.rows[s.disp.cursor]? = some row → e ≠ .idle →
    let half := s.cfg.rowLength / 2
    let f := functionOfSlot s.cfg (if e = .longTriggered then row.drop half else row.take half)
    (∀ t, f = .changePage t → exec e.instr s = exec (.changePage t) s) ∧
    ((∀ t, f ≠ .changePage t) → exec e.instr s = .next s)

/-- R177: the page change is the load, then the redraw; where the load raises `Fatal` there is no redraw. -/
def Obligations.ChangePageLoadsThenRedraws : Prop :=
  ∀ (s t : State) (k : U16), s.Open → exec (.loadPage k) s = .next t →
    (t.sys.phase = .fatal → exec (.changePage k) s = .next t) ∧
    (t.sys.phase = .ready → exec (.changePage k) s = exec .redrawAll t)

/-- R177: a page change in which every call succeeds: the new page, every button drawn, the cursor and the FSM as before. That the
multiplexer stays at the last button is the spec's decision D17 (log 26). -/
def Obligations.ChangePageShowsNewPage : Prop :=
  ∀ (s : State) (k : U16), s.Open → 0 < s.hdr.bdCount → s.StreamAnswers → s.PageInside k.toNat → s.DrawsSucceed →
    exec (.changePage k) s = .next (s.afterLoad k.toNat).afterRedraw

/-- The four events that decode a function, the page change and the redraw complete on a loaded page: they answer a next state, leave the
FSM, header, cursor and blob alone, and end ready, fatal, or waiting at the draw of one button for a display whose answers are used up and
which keeps failing (R170, R177, R179; a raise that is a next state is log 7, the waiting log 9). -/
def Obligations.DispatcherOperationsComplete : Prop :=
  ∀ (s : State) (i : Instr), s.Open → s.PageLoaded →
    (i = .eventShortDown ∨ i = .eventShortUp ∨ i = .eventShortTriggered ∨ i = .eventLongTriggered ∨ i = .redrawAll ∨
      ∃ k, i = .changePage k) →
    ∃ t, exec i s = .next t ∧ s.SameButPage t ∧
      (t.sys.phase = .ready ∧ t.work = [] ∨
       t.sys.phase = .ready ∧ t.env.draws = { queue := [], rest := false } ∧ (∃ a < s.hdr.bdCount, t.work = [.retry a]) ∨
       t.sys.phase = .fatal ∧ t.work = [])

/-- R178: a redraw in which every draw succeeds draws every button once, in ascending order, and leaves the multiplexer at the last. That
the multiplexer is not restored is the spec's decision D17 (log 26). -/
def Obligations.RedrawDrawsEveryButtonInOrder : Prop :=
  ∀ s : State, s.Open → 0 < s.hdr.bdCount → s.page.Holds s.cfg s.hdr.bdCount → s.DrawsSucceed →
    exec .redrawAll s = .next s.afterRedraw

/-- R179: failed draws are tried again without limit, and a display that comes round is drawn completely. Button after button, the trace has
the address once, then the failed attempts, all of that button's frame, then its success (`State.retryTrace`); the numbers `fails` of failed
attempts are those of the display's answers. The same for a redraw that waits at the draw of button `a` (log 9): the step draws it without
setting the address again and goes on with the buttons after it, then with the end of the transition that waited, if one did. That the
address is not set again is the spec's decision D32 (log 30), that the multiplexer stays at the last button its decision D17 (log 26). -/
def Obligations.RedrawRetriesUntilSuccess : Prop :=
  ∀ s : State, s.page.Holds s.cfg s.hdr.bdCount →
    let comesRound : Nat → Prop := fun n => s.env.draws.rest = true ∨ n ≤ s.env.draws.queue.count true
    let used : List Nat → List Bool → Prop := fun fails queue =>
      ∃ extra, answersUsed fails ++ queue = s.env.draws.queue ++ List.replicate extra true ∧
        (extra = 0 ∨ s.env.draws.rest = true ∧ queue = [])
    (s.Open → 0 < s.hdr.bdCount → comesRound s.hdr.bdCount →
      ∃ fails queue, fails.length = s.hdr.bdCount ∧ used fails queue ∧
        exec .redrawAll s =
          .next { s with
            mux := { addr := s.hdr.bdCount - 1 }
            trace := s.trace ++ s.retryTrace 0 fails
            env := { s.env with draws := { s.env.draws with queue := queue } } }) ∧
    (∀ (a : Nat) (later : List Task), s.sys.phase = .ready → s.cfg.Valid → resetWaits s = false → s.work = .retry a :: later →
      later = [] ∨ later = [.finish] → a < s.hdr.bdCount → comesRound (s.hdr.bdCount - a) →
      ∃ n fails queue, fails.length = s.hdr.bdCount - (a + 1) ∧ used (n :: fails) queue ∧
        step s =
          .next { s with
            fsm := if later = [] then s.fsm else { s.fsm with pressTs := none, state := .start, busy := false }
            mux := if a + 1 = s.hdr.bdCount then s.mux else { addr := s.hdr.bdCount - 1 }
            trace :=
              s.trace ++ List.replicate n (.draw (s.frameOf a) false) ++ .draw (s.frameOf a) true :: s.retryTrace (a + 1) fails
            env := { s.env with draws := { s.env.draws with queue := queue } }
            work := [] })

/-- R179 and R235: a display that keeps failing hangs the block. A redraw whose draws stop succeeding stops at the button whose draw does not
succeed, which is the one whose number is that of the successes to come: the buttons before it are drawn, its address is set, its frame fails,
and its draw is what is left to do. Each further step is one more failed draw of the same frame, and nothing else changes. That only the draw
is repeated is the spec's decision D32 (log 30); where a step ends and that one attempt is one step is log 9. -/
def Obligations.FailingDisplayHangsBlock : Prop :=
  ∀ s : State, s.cfg.Valid → s.page.Holds s.cfg s.hdr.bdCount →
    (s.Open → s.env.draws.rest = false → s.env.draws.queue.count true < s.hdr.bdCount →
      let a := s.env.draws.queue.count true
      ∃ fails n, fails.length = a ∧ s.env.draws.queue = answersUsed fails ++ List.replicate n false ∧
        exec .redrawAll s =
          .next { s with
            mux := { addr := a }
            trace := s.trace ++ s.retryTrace 0 fails ++ .setAddress a :: List.replicate (n + 1) (.draw (s.frameOf a) false)
            env := { s.env with draws := { queue := [], rest := false } }
            work := [.retry a] }) ∧
    (∀ (a : Nat) (img : List Byte) (rest : List Task), s.sys.phase = .ready → s.work = .retry a :: rest →
      s.env.draws = { queue := [], rest := false } → s.page.imgs[a]? = some img → resetWaits s = false →
      step s = .next { s with trace := s.trace ++ [.draw (img.drop 1) false] })

/-! ### Encodings and the step -/

/-- R82 to R85, R73 and R76: words written out bit by bit from the spec's tables decode to their operations (slot codes: defaults of log
2). The bit patterns are the spec's decision D30. -/
def Obligations.WordsDecodeAsTabled : Prop :=
  decode Params.default ⟨.decider, [0b00000000]⟩ = .ok .startIsUp ∧
  decode Params.default ⟨.decider, [0b00001011]⟩ = .ok .downHeldLong ∧
  decode Params.default ⟨.decider, [0b00011001]⟩ = .ok .upShortUp ∧
  decode Params.default ⟨.slot, [0x21, 5, 0, 0, 0, 0, 0, 0]⟩ = .ok (.slotChangePage 2 [5, 0, 0, 0, 0, 0, 0]) ∧
  decode Params.default ⟨.event, [0b100]⟩ = .ok .eventLongTriggered ∧
  decode Params.default ⟨.event, [0b101]⟩ = .error .eventReserved

/-- Decoding the words of a well-formed operation gives it back, for every operand at every value (30_encoding.md). The numbers of calls
that the spec gives no encoding are the model's (log 10). -/
def Obligations.DecodeInvertsEncode : Prop :=
  ∀ (p : Params) (i : Instr), p.Valid → i.WellFormed p = true → decode p (encode p i) = .ok i

/-- Whatever bytes decode, the operation is well formed, and outside the decider format (whose don't-care bits an operation does not hold)
its words are those bytes again: no two byte strings mean the same operation (30_encoding.md). The numbers of calls are the model's (log
10). -/
def Obligations.EncodeInvertsDecode : Prop :=
  ∀ (p : Params) (w : OpWord) (i : Instr), p.Valid → decode p w = .ok i →
    i.WellFormed p = true ∧ (w.format ≠ .decider → encode p i = w)

/-- Between invocations a step serves the oldest waiting call: it is `exec` of the operation that the bytes decode to, the call taken off
the list (log 10). With none waiting the block boots, then invokes (R221; log 8). -/
def Obligations.StepRunsDecodedOperation : Prop :=
  ∀ s : State, s.sys.phase ≠ .fatal → s.work = [] → s.fsm.busy = false →
    (∀ w rest i, s.calls = w :: rest → decode s.cfg w = .ok i → step s = exec i { s with calls := rest }) ∧
    (s.calls = [] → s.sys.phase = .uninit → step s = exec .opNew s) ∧
    (s.calls = [] → s.sys.phase = .ready → step s = exec .invoke s)

/-- A step of a busy block is `exec` of the transition that the decider word of the fresh sample decodes to (R101). What a sample is, is
the spec's decision D13. -/
def Obligations.StepRunsSelectedTransition : Prop :=
  ∀ s t : State, s.Open → s.fsm.busy = true → resetWaits s = false → s.sample = .ok t →
    decode s.cfg ⟨.decider, [t.deciderWord.setWidth 8]⟩ = .ok (decodeDecider t.deciderWord).instr ∧
    step s = exec (decodeDecider t.deciderWord).instr t

/-! ### The whole machine -/

/-- The state after reset meets the invariant. It rests on the reset values of R33, which are the spec's decision D28, on the empty header
of log 5 (a `bd_count` of 0 counts as no header yet) and on the valid example parameters of log 1. -/
def Obligations.ResetMeetsInvariant : Prop := State.reset.Inv

/-- Every step keeps the invariant: the parameters and the blob's form, one valid header, a whole page, the cursor on a button, and the
FSM between or inside invocations (R25, R49, R116, R117, R132). -/
def Obligations.StepKeepsInvariant : Prop := ∀ s t : State, s.Inv → step s = .next t → t.Inv

/-- A booted block never gets stuck: in a good state with no waiting calls and a clock that does not go back, every step answers a next
state (R101, R230, R235). That needs no premise on the draws (R235) only because one failed draw is one step (log 9), and a raise of `Fatal`
is a next state (log 7). -/
def Obligations.ReadyBlockNeverStops : Prop :=
  ∀ s : State, s.Inv → s.sys.phase = .ready → s.calls = [] → s.ClockMonotone → ∃ t, step s = .next t

/-- R48 and R31: no step writes the blob or changes the parameters. -/
def Obligations.StepNeverWritesStreamOrParameters : Prop :=
  ∀ s t : State, step s = .next t → t.stream.blob = s.stream.blob ∧ t.stream.len = s.stream.len ∧ t.cfg = s.cfg

/-- R60: after boot the header registers are constant, until a reset. -/
def Obligations.HeaderConstantAfterBoot : Prop :=
  ∀ s t : State, s.sys.phase = .ready → step s = .next t → resetWaits s = false → t.hdr = s.hdr

/-- R224: the cursor moves only on `Idle`: a step that moves it (and is no reset) took a released pin in `Start`, or served an `Idle`
event that waited (log 10). (The invariant rules out states with an `Idle` left over from an earlier step.) -/
def Obligations.CursorMovesOnlyOnIdle : Prop :=
  ∀ s t : State, s.Inv → step s = .next t → resetWaits s = false → s.disp.cursor ≠ t.disp.cursor →
    (s.fsm.busy = true ∧ s.fsm.state = .start ∧ s.env.pins.take.1 ≠ .low ∧ t.fsm.busy = false) ∨
    (∃ w rest, s.calls = w :: rest ∧ decode s.cfg w = .ok .eventIdle)

/-- R14: within an invocation the secondary flag keeps the value latched at its start. The latch is the spec's decision D9 (log 25). -/
def Obligations.SecondaryFlagLatchedForInvocation : Prop :=
  ∀ s t : State, s.fsm.busy = true → step s = .next t → resetWaits s = false → t.fsm.hasSec = s.fsm.hasSec

/-- R230: a held button blocks everything. While the pin reads low, an evaluation in `Start`, `Down` or `DownButWaiting` does not end the
invocation: the FSM is then in `Down` or `DownButWaiting` and busy, no `Idle` is emitted and the cursor does not move. (In `Up` the press is
over, and the pin is not read. The invariant rules out states in which the time of the press is missing.) In `DownButWaiting`, and in `Down`
on a button without a secondary function, nothing changes at all beyond the pin read. An action of the step that waits for the display (log
9) or raised `Fatal` (log 7) is a next state. -/
def Obligations.HeldButtonBlocksBlock : Prop :=
  ∀ s : State, s.Open → s.fsm.busy = true → s.fsm.state ≠ .up → s.ClockMonotone → s.env.pins.take.1 = .low →
    resetWaits s = false →
    (s.fsm.state = .downButWaiting ∨ s.fsm.state = .down ∧ s.fsm.hasSec = false →
      ∃ t, step s = .next t ∧ t.fsm = s.fsm ∧ t.disp = s.disp ∧ t.page = s.page ∧ t.mux = s.mux ∧ t.work = [] ∧
        t.trace = s.trace ++ [.pinRead .low]) ∧
    (s.Inv →
      ∃ t added, step s = .next t ∧ t.trace = s.trace ++ .pinRead .low :: added ∧ .idle ∉ eventsOf added ∧
        t.fsm.busy = true ∧ (t.fsm.state = .down ∨ t.fsm.state = .downButWaiting) ∧ t.disp = s.disp ∧ t.hdr = s.hdr)

/-- R117: after a long press the invocation ends by `Released` and `UpAfterLong`, without a further event. -/
def Obligations.LongPressEndsSilently : Prop :=
  ∀ s : State, s.Inv → s.Open → s.fsm.busy = true → s.fsm.state = .downButWaiting → s.ClockMonotone →
    s.env.pins.take.1 ≠ .low → resetWaits s = false →
    ∃ t, step s = .next t ∧ t.fsm.state = .up ∧ t.trace = s.trace ++ [.pinRead s.env.pins.take.1] ∧
      (t.ClockMonotone →
        ∃ u, step t = .next u ∧ u.fsm = { s.fsm with pressTs := none, state := .start, busy := false } ∧
          u.trace = t.trace ∧ u.disp = s.disp)
end

