-- ==== Sys2Proof/Laws/State.lean ====
section
/-! SUPPORT. One lemma for each field of the state under each named update, true by `rfl`, so that no proof unfolds an update. -/

namespace Sys2Proof.Machine

/-! ### `record` -/

@[simp] theorem State.record_fsm (s : State) (r : TraceRecord) : (s.record r).fsm = s.fsm := rfl
@[simp] theorem State.record_hdr (s : State) (r : TraceRecord) : (s.record r).hdr = s.hdr := rfl
@[simp] theorem State.record_page (s : State) (r : TraceRecord) : (s.record r).page = s.page := rfl
@[simp] theorem State.record_disp (s : State) (r : TraceRecord) : (s.record r).disp = s.disp := rfl
@[simp] theorem State.record_sys (s : State) (r : TraceRecord) : (s.record r).sys = s.sys := rfl
@[simp] theorem State.record_stream (s : State) (r : TraceRecord) : (s.record r).stream = s.stream := rfl
@[simp] theorem State.record_mux (s : State) (r : TraceRecord) : (s.record r).mux = s.mux := rfl
@[simp] theorem State.record_trace (s : State) (r : TraceRecord) : (s.record r).trace = s.trace ++ [r] := rfl
@[simp] theorem State.record_cfg (s : State) (r : TraceRecord) : (s.record r).cfg = s.cfg := rfl
@[simp] theorem State.record_env (s : State) (r : TraceRecord) : (s.record r).env = s.env := rfl
@[simp] theorem State.record_calls (s : State) (r : TraceRecord) : (s.record r).calls = s.calls := rfl
@[simp] theorem State.record_work (s : State) (r : TraceRecord) : (s.record r).work = s.work := rfl
@[simp] theorem State.record_ret (s : State) (r : TraceRecord) : (s.record r).ret = s.ret := rfl

/-! ### `setAddress` -/

@[simp] theorem State.setAddress_fsm (s : State) (a : Nat) : (s.setAddress a).fsm = s.fsm := rfl
@[simp] theorem State.setAddress_hdr (s : State) (a : Nat) : (s.setAddress a).hdr = s.hdr := rfl
@[simp] theorem State.setAddress_page (s : State) (a : Nat) : (s.setAddress a).page = s.page := rfl
@[simp] theorem State.setAddress_disp (s : State) (a : Nat) : (s.setAddress a).disp = s.disp := rfl
@[simp] theorem State.setAddress_sys (s : State) (a : Nat) : (s.setAddress a).sys = s.sys := rfl
@[simp] theorem State.setAddress_stream (s : State) (a : Nat) : (s.setAddress a).stream = s.stream := rfl
@[simp] theorem State.setAddress_mux (s : State) (a : Nat) : (s.setAddress a).mux = { addr := a } := rfl
@[simp] theorem State.setAddress_trace (s : State) (a : Nat) : (s.setAddress a).trace = s.trace ++ [.setAddress a] := rfl
@[simp] theorem State.setAddress_cfg (s : State) (a : Nat) : (s.setAddress a).cfg = s.cfg := rfl
@[simp] theorem State.setAddress_env (s : State) (a : Nat) : (s.setAddress a).env = s.env := rfl
@[simp] theorem State.setAddress_calls (s : State) (a : Nat) : (s.setAddress a).calls = s.calls := rfl
@[simp] theorem State.setAddress_work (s : State) (a : Nat) : (s.setAddress a).work = s.work := rfl
@[simp] theorem State.setAddress_ret (s : State) (a : Nat) : (s.setAddress a).ret = s.ret := rfl

/-! ### `raiseFatal` -/

@[simp] theorem State.raiseFatal_fsm (s : State) (c : Cause) : (s.raiseFatal c).fsm = s.fsm := rfl
@[simp] theorem State.raiseFatal_hdr (s : State) (c : Cause) : (s.raiseFatal c).hdr = s.hdr := rfl
@[simp] theorem State.raiseFatal_page (s : State) (c : Cause) : (s.raiseFatal c).page = s.page := rfl
@[simp] theorem State.raiseFatal_disp (s : State) (c : Cause) : (s.raiseFatal c).disp = s.disp := rfl
@[simp] theorem State.raiseFatal_sys (s : State) (c : Cause) : (s.raiseFatal c).sys = { phase := .fatal, cause := if s.sys.phase = .fatal then s.sys.cause else some c } := rfl
@[simp] theorem State.raiseFatal_stream (s : State) (c : Cause) : (s.raiseFatal c).stream = s.stream := rfl
@[simp] theorem State.raiseFatal_mux (s : State) (c : Cause) : (s.raiseFatal c).mux = s.mux := rfl
@[simp] theorem State.raiseFatal_trace (s : State) (c : Cause) : (s.raiseFatal c).trace = s.trace := rfl
@[simp] theorem State.raiseFatal_cfg (s : State) (c : Cause) : (s.raiseFatal c).cfg = s.cfg := rfl
@[simp] theorem State.raiseFatal_env (s : State) (c : Cause) : (s.raiseFatal c).env = s.env := rfl
@[simp] theorem State.raiseFatal_calls (s : State) (c : Cause) : (s.raiseFatal c).calls = s.calls := rfl
@[simp] theorem State.raiseFatal_work (s : State) (c : Cause) : (s.raiseFatal c).work = [] := rfl
@[simp] theorem State.raiseFatal_ret (s : State) (c : Cause) : (s.raiseFatal c).ret = s.ret := rfl

/-! ### `resetBlock` -/

@[simp] theorem State.resetBlock_fsm (s : State) : (s.resetBlock).fsm = State.reset.fsm := rfl
@[simp] theorem State.resetBlock_hdr (s : State) : (s.resetBlock).hdr = State.reset.hdr := rfl
@[simp] theorem State.resetBlock_page (s : State) : (s.resetBlock).page = State.reset.page := rfl
@[simp] theorem State.resetBlock_disp (s : State) : (s.resetBlock).disp = State.reset.disp := rfl
@[simp] theorem State.resetBlock_sys (s : State) : (s.resetBlock).sys = State.reset.sys := rfl
@[simp] theorem State.resetBlock_stream (s : State) : (s.resetBlock).stream = { blob := s.stream.blob, len := s.stream.len, pos := 0 } := rfl
@[simp] theorem State.resetBlock_mux (s : State) : (s.resetBlock).mux = State.reset.mux := rfl
@[simp] theorem State.resetBlock_trace (s : State) : (s.resetBlock).trace = State.reset.trace := rfl
@[simp] theorem State.resetBlock_cfg (s : State) : (s.resetBlock).cfg = s.cfg := rfl
@[simp] theorem State.resetBlock_env (s : State) : (s.resetBlock).env = s.env := rfl
@[simp] theorem State.resetBlock_calls (s : State) : (s.resetBlock).calls = s.calls := rfl
@[simp] theorem State.resetBlock_work (s : State) : (s.resetBlock).work = State.reset.work := rfl
@[simp] theorem State.resetBlock_ret (s : State) : (s.resetBlock).ret = State.reset.ret := rfl

/-! ### `drawOnce` -/

@[simp] theorem State.drawOnce_fsm (s : State) (f : List Byte) (ok : Bool) (q : List Bool) : (s.drawOnce f ok q).fsm = s.fsm := rfl
@[simp] theorem State.drawOnce_hdr (s : State) (f : List Byte) (ok : Bool) (q : List Bool) : (s.drawOnce f ok q).hdr = s.hdr := rfl
@[simp] theorem State.drawOnce_page (s : State) (f : List Byte) (ok : Bool) (q : List Bool) : (s.drawOnce f ok q).page = s.page := rfl
@[simp] theorem State.drawOnce_disp (s : State) (f : List Byte) (ok : Bool) (q : List Bool) : (s.drawOnce f ok q).disp = s.disp := rfl
@[simp] theorem State.drawOnce_sys (s : State) (f : List Byte) (ok : Bool) (q : List Bool) : (s.drawOnce f ok q).sys = s.sys := rfl
@[simp] theorem State.drawOnce_stream (s : State) (f : List Byte) (ok : Bool) (q : List Bool) : (s.drawOnce f ok q).stream = s.stream := rfl
@[simp] theorem State.drawOnce_mux (s : State) (f : List Byte) (ok : Bool) (q : List Bool) : (s.drawOnce f ok q).mux = s.mux := rfl
@[simp] theorem State.drawOnce_trace (s : State) (f : List Byte) (ok : Bool) (q : List Bool) : (s.drawOnce f ok q).trace = s.trace ++ [.draw f ok] := rfl
@[simp] theorem State.drawOnce_cfg (s : State) (f : List Byte) (ok : Bool) (q : List Bool) : (s.drawOnce f ok q).cfg = s.cfg := rfl
@[simp] theorem State.drawOnce_env (s : State) (f : List Byte) (ok : Bool) (q : List Bool) : (s.drawOnce f ok q).env = { s.env with draws := { s.env.draws with queue := q } } := rfl
@[simp] theorem State.drawOnce_calls (s : State) (f : List Byte) (ok : Bool) (q : List Bool) : (s.drawOnce f ok q).calls = s.calls := rfl
@[simp] theorem State.drawOnce_work (s : State) (f : List Byte) (ok : Bool) (q : List Bool) : (s.drawOnce f ok q).work = s.work := rfl
@[simp] theorem State.drawOnce_ret (s : State) (f : List Byte) (ok : Bool) (q : List Bool) : (s.drawOnce f ok q).ret = s.ret := rfl

/-! ### `finish` -/

@[simp] theorem State.finish_fsm (s : State) : (s.finish).fsm = { s.fsm with pressTs := none, state := .start, busy := false } := rfl
@[simp] theorem State.finish_hdr (s : State) : (s.finish).hdr = s.hdr := rfl
@[simp] theorem State.finish_page (s : State) : (s.finish).page = s.page := rfl
@[simp] theorem State.finish_disp (s : State) : (s.finish).disp = s.disp := rfl
@[simp] theorem State.finish_sys (s : State) : (s.finish).sys = s.sys := rfl
@[simp] theorem State.finish_stream (s : State) : (s.finish).stream = s.stream := rfl
@[simp] theorem State.finish_mux (s : State) : (s.finish).mux = s.mux := rfl
@[simp] theorem State.finish_trace (s : State) : (s.finish).trace = s.trace := rfl
@[simp] theorem State.finish_cfg (s : State) : (s.finish).cfg = s.cfg := rfl
@[simp] theorem State.finish_env (s : State) : (s.finish).env = s.env := rfl
@[simp] theorem State.finish_calls (s : State) : (s.finish).calls = s.calls := rfl
@[simp] theorem State.finish_work (s : State) : (s.finish).work = s.work := rfl
@[simp] theorem State.finish_ret (s : State) : (s.finish).ret = s.ret := rfl

/-! ### `setReady` -/

@[simp] theorem State.setReady_fsm (s : State) : (s.setReady).fsm = s.fsm := rfl
@[simp] theorem State.setReady_hdr (s : State) : (s.setReady).hdr = s.hdr := rfl
@[simp] theorem State.setReady_page (s : State) : (s.setReady).page = s.page := rfl
@[simp] theorem State.setReady_disp (s : State) : (s.setReady).disp = s.disp := rfl
@[simp] theorem State.setReady_sys (s : State) : (s.setReady).sys = { s.sys with phase := .ready } := rfl
@[simp] theorem State.setReady_stream (s : State) : (s.setReady).stream = s.stream := rfl
@[simp] theorem State.setReady_mux (s : State) : (s.setReady).mux = s.mux := rfl
@[simp] theorem State.setReady_trace (s : State) : (s.setReady).trace = s.trace := rfl
@[simp] theorem State.setReady_cfg (s : State) : (s.setReady).cfg = s.cfg := rfl
@[simp] theorem State.setReady_env (s : State) : (s.setReady).env = s.env := rfl
@[simp] theorem State.setReady_calls (s : State) : (s.setReady).calls = s.calls := rfl
@[simp] theorem State.setReady_work (s : State) : (s.setReady).work = s.work := rfl
@[simp] theorem State.setReady_ret (s : State) : (s.setReady).ret = s.ret := rfl

/-! ### `readPin` -/

@[simp] theorem State.readPin_fsm (s : State) : (s.readPin).fsm = s.fsm := rfl
@[simp] theorem State.readPin_hdr (s : State) : (s.readPin).hdr = s.hdr := rfl
@[simp] theorem State.readPin_page (s : State) : (s.readPin).page = s.page := rfl
@[simp] theorem State.readPin_disp (s : State) : (s.readPin).disp = s.disp := rfl
@[simp] theorem State.readPin_sys (s : State) : (s.readPin).sys = s.sys := rfl
@[simp] theorem State.readPin_stream (s : State) : (s.readPin).stream = s.stream := rfl
@[simp] theorem State.readPin_mux (s : State) : (s.readPin).mux = s.mux := rfl
@[simp] theorem State.readPin_trace (s : State) : (s.readPin).trace = s.trace ++ [.pinRead s.env.pins.take.1] := rfl
@[simp] theorem State.readPin_cfg (s : State) : (s.readPin).cfg = s.cfg := rfl
@[simp] theorem State.readPin_env (s : State) : (s.readPin).env = { s.env with pins := s.env.pins.take.2, pin := s.env.pins.take.1 } := rfl
@[simp] theorem State.readPin_calls (s : State) : (s.readPin).calls = s.calls := rfl
@[simp] theorem State.readPin_work (s : State) : (s.readPin).work = s.work := rfl
@[simp] theorem State.readPin_ret (s : State) : (s.readPin).ret = s.ret := rfl

/-! ### `readClock` -/

@[simp] theorem State.readClock_fsm (s : State) : (s.readClock).fsm = s.fsm := rfl
@[simp] theorem State.readClock_hdr (s : State) : (s.readClock).hdr = s.hdr := rfl
@[simp] theorem State.readClock_page (s : State) : (s.readClock).page = s.page := rfl
@[simp] theorem State.readClock_disp (s : State) : (s.readClock).disp = s.disp := rfl
@[simp] theorem State.readClock_sys (s : State) : (s.readClock).sys = s.sys := rfl
@[simp] theorem State.readClock_stream (s : State) : (s.readClock).stream = s.stream := rfl
@[simp] theorem State.readClock_mux (s : State) : (s.readClock).mux = s.mux := rfl
@[simp] theorem State.readClock_trace (s : State) : (s.readClock).trace = s.trace := rfl
@[simp] theorem State.readClock_cfg (s : State) : (s.readClock).cfg = s.cfg := rfl
@[simp] theorem State.readClock_env (s : State) : (s.readClock).env = { s.env with clock := (s.env.clock.take s.env.now).2, now := (s.env.clock.take s.env.now).1 } := rfl
@[simp] theorem State.readClock_calls (s : State) : (s.readClock).calls = s.calls := rfl
@[simp] theorem State.readClock_work (s : State) : (s.readClock).work = s.work := rfl
@[simp] theorem State.readClock_ret (s : State) : (s.readClock).ret = s.ret := rfl

end Sys2Proof.Machine
end

