-- ==== Sys2Proof/Laws/Guards.lean ====
section
/-! SUPPORT. What each guard lets through, and what the decider word of a state selects. -/

namespace Sys2Proof

theorem Params.valid_iff {p : Params} :
    p.Valid ↔ p.rowLength % 2 = 0 ∧ 8 ≤ p.rowLength ∧ 1 ≤ p.imageLength ∧ p.modeCodes.Nodup := by
  show p.valid = true ↔ _
  simp [Params.valid, and_assoc]

/-- The two halves of a row (R164). -/
theorem Params.Valid.half {p : Params} (h : p.Valid) : p.dataSize + 1 = p.rowLength / 2 := by
  have := Params.valid_iff.mp h
  unfold Params.dataSize
  omega

end Sys2Proof

namespace Sys2Proof.Machine

theorem State.Open.alive {s : State} (h : s.Open) : s.Alive := ⟨by simp [h.1], h.2.1⟩

theorem State.whenAlive_of {s : State} (h : s.Alive) (k : Result) : s.whenAlive k = k := by
  simp [State.whenAlive, h.1, h.2]

theorem State.whenReady_of {s : State} (h : s.Open) (k : Result) : s.whenReady k = k := by
  simp [State.whenReady, State.whenAlive_of h.alive, h.1, h.2.2]

theorem State.whenAlive_next {s t : State} {k : Result} : s.whenAlive k = .next t ↔ s.Alive ∧ k = .next t := by
  unfold State.whenAlive State.Alive
  split
  · simp_all
  · rename_i hp
    split
    · rename_i hv
      exact ⟨fun h => ⟨⟨hp, hv⟩, h⟩, fun h => h.2⟩
    · rename_i hv
      exact ⟨fun h => (nomatch h), fun h => absurd h.1.2 hv⟩

theorem State.whenReady_next {s t : State} {k : Result} : s.whenReady k = .next t ↔ s.Open ∧ k = .next t := by
  unfold State.whenReady
  rw [State.whenAlive_next]
  unfold State.Open State.Alive
  split
  · simp_all
  · split
    · simp_all
    · simp_all

theorem State.whenSelected_of {s : State} {t : Transition} (h : s.Open) (hb : s.fsm.busy = true) (he : s.elapsedStop = none)
    (ht : decodeDecider s.deciderWord = t) (k : Result) : s.whenSelected t k = k := by
  simp [State.whenSelected, State.whenReady_of h, hb, he, ht]

theorem State.whenSelected_next {s u : State} {t : Transition} {k : Result} :
    s.whenSelected t k = .next u ↔
      s.Open ∧ s.fsm.busy = true ∧ s.elapsedStop = none ∧ decodeDecider s.deciderWord = t ∧ k = .next u := by
  unfold State.whenSelected
  rw [State.whenReady_next]
  cases hb : s.fsm.busy <;> cases he : s.elapsedStop <;> simp
  split <;> simp_all

theorem State.returning_of {s : State} {i : Instr} (h : s.Alive) (hi : i.WellFormed s.cfg = true) (v : Returned) :
    s.returning i v = .next { s with ret := some v } := by
  simp [State.returning, State.whenAlive_of h, hi]

theorem State.returning_next {s t : State} {i : Instr} {v : Returned} :
    s.returning i v = .next t ↔ s.Alive ∧ i.WellFormed s.cfg = true ∧ t = { s with ret := some v } := by
  unfold State.returning
  rw [State.whenAlive_next]
  cases i.WellFormed s.cfg <;> simp
  exact fun _ _ => eq_comm

/-- The transition that a decider word put together from its bits selects (R84). -/
theorem decodeDecider_bits (f : FsmState) (p h l : Bool) :
    decodeDecider (f.bits ++ BitVec.ofBool p ++ BitVec.ofBool h ++ BitVec.ofBool l) =
      match f with
      | .start => if p then .startIsDown else .startIsUp
      | .down => if l then .downHeldLong else if p then .downStillDown else .downAnyUp
      | .downButWaiting => if p then .downButWaitingStillDown else .downButWaitingReleased
      | .up => if h then (if l then .upUpAfterLong else .upShortHeld) else .upShortUp := by
  cases f <;> cases p <;> cases h <;> cases l <;> decide

/-- The transition that a state's decider word selects (R83, R84). -/
theorem decodeDecider_deciderWord (s : State) :
    decodeDecider s.deciderWord =
      match s.fsm.state with
      | .start => if s.env.pin = .low then .startIsDown else .startIsUp
      | .down => if s.long then .downHeldLong else if s.env.pin = .low then .downStillDown else .downAnyUp
      | .downButWaiting => if s.env.pin = .low then .downButWaitingStillDown else .downButWaitingReleased
      | .up => if s.fsm.hasSec then (if s.long then .upUpAfterLong else .upShortHeld) else .upShortUp := by
  rw [State.deciderWord, decodeDecider_bits]
  cases h : s.fsm.state <;> simp [State.pressed, h]

theorem State.HeldPast.long {s : State} (h : s.HeldPast) : s.long = true := by
  obtain ⟨hs, ts, hts, ho⟩ := h
  simp [State.long, hs, hts, State.over, ho]

theorem State.NotHeldPast.long {s : State} (h : s.NotHeldPast) : s.long = false := by
  rcases h with hs | ⟨ts, hts, -, ho⟩
  · unfold State.long
    split <;> simp [hs]
  · simp [State.long, hts, State.over, ho]

theorem State.HeldPast.elapsedStop {s : State} (h : s.HeldPast) : s.elapsedStop = none := by
  obtain ⟨hs, ts, hts, ho⟩ := h
  have : ts ≤ s.env.now := by omega
  unfold State.elapsedStop
  cases s.fsm.state <;> simp [hs, hts, this]

theorem State.NotHeldPast.elapsedStop {s : State} (h : s.NotHeldPast) : s.elapsedStop = none := by
  unfold State.elapsedStop
  rcases h with hs | ⟨ts, hts, hle, -⟩
  · cases s.fsm.state <;> simp [hs]
  · cases s.fsm.state <;> simp [hts, hle]

theorem State.elapsedStop_start {s : State} (h : s.fsm.state = .start) : s.elapsedStop = none := by
  simp [State.elapsedStop, h]

theorem State.elapsedStop_waiting {s : State} (h : s.fsm.state = .downButWaiting) : s.elapsedStop = none := by
  simp [State.elapsedStop, h]

/-- The step's whole case list. -/
theorem step_cases (s : State) :
    (resetWaits s = true ∧ step s = .next { s with calls := s.calls.tail }.resetBlock) ∨
    (resetWaits s = false ∧ s.sys.phase = .fatal ∧ step s = .fault (.fatal s.sys.cause)) ∨
    (resetWaits s = false ∧ s.sys.phase ≠ .fatal ∧ s.work ≠ [] ∧ step s = resumeWork s) ∨
    (resetWaits s = false ∧ s.sys.phase = .ready ∧ s.work = [] ∧ s.fsm.busy = true ∧ step s = exec .evaluate s) ∨
    (resetWaits s = false ∧ s.sys.phase ≠ .fatal ∧ s.work = [] ∧ (s.sys.phase = .ready → s.fsm.busy = false) ∧
      ((∃ w rest, s.calls = w :: rest ∧
          ((∃ i, decode s.cfg w = .ok i ∧ step s = exec i { s with calls := rest }) ∨
           (∃ e, decode s.cfg w = .error e ∧ step s = .refused (.undecodable e)))) ∨
       (s.calls = [] ∧ s.sys.phase = .uninit ∧ step s = exec .opNew s) ∨
       (s.calls = [] ∧ s.sys.phase = .ready ∧ step s = exec .invoke s))) := by
  unfold step nextSelection
  by_cases hr : resetWaits s = true
  · exact .inl ⟨hr, by simp [hr, exec, execReset]⟩
  have hr' : resetWaits s = false := by simpa using hr
  by_cases hf : s.sys.phase = .fatal
  · exact .inr (.inl ⟨hr', hf, by simp [hr', hf]⟩)
  by_cases hw : s.work = []
  · by_cases hb : s.sys.phase = .ready ∧ s.fsm.busy = true
    · exact .inr (.inr (.inr (.inl ⟨hr', hb.1, hw, hb.2, by simp [hr', hw, hb.1, hb.2]⟩)))
    · refine .inr (.inr (.inr (.inr ⟨hr', hf, hw, fun h => by simpa [h] using hb, ?_⟩)))
      cases hc : s.calls with
      | cons w rest =>
        refine .inl ⟨w, rest, rfl, ?_⟩
        cases hd : decode s.cfg w with
        | ok i => exact .inl ⟨i, rfl, by simp [hr', hf, hw, hb, callOf, hd]⟩
        | error e => exact .inr ⟨e, rfl, by simp [hr', hf, hw, hb, callOf, hd]⟩
      | nil =>
        cases hp : s.sys.phase with
        | uninit => exact .inr (.inl ⟨rfl, rfl, by simp [hr', hw, hp, ownNext]⟩)
        | ready => exact .inr (.inr ⟨rfl, rfl, by simp_all [ownNext]⟩)
        | fatal => exact absurd hp hf
  · exact .inr (.inr (.inl ⟨hr', hf, hw, by simp [hr', hf, hw]⟩))

end Sys2Proof.Machine
end

