-- ==== Sys2Proof/Laws/Memory.lean ====
section
/-! SUPPORT. Memory: a read gives the last write, a write leaves every other address alone, and every operation keeps the canonical form. -/

namespace Sys2Proof.Machine

/-- Every listed address is at least `a`. -/
abbrev Mem.AtLeast (a : Nat) (m : Mem) : Prop := ∀ c ∈ m, a ≤ c.1

theorem Mem.wf_nil : Mem.wf [] := by simp [Mem.wf]

theorem Mem.wf_cons {b : Nat} {v : Byte} {m : Mem} :
    Mem.wf ((b, v) :: m) ↔ v ≠ Mem.unlisted ∧ Mem.AtLeast (b + 1) m ∧ m.wf := by
  simp only [Mem.wf, List.pairwise_cons, List.mem_cons, forall_eq_or_imp, Mem.AtLeast, Nat.succ_le_iff]
  tauto

theorem Mem.get_below {m : Mem} {a b : Nat} (h : Mem.AtLeast b m) (hab : a < b) : m.get a = Mem.unlisted := by
  induction m with
  | nil => rfl
  | cons c m ih =>
    have hc : b ≤ c.1 := h c (by simp)
    have hm : Mem.AtLeast b m := fun d hd => h d (by simp [hd])
    simp [Mem.get, show c.1 ≠ a by omega, ih hm]

theorem Mem.atLeast_mono {m : Mem} {a b : Nat} (h : Mem.AtLeast b m) (hab : a ≤ b) : Mem.AtLeast a m := fun c hc => hab.trans (h c hc)

theorem Mem.set_atLeast {m : Mem} {a b : Nat} {v : Byte} (h : Mem.AtLeast b m) (hab : b ≤ a) : Mem.AtLeast b (m.set a v) := by
  induction m with
  | nil =>
    unfold Mem.set
    split <;> simp_all [Mem.AtLeast]
  | cons c m ih =>
    have hc : b ≤ c.1 := h c (by simp)
    have hm : Mem.AtLeast b m := fun d hd => h d (by simp [hd])
    have hset := ih hm
    unfold Mem.set
    intro d hd
    split at hd <;> split at hd <;> simp_all [Mem.AtLeast]
    all_goals grind

/-- A write keeps the canonical form. -/
theorem Mem.set_wf {m : Mem} (h : m.wf) (a : Nat) (v : Byte) : (m.set a v).wf := by
  induction m with
  | nil =>
    unfold Mem.set
    split <;> simp_all [Mem.wf]
  | cons c m ih =>
    obtain ⟨b, w⟩ := c
    obtain ⟨hw, hb, hm⟩ := Mem.wf_cons.mp h
    unfold Mem.set
    split
    · split
      · exact h
      · refine Mem.wf_cons.mpr ⟨by assumption, ?_, h⟩
        intro d hd
        rcases List.mem_cons.mp hd with rfl | hd
        · simpa using by omega
        · exact le_trans (by omega) (hb d hd)
    · split
      · split
        · exact hm
        · subst a
          exact Mem.wf_cons.mpr ⟨by assumption, hb, hm⟩
      · exact Mem.wf_cons.mpr ⟨hw, Mem.set_atLeast hb (by omega), ih hm⟩

/-- A read after a write to the same address gives the value written. -/
theorem Mem.get_set_same {m : Mem} (h : m.wf) (a : Nat) (v : Byte) : (m.set a v).get a = v := by
  induction m with
  | nil =>
    unfold Mem.set
    split <;> simp_all [Mem.get]
  | cons c m ih =>
    obtain ⟨b, w⟩ := c
    obtain ⟨-, hb, hm⟩ := Mem.wf_cons.mp h
    unfold Mem.set
    split
    · split
      · rename_i hab hv
        simp [Mem.get, show b ≠ a by omega, Mem.get_below hb (show a < b + 1 by omega), hv]
      · simp [Mem.get]
    · split
      · rename_i hab
        subst a
        split
        · rename_i hv
          simp [Mem.get_below hb (show b < b + 1 by omega), hv]
        · simp [Mem.get]
      · simp [Mem.get, show b ≠ a by omega, ih hm]

/-- A write leaves every other address alone. -/
theorem Mem.get_set_other {m : Mem} {a b : Nat} (v : Byte) (hne : b ≠ a) (h : m.wf) : (m.set a v).get b = m.get b := by
  induction m with
  | nil =>
    unfold Mem.set
    split <;> simp [Mem.get, hne.symm]
  | cons c m ih =>
    obtain ⟨d, w⟩ := c
    obtain ⟨-, hd, hm⟩ := Mem.wf_cons.mp h
    unfold Mem.set
    split
    · split
      · rfl
      · simp [Mem.get, hne.symm]
    · split
      · subst a
        split
        · simp [Mem.get, hne.symm]
        · simp [Mem.get, hne.symm]
      · simp [Mem.get, ih hm]

theorem Mem.ofBytes_atLeast (bytes : List Byte) (a : Nat) : Mem.AtLeast a (Mem.ofBytes a bytes) := by
  induction bytes generalizing a with
  | nil => simp [Mem.ofBytes, Mem.AtLeast]
  | cons v bytes ih =>
    have h := Mem.atLeast_mono (ih (a + 1)) (Nat.le_succ a)
    unfold Mem.ofBytes
    split
    · exact h
    · simpa [Mem.AtLeast] using h

/-- A placed blob is in canonical form. -/
theorem Mem.ofBytes_wf (bytes : List Byte) (a : Nat) : (Mem.ofBytes a bytes).wf := by
  induction bytes generalizing a with
  | nil => exact Mem.wf_nil
  | cons v bytes ih =>
    unfold Mem.ofBytes
    split
    · exact ih _
    · exact Mem.wf_cons.mpr ⟨by assumption, Mem.ofBytes_atLeast _ _, ih _⟩

/-- A placed blob reads back byte for byte. -/
theorem Mem.get_ofBytes (bytes : List Byte) (a i : Nat) (hi : i < bytes.length) :
    (Mem.ofBytes a bytes).get (a + i) = bytes[i] := by
  induction bytes generalizing a i with
  | nil => simp at hi
  | cons v bytes ih =>
    have hleast := Mem.ofBytes_atLeast bytes (a + 1)
    cases i with
    | zero =>
      unfold Mem.ofBytes
      split
      · rename_i hv
        simp [Mem.get_below hleast (show a < a + 1 by omega), hv]
      · simp [Mem.get]
    | succ i =>
      have := ih (a + 1) i (by simpa using hi)
      rw [show a + 1 + i = a + (i + 1) by omega] at this
      unfold Mem.ofBytes
      split
      · simpa using this
      · simpa [Mem.get] using this

@[simp] theorem Mem.bytes_length (m : Mem) (a n : Nat) : (m.bytes a n).length = n := by simp [Mem.bytes]

@[simp] theorem Mem.bytes_getElem (m : Mem) (a n i : Nat) (h : i < (m.bytes a n).length) : (m.bytes a n)[i] = m.get (a + i) := by
  simp [Mem.bytes]

end Sys2Proof.Machine
end

