-- ==== Sys2Proof/Laws/Stream.lean ====
section
/-! SUPPORT. The byte stream and the page load: what the calls can do at all, and what they give by the answers to come. -/

namespace Sys2Proof.Machine

/-! ### Relations between the state before and after -/

/-- A load or a redraw: what it leaves alone, and that it emits nothing. -/
structure Moved (s t : State) : Prop extends s.SameButPage t where
  events : ∃ added, t.trace = s.trace ++ added ∧ eventsOf added = []

theorem Moved.refl (s : State) : Moved s s :=
  { fsm := rfl, hdr := rfl, disp := rfl, blob := rfl, len := rfl, cfg := rfl, calls := rfl, ret := rfl, pins := rfl, clock := rfl,
    now := rfl, pin := rfl, events := ⟨[], by simp [eventsOf]⟩ }

theorem State.SameButPage.trans {s t u : State} (h : s.SameButPage t) (k : t.SameButPage u) : s.SameButPage u :=
  { fsm := k.fsm.trans h.fsm, hdr := k.hdr.trans h.hdr, disp := k.disp.trans h.disp, blob := k.blob.trans h.blob,
    len := k.len.trans h.len, cfg := k.cfg.trans h.cfg, calls := k.calls.trans h.calls, ret := k.ret.trans h.ret,
    pins := k.pins.trans h.pins, clock := k.clock.trans h.clock, now := k.now.trans h.now, pin := k.pin.trans h.pin }

theorem Moved.trans {s t u : State} (h : Moved s t) (k : Moved t u) : Moved s u := by
  obtain ⟨a, ha, ea⟩ := h.events
  obtain ⟨b, hb, eb⟩ := k.events
  refine { h.toSameButPage.trans k.toSameButPage with events := ⟨a ++ b, ?_, ?_⟩ }
  · simp [hb, ha]
  · simp only [eventsOf, List.filterMap_append, List.append_eq_nil_iff]
    exact ⟨ea, eb⟩

/-- What stream calls leave alone beside `Moved`: the page, the multiplexer and the display's answers. -/
structure Streamed (s t : State) : Prop extends Moved s t where
  page : t.page = s.page
  mux : t.mux = s.mux
  draws : t.env.draws = s.env.draws

theorem Streamed.refl (s : State) : Streamed s s := { Moved.refl s with page := rfl, mux := rfl, draws := rfl }

theorem Streamed.trans {s t u : State} (h : Streamed s t) (k : Streamed t u) : Streamed s u :=
  { h.toMoved.trans k.toMoved with page := k.page.trans h.page, mux := k.mux.trans h.mux, draws := k.draws.trans h.draws }

/-- Nothing else happened: the call succeeded. -/
structure Succeeded (s t : State) : Prop extends Streamed s t where
  sys : t.sys = s.sys
  work : t.work = s.work

theorem Succeeded.refl (s : State) : Succeeded s s := { Streamed.refl s with sys := rfl, work := rfl }

theorem Succeeded.trans {s t u : State} (h : Succeeded s t) (k : Succeeded t u) : Succeeded s u :=
  { h.toStreamed.trans k.toStreamed with sys := k.sys.trans h.sys, work := k.work.trans h.work }

/-- A call raised `Fatal`. -/
structure Failed (s t : State) : Prop extends Streamed s t where
  phase : t.sys.phase = .fatal
  cause : s.sys.phase ≠ .fatal → t.sys.cause ≠ none
  work : t.work = []

theorem Succeeded.failed {s t u : State} (h : Succeeded s t) (k : Failed t u) : Failed s u :=
  { h.toStreamed.trans k.toStreamed with phase := k.phase, cause := fun hp => k.cause (by rw [h.sys]; exact hp), work := k.work }

/-! ### What the calls can do -/

theorem streamSeek_ok {s t : State} {p : Nat} {u : Unit} (h : streamSeek p s = .ok u t) : Succeeded s t ∧ t.stream.pos = p := by
  unfold streamSeek at h
  dsimp only at h
  split at h
  · obtain ⟨⟩ := h
    refine ⟨{ Succeeded.refl s with events := ⟨[.seek p true], ?_, rfl⟩ }, rfl⟩
    simp [State.record]
  · cases h

theorem streamSeek_fatal {s t : State} {p : Nat} (h : streamSeek p s = .fatal t) : Failed s t := by
  unfold streamSeek at h
  dsimp only at h
  split at h
  · cases h
  · obtain ⟨⟩ := h
    refine { Streamed.refl s with events := ⟨[.seek p false], ?_, rfl⟩, phase := rfl, cause := fun hp => ?_, work := rfl }
    · simp [State.record, State.raiseFatal]
    · simp [State.record, State.raiseFatal, hp]

theorem streamRead_ok {s t : State} {n : Nat} {b : List Byte} (h : streamRead n s = .ok b t) :
    Succeeded s t ∧ b = s.stream.blob.bytes s.stream.pos n ∧ t.stream.pos = s.stream.pos + n := by
  unfold streamRead at h
  dsimp only at h
  split at h
  · split at h
    · obtain ⟨⟩ := h
      refine ⟨{ Succeeded.refl s with events := ⟨[.read n .ok], ?_, rfl⟩ }, rfl, rfl⟩
      simp [State.record]
    · cases h
  · cases h

theorem streamRead_fatal {s t : State} {n : Nat} (h : streamRead n s = .fatal t) : Failed s t := by
  unfold streamRead at h
  dsimp only at h
  split at h
  · split at h
    · cases h
    · obtain ⟨⟩ := h
      refine
        { Streamed.refl s with
          events := ⟨[.read n (.short s.stream.avail)], ?_, rfl⟩, phase := rfl, cause := fun hp => ?_, work := rfl }
      · simp [State.record, State.raiseFatal]
      · simp [State.record, State.raiseFatal, hp]
  · obtain ⟨⟩ := h
    refine { Streamed.refl s with events := ⟨[.read n .error], ?_, rfl⟩, phase := rfl, cause := fun hp => ?_, work := rfl }
    · simp [State.record, State.raiseFatal]
    · simp [State.record, State.raiseFatal, hp]

theorem blocksAt_succ (m : Mem) (p n count : Nat) :
    blocksAt m p n (count + 1) = m.bytes p n :: blocksAt m (p + n) n count := by
  simp only [blocksAt, List.range_succ_eq_map, List.map_cons, List.map_map, Nat.mul_zero, Nat.add_zero]
  refine congrArg _ (List.map_congr_left fun i _ => ?_)
  show m.bytes (p + n * (i + 1)) n = m.bytes (p + n + n * i) n
  rw [Nat.mul_succ, Nat.add_assoc, Nat.add_comm (n * i) n]

@[simp] theorem blocksAt_length (m : Mem) (p n count : Nat) : (blocksAt m p n count).length = count := by simp [blocksAt]

theorem blocksAt_mem_length {m : Mem} {p n count : Nat} {b : List Byte} (h : b ∈ blocksAt m p n count) : b.length = n := by
  obtain ⟨i, -, rfl⟩ := List.mem_map.mp h
  simp

theorem readBlocks_ok {n count : Nat} {s t : State} {bs : List (List Byte)} (h : readBlocks n count s = .ok bs t) :
    Succeeded s t ∧ bs = blocksAt s.stream.blob s.stream.pos n count := by
  induction count generalizing s t bs with
  | zero =>
    obtain ⟨⟩ := h
    exact ⟨Succeeded.refl s, rfl⟩
  | succ count ih =>
    rw [readBlocks] at h
    cases hr : streamRead n s with
    | fatal u => simp [hr] at h
    | ok b u =>
      cases hb : readBlocks n count u with
      | fatal v => simp [hr, hb] at h
      | ok bs' v =>
        simp only [hr, hb, Res.ok.injEq] at h
        obtain ⟨rfl, rfl⟩ := h
        obtain ⟨hu, rfl, hp⟩ := streamRead_ok hr
        obtain ⟨hv, rfl⟩ := ih hb
        exact ⟨hu.trans hv, by rw [hu.blob, hp, blocksAt_succ]⟩

theorem readBlocks_fatal {n count : Nat} {s t : State} (h : readBlocks n count s = .fatal t) : Failed s t := by
  induction count generalizing s with
  | zero => cases h
  | succ count ih =>
    rw [readBlocks] at h
    cases hr : streamRead n s with
    | fatal u =>
      simp only [hr, Res.fatal.injEq] at h
      exact h ▸ streamRead_fatal hr
    | ok b u =>
      cases hb : readBlocks n count u with
      | fatal v =>
        simp only [hr, hb, Res.fatal.injEq] at h
        subst h
        exact (streamRead_ok hr).1.failed (ih hb)
      | ok bs' v => simp [hr, hb] at h

theorem readRegion_ok {p n count : Nat} {s t : State} {bs : List (List Byte)} (h : readRegion p n count s = .ok bs t) :
    Succeeded s t ∧ bs = blocksAt s.stream.blob p n count := by
  unfold readRegion at h
  cases hs : streamSeek p s with
  | fatal u => simp [hs] at h
  | ok x u =>
    simp only [hs] at h
    obtain ⟨hu, hp⟩ := streamSeek_ok hs
    obtain ⟨ht, rfl⟩ := readBlocks_ok h
    exact ⟨hu.trans ht, by rw [hu.blob, hp]⟩

theorem readRegion_fatal {p n count : Nat} {s t : State} (h : readRegion p n count s = .fatal t) : Failed s t := by
  unfold readRegion at h
  cases hs : streamSeek p s with
  | fatal u =>
    simp only [hs, Res.fatal.injEq] at h
    exact h ▸ streamSeek_fatal hs
  | ok x u =>
    simp only [hs] at h
    exact (streamSeek_ok hs).1.failed (readBlocks_fatal h)

/-- A load that does not fail commits the whole new page (R136, R137). -/
theorem loadPage_ok {k : Nat} {s t : State} {u : Unit} (h : loadPage k s = .ok u t) :
    Moved s t ∧ t.sys = s.sys ∧ t.work = s.work ∧ t.mux = s.mux ∧ t.env.draws = s.env.draws ∧
      t.page = (s.afterLoad k).page := by
  unfold loadPage at h
  cases h1 : readRegion (dataOffset s.cfg s.hdr k) s.cfg.rowLength s.hdr.bdCount s with
  | fatal v => simp [h1] at h
  | ok rows v =>
    simp only [h1] at h
    obtain ⟨hv, rfl⟩ := readRegion_ok h1
    cases h2 : readRegion (imagesOffset v.cfg v.hdr k) v.cfg.imageLength v.hdr.bdCount v with
    | fatal w => simp [h2] at h
    | ok imgs w =>
      simp only [h2, Res.ok.injEq, true_and] at h
      obtain ⟨hw, rfl⟩ := readRegion_ok h2
      have hsw := hv.trans hw
      subst h
      refine ⟨{ hsw.toMoved with }, hsw.sys, hsw.work, hsw.mux, hsw.draws, ?_⟩
      simp only [hv.blob, hv.hdr, hv.cfg, State.afterLoad]

/-- A load that fails leaves the page alone (R137, R138). -/
theorem loadPage_fatal {k : Nat} {s t : State} (h : loadPage k s = .fatal t) : Failed s t := by
  unfold loadPage at h
  cases h1 : readRegion (dataOffset s.cfg s.hdr k) s.cfg.rowLength s.hdr.bdCount s with
  | fatal v =>
    simp only [h1, Res.fatal.injEq] at h
    exact h ▸ readRegion_fatal h1
  | ok rows v =>
    simp only [h1] at h
    obtain ⟨hv, rfl⟩ := readRegion_ok h1
    cases h2 : readRegion (imagesOffset v.cfg v.hdr k) v.cfg.imageLength v.hdr.bdCount v with
    | fatal w =>
      simp only [h2, Res.fatal.injEq] at h
      exact h ▸ hv.failed (readRegion_fatal h2)
    | ok imgs w => simp [h2] at h

/-- A loaded page holds `bd_count` records of the parameters' lengths. -/
theorem afterLoad_holds (s : State) (k : Nat) : (s.afterLoad k).page.Holds s.cfg s.hdr.bdCount :=
  { rows := blocksAt_length .., rowLength := fun _ h => blocksAt_mem_length h, imgs := blocksAt_length ..
    imgLength := fun _ h => blocksAt_mem_length h }

/-! ### What each call gives, by its answer -/

theorem Answers.take_fst {α : Type} (a : Answers α) : a.take.1 = a.nth 0 := by
  obtain ⟨q, r⟩ := a
  cases q <;> rfl

theorem Answers.take_snd {α : Type} (a : Answers α) : a.take.2 = { queue := a.queue.drop 1, rest := a.rest } := by
  obtain ⟨q, r⟩ := a
  cases q <;> rfl

theorem Answers.nth_drop {α : Type} (a : Answers α) (m i : Nat) :
    ({ queue := a.queue.drop m, rest := a.rest } : Answers α).nth i = a.nth (m + i) := by
  simp [Answers.nth, List.getD_eq_getElem?_getD]

theorem State.StreamAnswers.answered {s : State} (h : s.StreamAnswers) (n : Nat) : s.Answered n := by
  intro i _
  unfold Answers.nth
  rw [List.getD_eq_getElem?_getD]
  cases hq : s.env.stream.queue[i]? with
  | none => exact h.2
  | some b => exact h.1 b (List.mem_of_getElem? hq)

/-- The state after `n` answered stream calls that leave the position at `pos` and the records `added`. -/
def State.afterCalls (s : State) (pos : Nat) (added : List TraceRecord) (n : Nat) : State :=
  { s with
    stream := { s.stream with pos := pos }
    trace := s.trace ++ added
    env := { s.env with stream := { s.env.stream with queue := s.env.stream.queue.drop n } } }

theorem State.afterCalls_afterCalls (s : State) (p q : Nat) (a b : List TraceRecord) (m n : Nat) :
    (s.afterCalls p a m).afterCalls q b n = s.afterCalls q (a ++ b) (m + n) := by
  simp [State.afterCalls, List.drop_drop]

theorem State.afterCalls_nth (s : State) (p : Nat) (a : List TraceRecord) (m i : Nat) :
    (s.afterCalls p a m).env.stream.nth i = s.env.stream.nth (m + i) := Answers.nth_drop ..

theorem State.afterCalls_answered {s : State} {m n : Nat} (h : s.Answered (m + n)) (p : Nat) (a : List TraceRecord) :
    (s.afterCalls p a m).Answered n := fun i hi => by
  rw [State.afterCalls_nth]
  exact h _ (by omega)

theorem streamSeek_answered {s : State} (h : s.env.stream.nth 0 = true) (p : Nat) :
    streamSeek p s = .ok () (s.afterCalls p [.seek p true] 1) := by
  simp [streamSeek, Answers.take_fst, h, Answers.take_snd, State.afterCalls, State.record]

theorem streamSeek_failed {s : State} (h : s.env.stream.nth 0 = false) (p : Nat) :
    streamSeek p s = .fatal ((s.afterCalls s.stream.pos [.seek p false] 1).raiseFatal .streamSeek) := by
  simp [streamSeek, Answers.take_fst, h, Answers.take_snd, State.afterCalls, State.record]

theorem Stream.le_avail {st : Stream} {n : Nat} (h0 : 0 < n) : n ≤ st.avail ↔ st.pos + n ≤ st.len := by
  unfold Stream.avail
  split <;> omega

theorem streamRead_answered {s : State} (h : s.env.stream.nth 0 = true) {n : Nat} (hn : s.stream.pos + n ≤ s.stream.len) :
    streamRead n s = .ok (s.stream.blob.bytes s.stream.pos n) (s.afterCalls (s.stream.pos + n) [.read n .ok] 1) := by
  have : n ≤ s.stream.avail := by
    unfold Stream.avail
    split <;> omega
  simp [streamRead, Answers.take_fst, h, Answers.take_snd, State.afterCalls, State.record, this]

theorem streamRead_short {s : State} (h : s.env.stream.nth 0 = true) {n : Nat} (h0 : 0 < n) (hs : s.stream.len < s.stream.pos + n) :
    streamRead n s = .fatal ((s.afterCalls s.stream.pos [.read n (.short s.stream.avail)] 1).raiseFatal .truncated) := by
  have : ¬ n ≤ s.stream.avail := by rw [Stream.le_avail h0]; omega
  simp [streamRead, Answers.take_fst, h, Answers.take_snd, State.afterCalls, State.record, this]

theorem streamRead_failed {s : State} (h : s.env.stream.nth 0 = false) (n : Nat) :
    streamRead n s = .fatal ((s.afterCalls s.stream.pos [.read n .error] 1).raiseFatal .streamRead) := by
  simp [streamRead, Answers.take_fst, h, Answers.take_snd, State.afterCalls, State.record]

/-! ### A page load as the list of its calls -/

/-- The stream calls whose successes are the records `cs`, one after another; what the reads return is dropped. -/
def runCalls : List TraceRecord → State → Res Unit
  | [], s => .ok () s
  | c :: cs, s =>
    match c with
    | .seek p _ =>
      match streamSeek p s with
      | .fatal s => .fatal s
      | .ok _ s => runCalls cs s
    | .read n _ =>
      match streamRead n s with
      | .fatal s => .fatal s
      | .ok _ s => runCalls cs s
    | .emit _ => runCalls cs s
    | .setAddress _ => runCalls cs s
    | .draw _ _ => runCalls cs s
    | .pinRead _ => runCalls cs s

theorem runCalls_append (a b : List TraceRecord) (s : State) :
    runCalls (a ++ b) s =
      match runCalls a s with
      | .fatal s => .fatal s
      | .ok _ s => runCalls b s := by
  induction a generalizing s with
  | nil => rfl
  | cons c a ih =>
    cases c with
    | seek p r => simp only [List.cons_append, runCalls]; cases streamSeek p s <;> simp [ih]
    | read n r => simp only [List.cons_append, runCalls]; cases streamRead n s <;> simp [ih]
    | _ => simp only [List.cons_append, runCalls, ih]

/-- The value of an operation dropped. -/
def Res.drop {α : Type} : Res α → Res Unit
  | .ok _ s => .ok () s
  | .fatal s => .fatal s

theorem readBlocks_drop (n count : Nat) (s : State) : (readBlocks n count s).drop = runCalls (List.replicate count (.read n .ok)) s := by
  induction count generalizing s with
  | zero => rfl
  | succ count ih =>
    rw [readBlocks, List.replicate_succ, runCalls]
    cases streamRead n s with
    | fatal t => rfl
    | ok b t =>
      simp only [← ih]
      cases readBlocks n count t <;> rfl

theorem readRegion_drop (p n count : Nat) (s : State) : (readRegion p n count s).drop = runCalls (passTrace p n count) s := by
  rw [readRegion, passTrace, runCalls]
  cases streamSeek p s with
  | fatal t => rfl
  | ok u t => exact readBlocks_drop n count t

/-- A page load is its calls and, if none of them raises `Fatal`, the new page (R136, R137). -/
theorem loadPage_eq (k : Nat) (s : State) :
    loadPage k s =
      match runCalls (s.loadCalls k) s with
      | .fatal t => .fatal t
      | .ok _ t => .ok () { t with page := (s.afterLoad k).page } := by
  rw [State.loadCalls, runCalls_append, ← readRegion_drop, loadPage]
  cases h1 : readRegion (dataOffset s.cfg s.hdr k) s.cfg.rowLength s.hdr.bdCount s with
  | fatal t => rfl
  | ok rows t =>
    obtain ⟨ht, rfl⟩ := readRegion_ok h1
    simp only [Res.drop, ← readRegion_drop, ht.cfg, ht.hdr]
    cases h2 : readRegion (imagesOffset s.cfg s.hdr k) s.cfg.imageLength s.hdr.bdCount t with
    | fatal u => rfl
    | ok imgs u =>
      obtain ⟨-, rfl⟩ := readRegion_ok h2
      simp only [ht.blob, State.afterLoad]

/-! ### What a list of calls gives, by the answers -/

theorem positionAfter_cons (pos : Nat) (c : TraceRecord) (cs : List TraceRecord) :
    positionAfter pos (c :: cs) = positionAfter (positionAfterCall pos c) cs := rfl

/-- A record of a stream call. -/
def TraceRecord.isCall (r : TraceRecord) : Prop := (∃ p, r = .seek p true) ∨ ∃ n, 0 < n ∧ r = .read n .ok

theorem runCalls_answered {cs : List TraceRecord} (hc : ∀ c ∈ cs, c.isCall) {s : State} (h : s.Answered cs.length)
    (hi : ReadsInside s.stream.len s.stream.pos cs) :
    runCalls cs s = .ok () (s.afterCalls (positionAfter s.stream.pos cs) cs cs.length) := by
  induction cs generalizing s with
  | nil => simp [runCalls, positionAfter, State.afterCalls]
  | cons c cs ih =>
    have h0 : s.env.stream.nth 0 = true := h 0 (by simp)
    have hc' : ∀ c ∈ cs, c.isCall := fun c hm => hc c (by simp [hm])
    have ha : ∀ p a, (s.afterCalls p a 1).Answered cs.length := fun p a =>
      State.afterCalls_answered (by rw [Nat.add_comm]; exact h) p a
    rcases hc c (by simp) with ⟨p, rfl⟩ | ⟨n, -, rfl⟩
    · rw [runCalls, streamSeek_answered h0]
      simp only
      rw [ih hc' (ha p [.seek p true]) hi, State.afterCalls_afterCalls, Nat.add_comm 1]
      rfl
    · rw [runCalls, streamRead_answered h0 hi.1]
      simp only
      rw [ih hc' (ha (s.stream.pos + n) [.read n .ok]) hi.2, State.afterCalls_afterCalls, Nat.add_comm 1]
      rfl

/-- Calls of which all are answered: some read runs off the end of the blob, or all succeed. -/
theorem runCalls_of_answers {cs : List TraceRecord} (hc : ∀ c ∈ cs, c.isCall) {s : State} (h : s.Answered cs.length)
    (hi : ¬ ReadsInside s.stream.len s.stream.pos cs) :
    ∃ t, runCalls cs s = .fatal t ∧ (s.sys.phase ≠ .fatal → t.sys = { phase := .fatal, cause := some .truncated }) := by
  induction cs generalizing s with
  | nil => exact absurd trivial hi
  | cons c cs ih =>
    have h0 : s.env.stream.nth 0 = true := h 0 (by simp)
    have hc' : ∀ c ∈ cs, c.isCall := fun c hm => hc c (by simp [hm])
    have ha : ∀ p a, (s.afterCalls p a 1).Answered cs.length := fun p a =>
      State.afterCalls_answered (by rw [Nat.add_comm]; exact h) p a
    rcases hc c (by simp) with ⟨p, rfl⟩ | ⟨n, hn, rfl⟩
    · rw [runCalls, streamSeek_answered h0]
      exact ih hc' (ha _ _) hi
    · by_cases hf : s.stream.pos + n ≤ s.stream.len
      · rw [runCalls, streamRead_answered h0 hf]
        exact ih hc' (ha _ _) fun k => hi ⟨hf, k⟩
      · rw [runCalls, streamRead_short h0 hn (by omega)]
        refine ⟨_, rfl, fun hp => ?_⟩
        simp [State.raiseFatal, State.afterCalls, hp]

theorem loadCalls_isCall {s : State} (hv : s.cfg.Valid) (k : Nat) : ∀ c ∈ s.loadCalls k, c.isCall := by
  have := Params.valid_iff.mp hv
  intro c hc
  simp only [State.loadCalls, passTrace, List.mem_append, List.mem_cons, List.mem_replicate] at hc
  rcases hc with (rfl | ⟨-, rfl⟩) | (rfl | ⟨-, rfl⟩)
  · exact .inl ⟨_, rfl⟩
  · exact .inr ⟨_, by omega, rfl⟩
  · exact .inl ⟨_, rfl⟩
  · exact .inr ⟨_, by omega, rfl⟩

theorem readsInside_append (len pos : Nat) (a b : List TraceRecord) :
    ReadsInside len pos (a ++ b) ↔ ReadsInside len pos a ∧ ReadsInside len (positionAfter pos a) b := by
  induction a generalizing pos with
  | nil => simp [ReadsInside, positionAfter]
  | cons c a ih => cases c <;> simp [ReadsInside, positionAfter_cons, positionAfterCall, ih, and_assoc]

theorem readsInside_replicate (len pos n count : Nat) (h : 0 < count) :
    ReadsInside len pos (List.replicate count (.read n .ok)) ↔ pos + n * count ≤ len := by
  induction count generalizing pos with
  | zero => omega
  | succ count ih =>
    have hm : n * (count + 1) = n + n * count := by rw [Nat.mul_succ]; omega
    rw [List.replicate_succ, ReadsInside]
    rcases Nat.eq_zero_or_pos count with rfl | hc
    · simp [ReadsInside]
    · rw [ih _ hc]
      omega

theorem positionAfter_replicate (pos n count : Nat) : positionAfter pos (List.replicate count (.read n .ok)) = pos + n * count := by
  induction count generalizing pos with
  | zero => rfl
  | succ count ih =>
    rw [List.replicate_succ, positionAfter_cons, ih, positionAfterCall, Nat.mul_succ]
    omega

/-- The reads of a page load lie inside the blob exactly if both regions do (R50). -/
theorem readsInside_loadCalls {s : State} {k : Nat} (h : 0 < s.hdr.bdCount) (pos : Nat) :
    ReadsInside s.stream.len pos (s.loadCalls k) ↔ s.PageInside k := by
  rw [State.loadCalls, readsInside_append, passTrace, passTrace, ReadsInside, ReadsInside, readsInside_replicate _ _ _ _ h,
    readsInside_replicate _ _ _ _ h]
  rfl

theorem loadCalls_length (s : State) (k : Nat) : (s.loadCalls k).length = 2 + 2 * s.hdr.bdCount := by
  simp [State.loadCalls, passTrace]
  omega

/-- `load_page(k)` when every call succeeds (R136). -/
theorem loadPage_of_answers {k : Nat} {s : State} (h : s.StreamAnswers) (hv : s.cfg.Valid) (h0 : 0 < s.hdr.bdCount) (hk : s.PageInside k) :
    loadPage k s = .ok () (s.afterLoad k) := by
  rw [loadPage_eq, runCalls_answered (loadCalls_isCall hv k) (h.answered _) ((readsInside_loadCalls h0 _).mpr hk), loadCalls_length]
  have hp : positionAfter s.stream.pos (s.loadCalls k) = imagesOffset s.cfg s.hdr k + s.cfg.imageLength * s.hdr.bdCount := by
    rw [State.loadCalls, positionAfter, List.foldl_append]
    exact positionAfter_replicate ..
  rw [hp]
  simp only [State.afterCalls, State.afterLoad, State.loadCalls, List.append_assoc]

/-- `load_page(k)` when some region runs off the end of the blob (R138). -/
theorem loadPage_short {k : Nat} {s : State} (h : s.StreamAnswers) (hv : s.cfg.Valid) (h0 : 0 < s.hdr.bdCount) (hk : ¬ s.PageInside k) :
    ∃ t, loadPage k s = .fatal t ∧ (s.sys.phase ≠ .fatal → t.sys = { phase := .fatal, cause := some .truncated }) := by
  obtain ⟨t, ht, hp⟩ := runCalls_of_answers (loadCalls_isCall hv k) (h.answered _) fun hi => hk ((readsInside_loadCalls h0 _).mp hi)
  exact ⟨t, by rw [loadPage_eq, ht], hp⟩

/-- `load_page(k)` whose calls `before` succeed and whose next call `c` does not, in the two ways a call can fail (R138, R197). -/
theorem loadPage_first_failure {k : Nat} {s : State} {before after : List TraceRecord} {c : TraceRecord} (hv : s.cfg.Valid)
    (hp : s.sys.phase ≠ .fatal) (hw : s.work = []) (hc : s.loadCalls k = before ++ c :: after) (ha : s.Answered before.length)
    (hi : ReadsInside s.stream.len s.stream.pos before) :
    (s.env.stream.nth before.length = false →
      (∀ p ok, c = .seek p ok → loadPage k s = .fatal (s.afterFailure before (.seek p false) .streamSeek)) ∧
      (∀ n r, c = .read n r → loadPage k s = .fatal (s.afterFailure before (.read n .error) .streamRead))) ∧
    (s.env.stream.nth before.length = true → ∀ n, c = .read n .ok → s.stream.len < positionAfter s.stream.pos before + n →
      loadPage k s =
        .fatal (s.afterFailure before
          (.read n (.short { s.stream with pos := positionAfter s.stream.pos before }.avail)) .truncated)) := by
  have hcall := loadCalls_isCall hv k
  rw [hc] at hcall
  have hb : ∀ c ∈ before, c.isCall := fun c hm => hcall c (by simp [hm])
  have hrun : runCalls (s.loadCalls k) s =
      runCalls (c :: after) (s.afterCalls (positionAfter s.stream.pos before) before before.length) := by
    rw [hc, runCalls_append, runCalls_answered hb ha hi]
  have h0 : ∀ b, s.env.stream.nth before.length = b →
      (s.afterCalls (positionAfter s.stream.pos before) before before.length).env.stream.nth 0 = b := by
    intro b h
    rw [State.afterCalls_nth, Nat.add_zero]
    exact h
  have hfin : ∀ r cause, (((s.afterCalls (positionAfter s.stream.pos before) before before.length).afterCalls
      (positionAfter s.stream.pos before) [r] 1).raiseFatal cause) = s.afterFailure before r cause := by
    intro r cause
    rw [State.afterCalls_afterCalls]
    simp [State.afterCalls, State.raiseFatal, State.afterFailure, hp, hw]
  refine ⟨fun hf => ⟨?_, ?_⟩, fun ht n hn hs => ?_⟩
  · rintro p ok rfl
    rw [loadPage_eq, hrun, runCalls, streamSeek_failed (h0 _ hf)]
    exact congrArg Res.fatal (hfin _ _)
  · rintro n r rfl
    rw [loadPage_eq, hrun, runCalls, streamRead_failed (h0 _ hf)]
    exact congrArg Res.fatal (hfin _ _)
  · subst hn
    have hn : 0 < n := by
      rcases hcall (.read n .ok) (by simp) with ⟨p, h⟩ | ⟨m, hm, h⟩ <;> cases h
      exact hm
    rw [loadPage_eq, hrun, runCalls, streamRead_short (h0 _ ht) hn hs]
    exact congrArg Res.fatal (hfin _ _)

end Sys2Proof.Machine
end

