-- ==== Sys2Proof/Laws/Display.lean ====
section
/-! SUPPORT. The display's draws, the redraw, the events' actions and the tasks: what each can do, and what it gives when the display
answers. -/

namespace Sys2Proof.Machine

/-! ### One draw with its retries -/

/-- The state after draws that leave the records `added` and the answers `queue`. -/
def State.afterDraws (s : State) (added : List TraceRecord) (queue : List Bool) : State :=
  { s with trace := s.trace ++ added, env := { s.env with draws := { s.env.draws with queue := queue } } }

theorem State.afterDraws_afterDraws (s : State) (a b : List TraceRecord) (q r : List Bool) :
    (s.afterDraws a q).afterDraws b r = s.afterDraws (a ++ b) r := by
  simp [State.afterDraws]

theorem State.drawOnce_eq (s : State) (f : List Byte) (ok : Bool) (q : List Bool) :
    s.drawOnce f ok q = s.afterDraws [.draw f ok] q := rfl

/-- The ways one draw with its retries can end: it succeeds after some failures, or the answers are used up and the lasting one is `Err`. -/
inductive DrawEnd (f : List Byte) (s : State) : Bool → State → Prop where
  | success (n extra : Nat) (q : List Bool) (hq : List.replicate n false ++ true :: q = s.env.draws.queue ++ List.replicate extra true)
      (he : extra = 0 ∨ s.env.draws.rest = true ∧ q = []) :
      DrawEnd f s true (s.afterDraws (List.replicate n (.draw f false) ++ [.draw f true]) q)
  | failure (n : Nat) (hq : s.env.draws.queue = List.replicate n false) (hr : s.env.draws.rest = false) :
      DrawEnd f s false (s.afterDraws (List.replicate (n + 1) (.draw f false)) [])

theorem drawQueued_spec (f : List Byte) (qs : List Bool) (s : State) (h : s.env.draws.queue = qs) :
    ∃ b t, drawQueued f qs s = (b, t) ∧ DrawEnd f s b t := by
  induction qs generalizing s with
  | nil =>
    rw [drawQueued, State.drawOnce_eq]
    cases hr : s.env.draws.rest with
    | true => exact ⟨_, _, rfl, .success 0 1 [] (by simp [h]) (.inr ⟨hr, rfl⟩)⟩
    | false => exact ⟨_, _, rfl, .failure 0 (by simp [h]) hr⟩
  | cons x qs ih =>
    cases x with
    | true => exact ⟨_, _, rfl, .success 0 0 qs (by simp [h]) (.inl rfl)⟩
    | false =>
      obtain ⟨b, t, hd, k⟩ := ih (s.drawOnce f false qs) rfl
      refine ⟨b, t, by rw [drawQueued]; exact hd, ?_⟩
      cases k with
      | success n extra q hq he =>
        rw [State.drawOnce_eq, State.afterDraws_afterDraws]
        exact .success (n + 1) extra q (by rw [h]; exact congrArg (false :: ·) hq) he
      | failure n hq hr =>
        rw [State.drawOnce_eq, State.afterDraws_afterDraws]
        exact .failure (n + 1) (by rw [h]; exact congrArg (false :: ·) hq) hr

theorem drawUntilOk_spec (f : List Byte) (s : State) : ∃ b t, drawUntilOk f s = (b, t) ∧ DrawEnd f s b t := drawQueued_spec f _ s rfl

@[simp] theorem eventsOf_append (a b : List TraceRecord) : eventsOf (a ++ b) = eventsOf a ++ eventsOf b := List.filterMap_append ..

@[simp] theorem eventsOf_draws (n : Nat) (f : List Byte) (ok : Bool) : eventsOf (List.replicate n (.draw f ok)) = [] := by
  simp [eventsOf]

theorem drawUntilOk_of_success {s : State} (h : s.DrawsSucceed) (f : List Byte) :
    drawUntilOk f s = (true, s.afterDraws [.draw f true] (s.env.draws.queue.drop 1)) := by
  unfold drawUntilOk
  cases hq : s.env.draws.queue with
  | nil => simp [drawQueued, h.2, State.drawOnce_eq]
  | cons x q =>
    have : x = true := h.1 x (by simp [hq])
    simp [drawQueued, this, State.drawOnce_eq]

/-! ### The redraw -/

/-- What a redraw leaves alone beside `Moved`: the page, the phase and the stream. -/
structure Drawn (s t : State) : Prop extends Moved s t where
  page : t.page = s.page
  sys : t.sys = s.sys
  stream : t.stream = s.stream
  work : t.work = s.work
  streamAnswers : t.env.stream = s.env.stream

theorem Drawn.refl (s : State) : Drawn s s :=
  { Moved.refl s with page := rfl, sys := rfl, stream := rfl, work := rfl, streamAnswers := rfl }

theorem Drawn.trans {s t u : State} (h : Drawn s t) (k : Drawn t u) : Drawn s u :=
  { h.toMoved.trans k.toMoved with
    page := k.page.trans h.page, sys := k.sys.trans h.sys, stream := k.stream.trans h.stream, work := k.work.trans h.work,
    streamAnswers := k.streamAnswers.trans h.streamAnswers }

theorem Drawn.afterDraws {s : State} {added : List TraceRecord} (h : eventsOf added = []) (q : List Bool) :
    Drawn s (s.afterDraws added q) := { Drawn.refl s with events := ⟨added, rfl, h⟩ }

theorem Drawn.setAddress (s : State) (a : Nat) : Drawn s (s.setAddress a) :=
  { Drawn.refl s with events := ⟨[.setAddress a], rfl, rfl⟩ }

theorem DrawEnd.drawn {f : List Byte} {s t : State} {b : Bool} (h : DrawEnd f s b t) : Drawn s t := by
  cases h with
  | success n extra q hq he => exact .afterDraws (by simp [eventsOf]) q
  | failure n hq hr => exact .afterDraws (by simp) []

theorem DrawEnd.hangs {f : List Byte} {s t : State} (h : DrawEnd f s false t) : t.env.draws = { queue := [], rest := false } := by
  cases h with
  | failure n hq hr => simp [State.afterDraws, hr]

theorem State.img?_of_holds {s : State} (h : s.page.Holds s.cfg s.hdr.bdCount) {a : Nat} (ha : a < s.hdr.bdCount) :
    ∃ img, s.page.imgs[a]? = some img ∧ s.img? a = some img := by
  have ha' : a < s.page.imgs.length := by rw [h.imgs]; exact ha
  refine ⟨s.page.imgs[a], List.getElem?_eq_getElem ha', ?_⟩
  simp [State.img?, List.getElem?_eq_getElem ha', ha, h.imgLength _ (List.getElem_mem ha')]

theorem State.row?_of_holds {s : State} (h : s.page.Holds s.cfg s.hdr.bdCount) {a : Nat} (ha : a < s.hdr.bdCount) :
    ∃ row, s.page.rows[a]? = some row ∧ s.row? a = some row := by
  have ha' : a < s.page.rows.length := by rw [h.rows]; exact ha
  refine ⟨s.page.rows[a], List.getElem?_eq_getElem ha', ?_⟩
  simp [State.row?, List.getElem?_eq_getElem ha', ha, h.rowLength _ (List.getElem_mem ha')]

theorem Drawn.holds {s t : State} (h : Drawn s t) (k : s.page.Holds s.cfg s.hdr.bdCount) :
    t.page.Holds t.cfg t.hdr.bdCount := by rw [h.page, h.cfg, h.hdr]; exact k

theorem Drawn.img? {s t : State} (h : Drawn s t) (a : Nat) : t.img? a = s.img? a := by
  unfold State.img?
  rw [h.page, h.hdr, h.cfg]

/-- How an action on a loaded page can end. -/
inductive ActionEnd (R : State → State → Prop) (s : State) : Flow → Prop where
  | done {t : State} (h : R s t) : ActionEnd R s (.done t)
  | blocked {t : State} {a : Nat} (h : R s t) (ha : a < s.hdr.bdCount) (hd : t.env.draws = { queue := [], rest := false }) :
    ActionEnd R s (.blocked t [.retry a])

theorem redrawList_cons_true {a : Nat} {as : List Nat} {s t : State} {img : List Byte} (hi : s.img? a = some img)
    (hd : drawUntilOk (imageBuffer img) (s.setAddress a) = (true, t)) : redrawList (a :: as) s = redrawList as t := by
  simp only [redrawList, hi, hd]

theorem redrawList_cons_false {a : Nat} {as : List Nat} {s t : State} {img : List Byte} (hi : s.img? a = some img)
    (hd : drawUntilOk (imageBuffer img) (s.setAddress a) = (false, t)) :
    redrawList (a :: as) s = .blocked t [.retry a] := by
  simp only [redrawList, hi, hd]

theorem retryDraw_true {a : Nat} {s t : State} {img : List Byte} (hi : s.img? a = some img)
    (hd : drawUntilOk (imageBuffer img) s = (true, t)) :
    retryDraw a s = redrawList (List.range' (a + 1) (t.hdr.bdCount - (a + 1))) t := by
  simp only [retryDraw, hi, hd]

theorem retryDraw_false {a : Nat} {s t : State} {img : List Byte} (hi : s.img? a = some img)
    (hd : drawUntilOk (imageBuffer img) s = (false, t)) : retryDraw a s = .blocked t [.retry a] := by
  simp only [retryDraw, hi, hd]

theorem ActionEnd.of_drawn {s t : State} (h : Drawn s t) {f : Flow} (k : ActionEnd Drawn t f) : ActionEnd Drawn s f := by
  cases k with
  | done k => exact .done (h.trans k)
  | blocked k ha hd => exact .blocked (h.trans k) (by rw [← h.hdr]; exact ha) hd

theorem redrawList_end {as : List Nat} {s : State} (hp : s.page.Holds s.cfg s.hdr.bdCount) (has : ∀ a ∈ as, a < s.hdr.bdCount) :
    ActionEnd Drawn s (redrawList as s) := by
  induction as generalizing s with
  | nil => exact .done (Drawn.refl s)
  | cons a as ih =>
    obtain ⟨img, -, himg⟩ := State.img?_of_holds hp (has a (by simp))
    obtain ⟨b, t, hd, k⟩ := drawUntilOk_spec (imageBuffer img) (s.setAddress a)
    have hs : Drawn s t := (Drawn.setAddress s a).trans k.drawn
    cases b with
    | true =>
      rw [redrawList_cons_true himg hd]
      exact (ih (hs.holds hp) fun c hc => by rw [hs.hdr]; exact has c (by simp [hc])).of_drawn hs
    | false =>
      rw [redrawList_cons_false himg hd]
      exact .blocked hs (has a (by simp)) k.hangs

theorem redrawAll_end {s : State} (hp : s.page.Holds s.cfg s.hdr.bdCount) : ActionEnd Drawn s (redrawAll s) :=
  redrawList_end hp fun a ha => by simpa using ha

theorem retryDraw_end {s : State} {a : Nat} (hp : s.page.Holds s.cfg s.hdr.bdCount) (ha : a < s.hdr.bdCount) :
    ActionEnd Drawn s (retryDraw a s) := by
  obtain ⟨img, -, himg⟩ := State.img?_of_holds hp ha
  obtain ⟨b, t, hd, k⟩ := drawUntilOk_spec (imageBuffer img) s
  have hs : Drawn s t := k.drawn
  cases b with
  | true =>
    rw [retryDraw_true himg hd]
    exact (redrawList_end (hs.holds hp) fun c hc => by rw [List.mem_range'_1] at hc; omega).of_drawn hs
  | false =>
    rw [retryDraw_false himg hd]
    exact .blocked hs ha k.hangs

theorem State.frameOf_eq {s : State} {a : Nat} {img : List Byte} (h : s.page.imgs[a]? = some img) : s.frameOf a = imageBuffer img := by
  simp [State.frameOf, imageBuffer, List.getD_eq_getElem?_getD, h]

theorem State.frameOf_congr {s t : State} (h : t.page = s.page) (a : Nat) : t.frameOf a = s.frameOf a := by
  simp only [State.frameOf, h]

theorem State.retryTrace_congr {s t : State} (h : t.page = s.page) (a : Nat) (fails : List Nat) :
    t.retryTrace a fails = s.retryTrace a fails := by
  induction fails generalizing a with
  | nil => rfl
  | cons n fails ih => simp only [State.retryTrace, State.frameOf, h, ih]

theorem count_answersUsed (fails : List Nat) : (answersUsed fails).count true = fails.length := by
  induction fails with
  | nil => rfl
  | cons n fails ih =>
    rw [answersUsed, List.flatMap_cons, List.count_append, ← answersUsed, ih, List.length_cons, List.count_append, List.count_replicate]
    simp [Nat.add_comm]

/-- The ways the redraw of the `count` buttons from `a` on can end (R178, R179): after some failures each is drawn, or the answers are used
up at one of them and the lasting answer is `Err`. -/
inductive RedrawEnd (a count : Nat) (s : State) : Flow → Prop where
  | done (fails : List Nat) (extra : Nat) (q : List Bool) (hl : fails.length = count)
      (hq : answersUsed fails ++ q = s.env.draws.queue ++ List.replicate extra true) (he : extra = 0 ∨ s.env.draws.rest = true ∧ q = []) :
      RedrawEnd a count s
        (.done { s.afterDraws (s.retryTrace a fails) q with mux := if count = 0 then s.mux else { addr := a + count - 1 } })
  | blocked (fails : List Nat) (n : Nat) (hl : fails.length < count)
      (hq : s.env.draws.queue = answersUsed fails ++ List.replicate n false) (hr : s.env.draws.rest = false) :
      RedrawEnd a count s
        (.blocked
          { s.afterDraws (s.retryTrace a fails ++ .setAddress (a + fails.length) ::
                List.replicate (n + 1) (.draw (s.frameOf (a + fails.length)) false)) [] with
            mux := { addr := a + fails.length } }
          [.retry (a + fails.length)])

theorem redrawList_spec (a count : Nat) {s : State} (hp : s.page.Holds s.cfg s.hdr.bdCount) (hc : a + count ≤ s.hdr.bdCount) :
    RedrawEnd a count s (redrawList (List.range' a count) s) := by
  induction count generalizing a s with
  | zero =>
    have := RedrawEnd.done (a := a) (count := 0) (s := s) [] 0 s.env.draws.queue rfl (by simp [answersUsed]) (.inl rfl)
    simpa [State.afterDraws, State.retryTrace, redrawList] using this
  | succ count ih =>
    obtain ⟨img, hi, himg⟩ := State.img?_of_holds hp (a := a) (by omega)
    obtain ⟨b, t, hd, k⟩ := drawUntilOk_spec (imageBuffer img) (s.setAddress a)
    have hs : Drawn s t := (Drawn.setAddress s a).trans k.drawn
    have hf := State.frameOf_eq hi
    rw [List.range'_succ]
    cases k with
    | failure n hq hr =>
      rw [redrawList_cons_false himg hd]
      have := RedrawEnd.blocked (a := a) (count := count + 1) (s := s) [] n (by simp) (by simpa [answersUsed] using hq) hr
      simpa [State.afterDraws, State.retryTrace, State.setAddress, State.record, hf] using this
    | success n e q hq he =>
      rw [redrawList_cons_true himg hd]
      have hn : answersUsed [n] ++ q = s.env.draws.queue ++ List.replicate e true := by simpa [answersUsed] using hq
      have k := ih (a + 1) (hs.holds hp) (by rw [hs.hdr]; omega)
      revert k
      generalize redrawList _ _ = r
      intro k
      cases k with
      | done fails e' q' hl hq' he' =>
        have hu : answersUsed (n :: fails) ++ q' = s.env.draws.queue ++ List.replicate (e + e') true := by
          have : answersUsed (n :: fails) = answersUsed [n] ++ answersUsed fails := by simp [answersUsed]
          rw [this, List.append_assoc, hq']
          show answersUsed [n] ++ (q ++ _) = _
          rw [← List.append_assoc, hn, List.append_assoc, List.replicate_append_replicate]
        have hx : e + e' = 0 ∨ s.env.draws.rest = true ∧ q' = [] := by
          rcases he with rfl | ⟨hr, rfl⟩
          · rcases he' with rfl | ⟨hr', h'⟩
            · exact .inl rfl
            · exact .inr ⟨hr', h'⟩
          · rcases he' with rfl | ⟨hr', h'⟩
            · have : answersUsed fails ++ q' = [] := by simpa [State.afterDraws] using hq'
              exact .inr ⟨hr, (List.append_eq_nil_iff.mp this).2⟩
            · exact .inr ⟨hr', h'⟩
        have := RedrawEnd.done (a := a) (count := count + 1) (s := s) (n :: fails) (e + e') q' (by simp [hl]) hu hx
        rw [State.retryTrace_congr hs.page]
        have hm : a + 1 + count - 1 = a + (count + 1) - 1 := by omega
        rcases Nat.eq_zero_or_pos count with rfl | h0
        · simpa [State.afterDraws, State.retryTrace, State.setAddress, State.record, hf] using this
        · simpa [State.afterDraws, State.retryTrace, State.setAddress, State.record, hf, Nat.ne_of_gt h0, hm] using this
      | blocked fails m hl hq' hr =>
        have hz : e = 0 := by
          rcases he with h | ⟨h, -⟩
          · exact h
          · exact absurd (show s.env.draws.rest = false from hr) (by simpa using h)
        have hu : s.env.draws.queue = answersUsed (n :: fails) ++ List.replicate m false := by
          have : answersUsed (n :: fails) = answersUsed [n] ++ answersUsed fails := by simp [answersUsed]
          rw [this, List.append_assoc, ← hq']
          show s.env.draws.queue = answersUsed [n] ++ q
          rw [hn, hz]
          simp
        have := RedrawEnd.blocked (a := a) (count := count + 1) (s := s) (n :: fails) m (by simp; omega) hu hr
        rw [State.retryTrace_congr hs.page, State.frameOf_congr hs.page]
        have hm : a + 1 + fails.length = a + (fails.length + 1) := by omega
        simpa [State.afterDraws, State.retryTrace, State.setAddress, State.record, hf, hm] using this

theorem redrawAll_spec {s : State} (hp : s.page.Holds s.cfg s.hdr.bdCount) : RedrawEnd 0 s.hdr.bdCount s (redrawAll s) := by
  rw [redrawAll, List.range_eq_range']
  exact redrawList_spec 0 _ hp (by omega)

/-- Where the answers to come let each of `count` draws succeed, the redraw is done. -/
theorem RedrawEnd.of_enough {a count : Nat} {s : State} {f : Flow} (h : RedrawEnd a count s f)
    (hq : s.env.draws.rest = true ∨ count ≤ s.env.draws.queue.count true) :
    ∃ fails extra q, fails.length = count ∧ answersUsed fails ++ q = s.env.draws.queue ++ List.replicate extra true ∧
      (extra = 0 ∨ s.env.draws.rest = true ∧ q = []) ∧
      f = .done { s.afterDraws (s.retryTrace a fails) q with mux := if count = 0 then s.mux else { addr := a + count - 1 } } := by
  cases h with
  | done fails extra q hl hu he => exact ⟨fails, extra, q, hl, hu, he, rfl⟩
  | blocked fails n hl hu hr =>
    have : s.env.draws.queue.count true = fails.length := by
      rw [hu, List.count_append, count_answersUsed, List.count_replicate]
      rfl
    rcases hq with hq | hq
    · simp [hr] at hq
    · omega

/-- Where they do not, it stops at the button whose number is that of the draws that can succeed. -/
theorem RedrawEnd.of_too_few {a count : Nat} {s : State} {f : Flow} (h : RedrawEnd a count s f) (hr : s.env.draws.rest = false)
    (hq : s.env.draws.queue.count true < count) :
    ∃ fails n, fails.length = s.env.draws.queue.count true ∧ s.env.draws.queue = answersUsed fails ++ List.replicate n false ∧
      f =
        .blocked
          { s.afterDraws (s.retryTrace a fails ++ .setAddress (a + fails.length) ::
                List.replicate (n + 1) (.draw (s.frameOf (a + fails.length)) false)) [] with
            mux := { addr := a + fails.length } }
          [.retry (a + fails.length)] := by
  cases h with
  | done fails extra q hl hu he =>
    rcases he with rfl | ⟨he, -⟩
    · have := congrArg (List.count true) hu
      rw [List.count_append, count_answersUsed, List.replicate_zero, List.append_nil] at this
      omega
    · simp [hr] at he
  | blocked fails n hl hu _ =>
    refine ⟨fails, n, ?_, hu, rfl⟩
    rw [hu, List.count_append, count_answersUsed, List.count_replicate]
    rfl

theorem getLastD_range {n : Nat} (h : 0 < n) (d : Nat) : (List.range n).getLastD d = n - 1 := by
  obtain ⟨m, rfl⟩ := Nat.exists_eq_succ_of_ne_zero (Nat.pos_iff_ne_zero.mp h)
  simp [List.range_succ, List.getLastD_eq_getLast?]

/-- A redraw in which every draw succeeds at once. -/
theorem redrawList_of_success {as : List Nat} {s : State} (hp : s.page.Holds s.cfg s.hdr.bdCount)
    (has : ∀ a ∈ as, a < s.hdr.bdCount) (hr : s.DrawsSucceed) :
    redrawList as s =
      .done { s.afterDraws (as.flatMap (fun a => [TraceRecord.setAddress a, .draw (s.frameOf a) true]))
          (s.env.draws.queue.drop as.length) with mux := { addr := as.getLastD s.mux.addr } } := by
  induction as generalizing s with
  | nil => simp [redrawList, State.afterDraws]
  | cons a as ih =>
    obtain ⟨img, hi, himg⟩ := State.img?_of_holds hp (has a (by simp))
    have hf : imageBuffer img = s.frameOf a := by
      simp [State.frameOf, imageBuffer, List.getD_eq_getElem?_getD, hi]
    have hr1 : (s.setAddress a).DrawsSucceed := hr
    have hs : Drawn s ((s.setAddress a).afterDraws [.draw (imageBuffer img) true] (s.env.draws.queue.drop 1)) :=
      (Drawn.setAddress s a).trans (Drawn.afterDraws rfl _)
    rw [redrawList_cons_true himg (drawUntilOk_of_success hr1 _)]
    rw [State.setAddress_env, ih (hs.holds hp) (fun c hc => has c (by simp [hc]))
      ⟨fun b hb => hr.1 b (List.mem_of_mem_drop hb), hr.2⟩]
    cases as <;> simp [State.afterDraws, State.setAddress, State.record, List.getLast?_cons, hf, State.frameOf]

theorem redrawAll_of_success {s : State} (h0 : 0 < s.hdr.bdCount) (hp : s.page.Holds s.cfg s.hdr.bdCount) (hr : s.DrawsSucceed) :
    redrawAll s = .done s.afterRedraw := by
  rw [redrawAll, redrawList_of_success hp (fun a ha => by simpa using ha) hr, getLastD_range h0]
  simp [State.afterDraws, State.afterRedraw, State.redrawTrace]

/-! ### The events' actions -/

/-- How an action on a loaded page can end where a page load may come first. -/
inductive PageEnd (s : State) : Flow → Prop where
  | done {t : State} (h : Moved s t) (hs : t.sys = s.sys) (hw : t.work = s.work) (hp : t.page.Holds s.cfg s.hdr.bdCount) :
    PageEnd s (.done t)
  | fatal {t : State} (h : Failed s t) : PageEnd s (.fatal t)
  | blocked {t : State} {a : Nat} (h : Moved s t) (hs : t.sys = s.sys) (hp : t.page.Holds s.cfg s.hdr.bdCount)
    (ha : a < s.hdr.bdCount) (hd : t.env.draws = { queue := [], rest := false }) : PageEnd s (.blocked t [.retry a])

theorem changePage_end (k : Nat) (s : State) : PageEnd s (changePage k s) := by
  unfold changePage
  cases hl : loadPage k s with
  | fatal t => exact .fatal (loadPage_fatal hl)
  | ok u t =>
    obtain ⟨hm, hsys, hwork, -, -, hpage⟩ := loadPage_ok hl
    have hp : t.page.Holds s.cfg s.hdr.bdCount := by rw [hpage]; exact afterLoad_holds s k
    have hp' : t.page.Holds t.cfg t.hdr.bdCount := by rw [hm.cfg, hm.hdr]; exact hp
    simp only
    have := redrawAll_end hp'
    revert this
    generalize redrawAll t = r
    intro this
    cases this with
    | done h => exact .done (hm.trans h.toMoved) (h.sys.trans hsys) (h.work.trans hwork) (by rw [h.page]; exact hp)
    | blocked h ha hd =>
      exact .blocked (hm.trans h.toMoved) (h.sys.trans hsys) (by rw [h.page]; exact hp) (by rw [← hm.hdr]; exact ha) hd

theorem actOn_end (f : ButtonFunction) {s : State} (hp : s.page.Holds s.cfg s.hdr.bdCount) : PageEnd s (actOn f s) := by
  cases f with
  | changePage t => exact changePage_end _ s
  | _ => exact .done (Moved.refl s) rfl rfl hp

theorem actOnSlot_end (slot : SlotName) {s : State} (h : s.PageLoaded) : PageEnd s (actOnSlot slot s) := by
  obtain ⟨row, -, hrow⟩ := State.row?_of_holds h.page h.cursor
  simp only [actOnSlot, hrow]
  exact actOn_end _ h.page

/-- The four events that decode a function. -/
theorem dispatch_end {e : Event} (he : e ≠ .idle) {s : State} (h : s.PageLoaded) : PageEnd s (dispatch e s) := by
  cases e with
  | idle => exact absurd rfl he
  | _ => exact actOnSlot_end _ h

theorem dispatch_primary {e : Event} (he : e = .shortDown ∨ e = .shortUp ∨ e = .shortTriggered) (s : State) :
    dispatch e s = actOnSlot .primary s := by
  rcases he with rfl | rfl | rfl <;> rfl

/-- The events' operations are the actions behind their guard. -/
theorem exec_event (e : Event) (s : State) : exec e.instr s = s.whenReady (dispatch e s).toResult := by cases e <;> rfl

theorem exec_transition (t : Transition) (s : State) : exec t.instr s = runTransition t s := by cases t <;> rfl

/-- How a list of tasks of an `Up` transition or of a waiting action can end. -/
theorem runTasks_cons (t : Task) (ts : List Task) (s : State) :
    runTasks (t :: ts) s =
      match runTask t s with
      | .done s => runTasks ts s
      | .fatal s => .fatal s
      | .blocked s rest => .blocked s (rest ++ ts)
      | .refused r => .refused r := rfl

end Sys2Proof.Machine
end

