-- ==== Sys2Proof/Laws/Encoding.lean ====
section
/-! SUPPORT. The fields of a mode byte and of a 16-bit value, put together and taken apart, and what each format decodes to. -/

namespace Sys2Proof

@[simp] theorem modeCode_modeByte (hi code : BitVec 4) : modeCode (modeByte hi code) = code := by
  revert hi code; decide

@[simp] theorem modeHigh_modeByte (hi code : BitVec 4) : modeHigh (modeByte hi code) = hi := by
  revert hi code; decide

@[simp] theorem modeByte_parts (mode : Byte) : modeByte (modeHigh mode) (modeCode mode) = mode := by
  revert mode; decide

/-- `le16` as a number (R44). -/
theorem le16_toNat (lo hi : Byte) : (le16 lo hi).toNat = lo.toNat + 256 * hi.toNat := by
  simp only [le16, BitVec.toNat_append]
  rw [← Nat.shiftLeft_add_eq_or_of_lt lo.isLt, Nat.shiftLeft_eq]
  omega

theorem lowByte_toNat (v : U16) : (lowByte v).toNat = v.toNat % 256 := by simp [lowByte]

theorem highByte_toNat (v : U16) : (highByte v).toNat = v.toNat / 256 := by
  have := v.isLt
  simp only [highByte, BitVec.extractLsb'_toNat, Nat.shiftRight_eq_div_pow]
  omega

@[simp] theorem le16_bytes (v : U16) : le16 (lowByte v) (highByte v) = v := by
  apply BitVec.eq_of_toNat_eq
  rw [le16_toNat, lowByte_toNat, highByte_toNat]
  omega

@[simp] theorem lowByte_le16 (lo hi : Byte) : lowByte (le16 lo hi) = lo := by
  apply BitVec.eq_of_toNat_eq
  have := lo.isLt
  rw [lowByte_toNat, le16_toNat]
  omega

@[simp] theorem highByte_le16 (lo hi : Byte) : highByte (le16 lo hi) = hi := by
  apply BitVec.eq_of_toNat_eq
  have := lo.isLt
  rw [highByte_toNat, le16_toNat]
  omega

theorem unknownCode_toNat (high : Bool) (c : BitVec 3) : (unknownCode high c).toNat = (if high then 8 else 0) + c.toNat := by
  revert c; cases high <;> decide

@[simp] theorem unknownCode_parts (code : BitVec 4) : unknownCode (code.getLsbD 3) (code.setWidth 3) = code := by
  revert code; decide

@[simp] theorem unknownCode_low (high : Bool) (c : BitVec 3) : (unknownCode high c).setWidth 3 = c := by
  revert c; cases high <;> decide

@[simp] theorem unknownCode_high (high : Bool) (c : BitVec 3) : (unknownCode high c).getLsbD 3 = high := by
  revert c; cases high <;> decide

theorem callAlone_ok {i j : Instr} {bs : List Byte} (h : callAlone i bs = .ok j) : bs = [] ∧ j = i := by
  cases bs with
  | nil => obtain ⟨⟩ := h; exact ⟨rfl, rfl⟩
  | cons => cases h

theorem callWithU16_ok {f : U16 → Instr} {j : Instr} {bs : List Byte} (h : callWithU16 f bs = .ok j) :
    ∃ v : U16, bs = [lowByte v, highByte v] ∧ j = f v := by
  match bs, h with
  | [lo, hi], h => obtain ⟨⟩ := h; exact ⟨le16 lo hi, by simp, rfl⟩

@[simp] theorem callWithU16_bytes (f : U16 → Instr) (v : U16) : callWithU16 f [lowByte v, highByte v] = .ok (f v) := by
  simp [callWithU16]

theorem decodeSlotName_ok {b : Byte} {w : SlotName} (h : decodeSlotName b = .ok w) : b = w.number := by
  unfold decodeSlotName at h
  split at h
  · obtain ⟨⟩ := h; assumption
  split at h
  · obtain ⟨⟩ := h; assumption
  · cases h

theorem decodeCause_ok {b : Byte} {c : Cause} (h : decodeCause b = .ok c) : b = c.number := by
  unfold decodeCause at h
  split at h
  · obtain ⟨⟩ := h; assumption
  split at h
  · obtain ⟨⟩ := h; assumption
  split at h
  · obtain ⟨⟩ := h; assumption
  split at h
  · obtain ⟨⟩ := h; assumption
  · cases h

theorem callSlotFunction_ok {j : Instr} {bs : List Byte} (h : callSlotFunction bs = .ok j) :
    ∃ w v, bs = [SlotName.number w, lowByte v, highByte v] ∧ j = .slotFunction w v := by
  match bs, h with
  | b :: bs, h =>
    rw [callSlotFunction] at h
    cases hb : decodeSlotName b with
    | error e => rw [hb] at h; cases h
    | ok w =>
      rw [hb] at h
      obtain ⟨v, rfl, rfl⟩ := callWithU16_ok h
      exact ⟨w, v, by rw [decodeSlotName_ok hb], rfl⟩

theorem callRaiseFatal_ok {j : Instr} {bs : List Byte} (h : callRaiseFatal bs = .ok j) :
    ∃ c : Cause, bs = [c.number] ∧ j = .raiseFatal c := by
  match bs, h with
  | [b], h =>
    rw [callRaiseFatal] at h
    cases hb : decodeCause b with
    | error e => rw [hb] at h; cases h
    | ok c =>
      rw [hb] at h
      obtain ⟨⟩ := h
      exact ⟨c, by rw [decodeCause_ok hb], rfl⟩

theorem decode_slotWord {p : Params} {hi code : BitVec 4} {payload : List Byte} (h : payload.length = p.dataSize) :
    decode p (slotWord hi code payload) = .ok (decodeSlot p (modeByte hi code) payload) := by
  simp [decode, slotWord, h]

/-- A decider word in its byte (R83). -/
theorem decode_deciderWord (p : Params) (d : BitVec 5) :
    decode p ⟨.decider, [d.setWidth 8]⟩ = .ok (decodeDecider d).instr := by
  have h1 : (d.setWidth 8).toNat < 32 := by have := d.isLt; simp; omega
  have h2 : (d.setWidth 8).setWidth 5 = d := by simp
  simp only [decode, h1, if_true, h2]

end Sys2Proof
end

