-- ==== Sys2Proof/Laws/PerInstr.lean ====
section
/-! SUPPORT. One lemma for each operation: how many bytes its words have (R71 to R74, R82 to R86; calls: log 10). -/

namespace Sys2Proof.Laws.EncodeLength

/-- The length that the formats give (R86: it never depends on the variant of a slot). -/
def bytesOf (p : Params) (f : Format) (i : Instr) : Nat :=
  match f with
  | .decider => 1
  | .slot => p.rowLength / 2
  | .secondaryMode => 1
  | .event => 1
  | .header => p.rowLength
  | .row => p.rowLength
  | .image => p.imageLength
  | .call =>
    match i with
    | .loadPage _ => 3
    | .slotFunction _ _ => 4
    | .isLive _ => 3
    | .changePage _ => 3
    | .raiseFatal _ => 2
    | _ => 1

/-- The words of a well-formed operation have the length of their format. -/
def Statement (i : Instr) : Prop :=
  ∀ p : Params, p.Valid → i.WellFormed p = true → (encode p i).bytes.length = bytesOf p (encode p i).format i

theorem slot {i : Instr} (hi : BitVec 4) (payload : List Byte) (code : Params → BitVec 4)
    (he : (fun p => encode p i) = fun p => slotWord hi (code p) payload)
    (hw : ∀ p, i.WellFormed p = true → payload.length = p.dataSize) : Statement i := by
  intro p hp h
  rw [congrFun he p]
  show payload.length + 1 = p.rowLength / 2
  rw [hw p h, hp.half]

theorem startIsUp : Statement .startIsUp := fun _ _ _ => rfl

theorem startIsDown : Statement .startIsDown := fun _ _ _ => rfl

theorem downHeldLong : Statement .downHeldLong := fun _ _ _ => rfl

theorem downStillDown : Statement .downStillDown := fun _ _ _ => rfl

theorem downAnyUp : Statement .downAnyUp := fun _ _ _ => rfl

theorem downButWaitingStillDown : Statement .downButWaitingStillDown := fun _ _ _ => rfl

theorem downButWaitingReleased : Statement .downButWaitingReleased := fun _ _ _ => rfl

theorem upUpAfterLong : Statement .upUpAfterLong := fun _ _ _ => rfl

theorem upShortHeld : Statement .upShortHeld := fun _ _ _ => rfl

theorem upShortUp : Statement .upShortUp := fun _ _ _ => rfl

theorem slotPressKeys (hi : BitVec 4) (payload : List Byte) : Statement (.slotPressKeys hi payload) :=
  slot hi payload (fun p => p.modePressKeys) rfl fun _ h => eq_of_beq h

theorem slotChangePage (hi : BitVec 4) (payload : List Byte) : Statement (.slotChangePage hi payload) :=
  slot hi payload (fun _ => modeChangePage) rfl fun _ h => eq_of_beq h

theorem slotNoFunction (hi : BitVec 4) (payload : List Byte) : Statement (.slotNoFunction hi payload) :=
  slot hi payload (fun p => p.modeNoFunction) rfl fun _ h => eq_of_beq h

theorem slotPressSpecialKey (hi : BitVec 4) (payload : List Byte) : Statement (.slotPressSpecialKey hi payload) :=
  slot hi payload (fun p => p.modePressSpecialKey) rfl fun _ h => eq_of_beq h

theorem slotSendText (hi : BitVec 4) (payload : List Byte) : Statement (.slotSendText hi payload) :=
  slot hi payload (fun p => p.modeSendText) rfl fun _ h => eq_of_beq h

theorem slotSetSetting (hi : BitVec 4) (payload : List Byte) : Statement (.slotSetSetting hi payload) :=
  slot hi payload (fun p => p.modeSetSetting) rfl fun _ h => eq_of_beq h

theorem slotCommunicateToHost (hi : BitVec 4) (payload : List Byte) : Statement (.slotCommunicateToHost hi payload) :=
  slot hi payload (fun p => p.modeCommunicateToHost) rfl fun _ h => eq_of_beq h

theorem slotUnknownLow (hi : BitVec 4) (c : BitVec 3) (payload : List Byte) : Statement (.slotUnknownLow hi c payload) :=
  slot hi payload (fun _ => unknownCode false c) rfl fun _ h => eq_of_beq (Bool.and_eq_true_iff.mp h).1

theorem slotUnknownHigh (hi : BitVec 4) (c : BitVec 3) (payload : List Byte) : Statement (.slotUnknownHigh hi c payload) :=
  slot hi payload (fun _ => unknownCode true c) rfl fun _ h => eq_of_beq (Bool.and_eq_true_iff.mp h).1

theorem hasSecondary (mode : Byte) : Statement (.hasSecondary mode) := fun _ _ _ => rfl

theorem eventIdle : Statement .eventIdle := fun _ _ _ => rfl

theorem eventShortDown : Statement .eventShortDown := fun _ _ _ => rfl

theorem eventShortUp : Statement .eventShortUp := fun _ _ _ => rfl

theorem eventShortTriggered : Statement .eventShortTriggered := fun _ _ _ => rfl

theorem eventLongTriggered : Statement .eventLongTriggered := fun _ _ _ => rfl

theorem header (bytes : List Byte) : Statement (.header bytes) := fun _ _ h => eq_of_beq h

theorem row (bytes : List Byte) : Statement (.row bytes) := fun _ _ h => eq_of_beq h

theorem image (bytes : List Byte) : Statement (.image bytes) := fun _ _ h => eq_of_beq h

theorem invoke : Statement .invoke := fun _ _ _ => rfl

theorem evaluate : Statement .evaluate := fun _ _ _ => rfl

theorem opNew : Statement .opNew := fun _ _ _ => rfl

theorem loadPage (n : U16) : Statement (.loadPage n) := fun _ _ _ => rfl

theorem slotFunction (slot : SlotName) (button : U16) : Statement (.slotFunction slot button) := fun _ _ _ => rfl

theorem isLive (n : U16) : Statement (.isLive n) := fun _ _ _ => rfl

theorem changePage (n : U16) : Statement (.changePage n) := fun _ _ _ => rfl

theorem redrawAll : Statement .redrawAll := fun _ _ _ => rfl

theorem raiseFatal (cause : Cause) : Statement (.raiseFatal cause) := fun _ _ _ => rfl

theorem reset : Statement .reset := fun _ _ _ => rfl

end Sys2Proof.Laws.EncodeLength
end

