-- ==== Sys2Proof/Laws/Tasks.lean ====
section
/-! SUPPORT. What an action, a task and a list of tasks can do, from any state. -/

namespace Sys2Proof.Machine

theorem State.SameButPage.refl (s : State) : s.SameButPage s := (Moved.refl s).toSameButPage

theorem State.SameButPage.pageLoaded {s t : State} (h : s.SameButPage t) (hp : s.PageLoaded)
    (hg : t.page.Holds s.cfg s.hdr.bdCount) : t.PageLoaded :=
  ⟨by rw [h.cfg, h.hdr]; exact hg, by rw [h.disp, h.hdr]; exact hp.cursor⟩

/-! ### How an action ends -/

/-- How an action can end, `R` being what it does to the state: it completes, it raises `Fatal`, or it stops at the draw of a button with
some of the tasks `left` after it. -/
inductive FlowEnd (R : State → State → Prop) (left : List Task) (s : State) : Flow → Prop where
  | done {t : State} (h : R s t) (hs : t.sys = s.sys) (hw : t.work = s.work) : FlowEnd R left s (.done t)
  | fatal {t : State} (h : R s t) (hp : t.sys.phase = .fatal) (hc : s.sys.phase ≠ .fatal → t.sys.cause ≠ none)
      (hw : t.work = []) : FlowEnd R left s (.fatal t)
  | blocked {t : State} {a : Nat} {ts : List Task} (h : R s t) (hs : t.sys = s.sys) (ha : a < s.hdr.bdCount)
      (hl : ∀ x ∈ ts, x ∈ left) : FlowEnd R left s (.blocked t (.retry a :: ts))
  | refused {r : Refusal} : FlowEnd R left s (.refused r)

theorem FlowEnd.mono {R Q : State → State → Prop} {left : List Task} {s : State} {f : Flow} (h : FlowEnd R left s f)
    (k : ∀ t, R s t → Q s t) : FlowEnd Q left s f := by
  cases h with
  | done h hs hw => exact .done (k _ h) hs hw
  | fatal h hp hc hw => exact .fatal (k _ h) hp hc hw
  | blocked h hs ha hl => exact .blocked (k _ h) hs ha hl
  | refused => exact .refused

/-- An action with these records: everything but the page, and that a loaded page stays loaded. -/
structure Acted (es : List Event) (s t : State) : Prop extends s.SameButPage t where
  loaded : s.PageLoaded → t.PageLoaded
  events : ∃ added, t.trace = s.trace ++ added ∧ eventsOf added = es

theorem Drawn.acted {s t : State} (h : Drawn s t) : Acted [] s t :=
  { h.toSameButPage with loaded := fun hp => h.toSameButPage.pageLoaded hp (h.page ▸ hp.page), events := h.events }

theorem Acted.trans {es fs : List Event} {s t u : State} (h : Acted es s t) (k : Acted fs t u) : Acted (es ++ fs) s u := by
  obtain ⟨a, ha, rfl⟩ := h.events
  obtain ⟨b, hb, rfl⟩ := k.events
  refine { h.toSameButPage.trans k.toSameButPage with loaded := fun hp => k.loaded (h.loaded hp), events := ⟨a ++ b, ?_, ?_⟩ }
  · rw [hb, ha, List.append_assoc]
  · simp [eventsOf]

theorem State.img?_lt {s : State} {a : Nat} {img : List Byte} (h : s.img? a = some img) : a < s.hdr.bdCount := by
  unfold State.img? at h
  split at h
  · split at h
    · rename_i hc
      exact hc.1
    · cases h
  · cases h

theorem redrawList_flow (as : List Nat) (s : State) : FlowEnd Drawn [] s (redrawList as s) := by
  induction as generalizing s with
  | nil => exact .done (Drawn.refl s) rfl rfl
  | cons a as ih =>
    cases hi : s.img? a with
    | none => simp only [redrawList, hi]; exact .refused
    | some img =>
      obtain ⟨b, t, hd, k⟩ := drawUntilOk_spec (imageBuffer img) (s.setAddress a)
      have hs : Drawn s t := (Drawn.setAddress s a).trans k.drawn
      cases b with
      | false =>
        rw [redrawList_cons_false hi hd]
        exact .blocked hs hs.sys (State.img?_lt hi) nofun
      | true =>
        rw [redrawList_cons_true hi hd]
        have hr := ih t
        revert hr
        generalize redrawList as t = f
        intro hr
        cases hr with
        | done h k w => exact .done (hs.trans h) (k.trans hs.sys) (w.trans hs.work)
        | fatal h hp hc hw => exact .fatal (hs.trans h) hp (fun hp => hc (by rw [hs.sys]; exact hp)) hw
        | blocked h k ha hl => exact .blocked (hs.trans h) (k.trans hs.sys) (by rw [← hs.hdr]; exact ha) hl
        | refused => exact .refused

theorem retryDraw_flow (a : Nat) (s : State) : FlowEnd Drawn [] s (retryDraw a s) := by
  cases hi : s.img? a with
  | none => simp only [retryDraw, hi]; exact .refused
  | some img =>
    obtain ⟨b, t, hd, k⟩ := drawUntilOk_spec (imageBuffer img) s
    have hs : Drawn s t := k.drawn
    cases b with
    | false =>
      rw [retryDraw_false hi hd]
      exact .blocked hs hs.sys (State.img?_lt hi) nofun
    | true =>
      rw [retryDraw_true hi hd]
      have hr := redrawList_flow (List.range' (a + 1) (t.hdr.bdCount - (a + 1))) t
      revert hr
      generalize redrawList _ t = f
      intro hr
      cases hr with
      | done h k w => exact .done (hs.trans h) (k.trans hs.sys) (w.trans hs.work)
      | fatal h hp hc hw => exact .fatal (hs.trans h) hp (fun hp => hc (by rw [hs.sys]; exact hp)) hw
      | blocked h k ha hl => exact .blocked (hs.trans h) (k.trans hs.sys) (by rw [← hs.hdr]; exact ha) hl
      | refused => exact .refused

theorem Failed.acted {s t : State} (h : Failed s t) : Acted [] s t :=
  { h.toSameButPage with loaded := fun hp => h.toSameButPage.pageLoaded hp (h.page ▸ hp.page), events := h.events }

theorem changePage_flow (k : Nat) (s : State) : FlowEnd (Acted []) [] s (changePage k s) := by
  unfold changePage
  cases hl : loadPage k s with
  | fatal t =>
    have hf := loadPage_fatal hl
    exact .fatal hf.acted hf.phase hf.cause hf.work
  | ok u t =>
    obtain ⟨hm, hsys, hwork, -, -, hpage⟩ := loadPage_ok hl
    have ha : Acted [] s t :=
      { hm.toSameButPage with
        loaded := fun hp => hm.toSameButPage.pageLoaded hp (by rw [hpage]; exact afterLoad_holds s k), events := hm.events }
    have hr := redrawList_flow (List.range t.hdr.bdCount) t
    simp only [redrawAll]
    revert hr
    generalize redrawList _ t = f
    intro hr
    cases hr with
    | done h x w => exact .done (ha.trans h.acted) (x.trans hsys) (w.trans hwork)
    | fatal h hp hc hw => exact .fatal (ha.trans h.acted) hp (fun hp => hc (by rw [hsys]; exact hp)) hw
    | blocked h x hb hl => exact .blocked (ha.trans h.acted) (x.trans hsys) (by rw [← hm.hdr]; exact hb) hl
    | refused => exact .refused

theorem actOnSlot_flow (slot : SlotName) (s : State) : FlowEnd (Acted []) [] s (actOnSlot slot s) := by
  unfold actOnSlot
  split
  · exact .refused
  · unfold actOn
    split
    · exact changePage_flow _ s
    all_goals exact .done (Drawn.refl s).acted rfl rfl

theorem dispatch_flow {e : Event} (he : e ≠ .idle) (s : State) : FlowEnd (Acted []) [] s (dispatch e s) := by
  cases e with
  | idle => exact absurd rfl he
  | _ => exact actOnSlot_flow _ s

theorem Acted.record (s : State) (e : Event) : Acted [e] s (s.record (.emit e)) :=
  { State.SameButPage.refl s with loaded := fun h => ⟨h.page, h.cursor⟩, events := ⟨[.emit e], rfl, rfl⟩ }

/-- An emitted event that is not `Idle`: its record, and an action that emits nothing more. -/
theorem emit_flow {e : Event} (he : e ≠ .idle) (s : State) : FlowEnd (Acted [e]) [] s (emit e s) := by
  have h := dispatch_flow he (s.record (.emit e))
  unfold emit
  revert h
  generalize dispatch e (s.record (.emit e)) = f
  intro h
  have hr := Acted.record s e
  cases h with
  | done h x w => exact .done (hr.trans h) x w
  | fatal h hp hc hw => exact .fatal (hr.trans h) hp hc hw
  | blocked h x hb hl => exact .blocked (hr.trans h) x hb hl
  | refused => exact .refused

/-! ### Tasks -/

/-- What tasks can do: nothing but the page, the cursor and the end of the invocation. -/
structure Worked (s t : State) : Prop where
  same : State.SameButPage { s with fsm := t.fsm, disp := t.disp } t
  loaded : s.PageLoaded → t.PageLoaded
  fsm : t.fsm = s.fsm ∨ t.fsm = s.finish.fsm

theorem Worked.refl (s : State) : Worked s s := ⟨State.SameButPage.refl s, id, .inl rfl⟩

theorem Worked.trans {s t u : State} (h : Worked s t) (k : Worked t u) : Worked s u := by
  refine ⟨?_, fun hp => k.loaded (h.loaded hp), ?_⟩
  · have a := h.same
    have b := k.same
    exact
      { fsm := rfl, hdr := b.hdr.trans a.hdr, disp := rfl, blob := b.blob.trans a.blob, len := b.len.trans a.len
        cfg := b.cfg.trans a.cfg, calls := b.calls.trans a.calls, ret := b.ret.trans a.ret, pins := b.pins.trans a.pins
        clock := b.clock.trans a.clock, now := b.now.trans a.now, pin := b.pin.trans a.pin }
  · rcases h.fsm with h | h <;> rcases k.fsm with k | k <;> simp [h, k]

/-- The same, and the cursor stays. -/
def WorkedInPlace (s t : State) : Prop := Worked s t ∧ t.disp = s.disp

theorem Acted.worked {es : List Event} {s t : State} (h : Acted es s t) : WorkedInPlace s t :=
  ⟨⟨{ h.toSameButPage with fsm := rfl, disp := rfl }, h.loaded, .inl h.fsm⟩, h.disp⟩

theorem Worked.finish (s : State) : WorkedInPlace s s.finish :=
  ⟨⟨State.SameButPage.refl _, fun h => ⟨h.page, h.cursor⟩, .inr rfl⟩, rfl⟩

theorem runTask_flow {t : Task} (ht : t ≠ .emit .idle) (s : State) : FlowEnd WorkedInPlace [] s (runTask t s) := by
  cases t with
  | emit e => exact (emit_flow (by rintro rfl; exact ht rfl) s).mono fun _ h => h.worked
  | retry a => exact (retryDraw_flow a s).mono fun _ h => h.acted.worked
  | finish => exact .done (Worked.finish s) rfl rfl

theorem idleAction_flow (s : State) : FlowEnd Worked [] s (idleAction s) := by
  unfold idleAction
  split
  · exact .refused
  · rename_i h0
    exact .done
      ⟨⟨rfl, rfl, rfl, rfl, rfl, rfl, rfl, rfl, rfl, rfl, rfl, rfl⟩,
        fun h => ⟨h.page, Nat.mod_lt _ (Nat.pos_of_ne_zero h0)⟩, .inl rfl⟩ rfl rfl

theorem emit_idle_flow (s : State) : FlowEnd Worked [] s (emit .idle s) := by
  have h := idleAction_flow (s.record (.emit .idle))
  show FlowEnd Worked [] s (idleAction (s.record (.emit .idle)))
  revert h
  generalize idleAction (s.record (.emit .idle)) = f
  intro h
  have hr := (Acted.record s .idle).worked.1
  cases h with
  | done h x w => exact .done (hr.trans h) x w
  | fatal h hp hc hw => exact .fatal (hr.trans h) hp hc hw
  | blocked h x hb hl => exact .blocked (hr.trans h) x hb hl
  | refused => exact .refused

theorem runTask_worked (t : Task) (s : State) : FlowEnd Worked [] s (runTask t s) := by
  by_cases ht : t = .emit .idle
  · subst ht; exact emit_idle_flow s
  · exact (runTask_flow ht s).mono fun _ h => h.1

/-- A list of tasks does what its tasks do. -/
theorem runTasks_flow {R : State → State → Prop} (refl : ∀ s, R s s) (trans : ∀ s t u, R s t → R t u → R s u)
    (hdr : ∀ s t, R s t → t.hdr = s.hdr) {ts : List Task} (ht : ∀ t ∈ ts, ∀ s, FlowEnd R [] s (runTask t s)) (s : State) :
    FlowEnd R ts s (runTasks ts s) := by
  induction ts generalizing s with
  | nil => exact .done (refl s) rfl rfl
  | cons t ts ih =>
    have h := ht t (by simp) s
    rw [runTasks_cons]
    revert h
    generalize runTask t s = f
    intro h
    cases h with
    | @done u h x w =>
      have k := ih (fun t h => ht t (by simp [h])) u
      simp only
      revert k
      generalize runTasks ts u = g
      intro k
      cases k with
      | done k y z => exact .done (trans _ _ _ h k) (y.trans x) (z.trans w)
      | fatal k hp hc hw => exact .fatal (trans _ _ _ h k) hp (fun hp => hc (by rw [x]; exact hp)) hw
      | blocked k y hb hl =>
        exact .blocked (trans _ _ _ h k) (y.trans x) (by rw [← hdr _ _ h]; exact hb) fun x hx => List.mem_cons_of_mem _ (hl x hx)
      | refused => exact .refused
    | fatal h hp hc hw => exact .fatal h hp hc hw
    | @blocked _ _ us h x hb hl =>
      refine .blocked h x hb fun y hy => ?_
      rcases List.mem_append.mp hy with hy | hy
      · cases hl y hy
      · exact List.mem_cons_of_mem _ hy
    | refused => exact .refused

theorem runTasks_worked (ts : List Task) (s : State) : FlowEnd Worked ts s (runTasks ts s) :=
  runTasks_flow Worked.refl (fun _ _ _ => Worked.trans) (fun _ _ h => h.same.hdr) (fun t _ s => runTask_worked t s) s

theorem runTasks_inPlace {ts : List Task} (h : Task.emit .idle ∉ ts) (s : State) : FlowEnd WorkedInPlace ts s (runTasks ts s) :=
  runTasks_flow (fun s => ⟨Worked.refl s, rfl⟩) (fun _ _ _ h k => ⟨h.1.trans k.1, k.2.trans h.2⟩) (fun _ _ h => h.1.same.hdr)
    (fun _ ht s => runTask_flow (fun e => h (e ▸ ht)) s) s

/-! ### Nothing is refused on a loaded page -/

theorem runTask_not_refused {t : Task} {s : State} (h : s.PageLoaded) (ha : ∀ a, t = .retry a → a < s.hdr.bdCount) (r : Refusal) :
    runTask t s ≠ .refused r := by
  intro hr
  cases t with
  | emit e =>
    by_cases he : e = .idle
    · subst he
      have h0 : s.hdr.bdCount ≠ 0 := by have := h.cursor; omega
      simp [runTask, emit, dispatch, idleAction, h0] at hr
    · have k := dispatch_end he (s := s.record (.emit e)) ⟨h.page, h.cursor⟩
      rw [show dispatch e (s.record (.emit e)) = .refused r from hr] at k
      cases k
  | retry a =>
    have k := retryDraw_end h.page (ha a rfl)
    rw [show retryDraw a s = .refused r from hr] at k
    cases k
  | finish => cases hr

theorem runTasks_not_refused {ts : List Task} {s : State} (h : s.PageLoaded) (ha : ∀ a, Task.retry a ∈ ts → a < s.hdr.bdCount)
    (r : Refusal) : runTasks ts s ≠ .refused r := by
  induction ts generalizing s with
  | nil => exact nofun
  | cons t ts ih =>
    have k := runTask_worked t s
    have n := runTask_not_refused h (t := t) (fun a e => ha a (by simp [e])) r
    rw [runTasks_cons]
    revert k n
    generalize runTask t s = f
    intro k n
    cases k with
    | done k => exact ih (k.loaded h) (fun a m => by rw [k.same.hdr]; exact ha a (by simp [m]))
    | fatal => exact nofun
    | blocked => exact nofun
    | refused => simpa using n

end Sys2Proof.Machine
end

