-- ==== Sys2Proof/Laws/Steps.lean ====
section
/-! SUPPORT. What an operation and a step can do when they answer a next state. -/

namespace Sys2Proof.Machine

/-! ### The end of an action as the end of a step -/

/-- How an action's state `t` stands to the state `s` it began in: `R` relates them, the phase tells how it ended, and only tasks in
`left` wait for the display. -/
inductive Ended (R : State → State → Prop) (left : Task → Prop) (s t : State) : Prop where
  | done (h : R s t) (hs : t.sys = s.sys) (hw : t.work = s.work)
  | fatal (h : R s t) (hp : t.sys.phase = .fatal) (hc : s.sys.phase ≠ .fatal → t.sys.cause ≠ none) (hw : t.work = [])
  | blocked (u : State) (h : R s u) (hs : u.sys = s.sys) (a : Nat) (ts : List Task) (ha : a < s.hdr.bdCount)
      (hl : ∀ x ∈ ts, left x) (ht : t = { u with work := .retry a :: ts })

theorem FlowEnd.ended {R : State → State → Prop} {ts : List Task} {s t : State} {f : Flow} (h : FlowEnd R ts s f)
    {left : Task → Prop} (hl : ∀ x ∈ ts, left x) (ht : f.toResult = .next t) : Ended R left s t := by
  cases h with
  | done h hs hw => obtain ⟨⟩ := ht; exact .done h hs hw
  | fatal h hp hc hw => obtain ⟨⟩ := ht; exact .fatal h hp hc hw
  | blocked h hs ha hm => obtain ⟨⟩ := ht; exact .blocked _ h hs _ _ ha (fun x hx => hl x (hm x hx)) rfl
  | refused => cases ht

/-- The tasks that a transition can leave behind an unsuccessful draw: an event other than `Idle`, or the invocation's end. -/
def Task.isLater : Task → Bool
  | .emit e => e != .idle
  | .retry _ => false
  | .finish => true

abbrev Task.Later (t : Task) : Prop := t.isLater = true

/-! ### Transitions -/

/-- The FSM when a transition's action begins. -/
def fsmAfter (t : Transition) (s : State) : Fsm :=
  match t with
  | .startIsUp => { s.fsm with state := .start, busy := false }
  | .startIsDown => { s.fsm with pressTs := some s.env.now, state := .down }
  | .downHeldLong => { s.fsm with state := .downButWaiting }
  | .downStillDown => { s.fsm with state := .down }
  | .downAnyUp => { s.fsm with state := .up }
  | .downButWaitingStillDown => { s.fsm with state := .downButWaiting }
  | .downButWaitingReleased => { s.fsm with state := .up }
  | .upUpAfterLong => s.fsm
  | .upShortHeld => s.fsm
  | .upShortUp => s.fsm

@[simp] theorem fsmAfter_hasSec (t : Transition) (s : State) : (fsmAfter t s).hasSec = s.fsm.hasSec := by cases t <;> rfl

/-- What a transition does: it is the one selected, changes the FSM, and works from there. Only `Start/IsUp` moves the cursor. -/
def Transitioned (t : Transition) (s u : State) : Prop :=
  s.Open ∧ s.fsm.busy = true ∧ s.elapsedStop = none ∧ decodeDecider s.deciderWord = t ∧
  Ended Worked Task.Later { s with fsm := fsmAfter t s } u ∧ (t ≠ .startIsUp → Ended WorkedInPlace Task.Later { s with fsm := fsmAfter t s } u)

theorem Ended.of_inPlace {s t : State} (h : Ended WorkedInPlace Task.Later s t) : Ended Worked Task.Later s t := by
  cases h with
  | done h hs hw => exact .done h.1 hs hw
  | fatal h hp hc hw => exact .fatal h.1 hp hc hw
  | blocked u h hs a ts ha hl ht => exact .blocked u h.1 hs a ts ha hl ht

theorem Ended.refl (s : State) : Ended WorkedInPlace Task.Later s s := .done ⟨Worked.refl s, rfl⟩ rfl rfl

theorem Transitioned.inPlace {t : Transition} {s u : State} {k : Result} (h : s.whenSelected t k = .next u)
    (hk : k = .next u → Ended WorkedInPlace Task.Later { s with fsm := fsmAfter t s } u) : Transitioned t s u :=
  have ⟨ho, hb, he, hd, hu⟩ := State.whenSelected_next.mp h
  ⟨ho, hb, he, hd, (hk hu).of_inPlace, fun _ => hk hu⟩

theorem emit_ended {e : Event} (he : e ≠ .idle) {s u : State} (h : (emit e s).toResult = .next u) : Ended WorkedInPlace Task.Later s u :=
  ((emit_flow he s).mono fun _ h => h.worked).ended nofun h

theorem runTransition_next {t : Transition} {s u : State} (h : runTransition t s = .next u) : Transitioned t s u := by
  cases t with
  | startIsUp =>
    obtain ⟨ho, hb, he, hd, hk⟩ := State.whenSelected_next.mp h
    exact ⟨ho, hb, he, hd, (emit_idle_flow _).ended nofun hk, fun h => absurd rfl h⟩
  | startIsDown =>
    refine .inPlace h fun hk => ?_
    split at hk
    · obtain ⟨⟩ := hk
      exact Ended.refl _
    · exact emit_ended (by decide) hk
  | downHeldLong => exact .inPlace h fun hk => emit_ended (by decide) hk
  | downStillDown => exact .inPlace h fun hk => by obtain ⟨⟩ := hk; exact Ended.refl _
  | downAnyUp => exact .inPlace h fun hk => by obtain ⟨⟩ := hk; exact Ended.refl _
  | downButWaitingStillDown => exact .inPlace h fun hk => by obtain ⟨⟩ := hk; exact Ended.refl _
  | downButWaitingReleased => exact .inPlace h fun hk => by obtain ⟨⟩ := hk; exact Ended.refl _
  | upUpAfterLong => exact .inPlace h fun hk => by obtain ⟨⟩ := hk; exact .done (Worked.finish s) rfl rfl
  | upShortHeld => exact .inPlace h fun hk => (runTasks_inPlace (by decide) s).ended (by decide) hk
  | upShortUp =>
    refine .inPlace h fun hk => (runTasks_inPlace ?_ s).ended ?_ hk <;>
      cases s.cfg.shortUpSymbol <;> decide

/-! ### Samples -/

/-- A sample changes the environment's answers and the trace only, and the time does not go back. -/
structure Sampled (s t : State) : Prop where
  same : t = { s with env := t.env, trace := t.trace }
  now : s.env.now ≤ t.env.now
  pin : s.fsm.state ≠ .up → t.env.pin = s.env.pins.take.1

theorem State.sample_ok {s t : State} (h : s.sample = .ok t) : Sampled s t := by
  unfold State.sample at h
  split at h
  · cases h
  · rename_i hn
    have hn' := Nat.not_lt.mp hn
    split at h <;> obtain ⟨⟩ := h
    · exact ⟨rfl, hn', fun _ => rfl⟩
    · exact ⟨rfl, hn', fun _ => rfl⟩
    · exact ⟨rfl, hn', fun _ => rfl⟩
    · rename_i hs
      exact ⟨rfl, hn', fun h => absurd hs h⟩

theorem State.sample_of_monotone {s : State} (h : s.ClockMonotone) : ∃ t, s.sample = .ok t := by
  have : ¬ s.readClock.env.now < s.env.now := Nat.not_lt.mpr h
  unfold State.sample
  rw [if_neg this]
  cases s.fsm.state <;> exact ⟨_, rfl⟩

theorem execEvaluate_next {s u : State} (h : execEvaluate s = .next u) :
    s.Open ∧ s.fsm.busy = true ∧ ∃ t, s.sample = .ok t ∧ Transitioned (decodeDecider t.deciderWord) t u := by
  obtain ⟨ho, hk⟩ := State.whenReady_next.mp h
  split at hk
  · cases hk
  · rename_i hb
    split at hk
    · cases hk
    · rename_i t ht
      exact ⟨ho, by simpa using hb, t, ht, runTransition_next hk⟩

/-! ### Header and boot -/

theorem decodeHeader_ok {hb : List Byte} {s t : State} {u : Unit} (h : decodeHeader hb s = .ok u t) :
    t = { s with hdr := t.hdr } ∧ t.hdr.Decoded := by
  unfold decodeHeader at h
  dsimp only at h
  split at h
  · cases h
  · rename_i h0
    split at h
    · cases h
    · rename_i ho
      obtain ⟨⟩ := h
      exact ⟨rfl, rfl, Nat.pos_of_ne_zero h0, Nat.not_lt.mp ho, rfl⟩

theorem decodeHeader_fatal {hb : List Byte} {s t : State} (h : decodeHeader hb s = .fatal t) :
    ∃ d : Hdr, t = State.raiseFatal { s with hdr := d } .formatError := by
  unfold decodeHeader at h
  dsimp only at h
  split at h
  · obtain ⟨⟩ := h; exact ⟨_, rfl⟩
  · split at h
    · obtain ⟨⟩ := h; exact ⟨_, rfl⟩
    · cases h

/-- What a page load does. -/
def Loaded (s t : State) : Prop :=
  s.SameButPage t ∧
  (t.sys = s.sys ∧ t.work = s.work ∧ t.page.Holds s.cfg s.hdr.bdCount ∨
    t.sys.phase = .fatal ∧ (s.sys.phase ≠ .fatal → t.sys.cause ≠ none) ∧ t.work = [] ∧ t.page = s.page)

theorem loadPage_toResult {k : Nat} {s t : State} (h : (loadPage k s).toResult = .next t) : Loaded s t := by
  cases hl : loadPage k s with
  | ok u v =>
    rw [hl] at h
    obtain ⟨⟩ := h
    obtain ⟨hm, hsys, hwork, -, -, hpage⟩ := loadPage_ok hl
    exact ⟨hm.toSameButPage, .inl ⟨hsys, hwork, by rw [hpage]; exact afterLoad_holds s k⟩⟩
  | fatal v =>
    rw [hl] at h
    obtain ⟨⟩ := h
    have hf := loadPage_fatal hl
    exact ⟨hf.toSameButPage, .inr ⟨hf.phase, hf.cause, hf.work, hf.page⟩⟩

/-- What a boot does: it is fatal, or a valid header is decoded and page 0 loaded. -/
def Booted (s t : State) : Prop :=
  State.SameButPage { s with hdr := t.hdr } t ∧
  (t.sys.phase = .fatal ∧ t.sys.cause ≠ none ∧ t.work = [] ∨
    t.sys.phase = .ready ∧ t.sys.cause = s.sys.cause ∧ t.work = s.work ∧ t.hdr.Decoded ∧
      t.hdr.bdCount ≤ 2 ^ t.cfg.muxAddrWidth ∧ t.page.Holds t.cfg t.hdr.bdCount)

theorem execNew_next {s t : State} (h : execNew s = .next t) : s.sys.phase = .uninit ∧ s.cfg.Valid ∧ Booted s t := by
  obtain ⟨ha, hk⟩ := State.whenAlive_next.mp h
  split at hk
  · cases hk
  · rename_i hr
    have hu : s.sys.phase = .uninit := by
      cases hp : s.sys.phase with
      | uninit => rfl
      | ready => exact absurd hp hr
      | fatal => exact absurd hp ha.1
    refine ⟨hu, ha.2, ?_⟩
    split at hk
    · cases hk
    · split at hk
      · rename_i u hrd
        obtain ⟨⟩ := hk
        have hf := streamRead_fatal hrd
        exact ⟨{ hf.toSameButPage with hdr := rfl }, .inl ⟨hf.phase, hf.cause ha.1, hf.work⟩⟩
      · rename_i hb u hrd
        have hs := (streamRead_ok hrd).1
        split at hk
        · rename_i v hdec
          obtain ⟨⟩ := hk
          obtain ⟨d, rfl⟩ := decodeHeader_fatal hdec
          refine ⟨{ hs.toSameButPage with hdr := rfl }, .inl ⟨rfl, ?_, rfl⟩⟩
          simp [hs.sys, hu]
        · rename_i x v hdec
          obtain ⟨hv, hd⟩ := decodeHeader_ok hdec
          have hsv : State.SameButPage { s with hdr := v.hdr } v := by
            rw [hv]
            exact { hs.toSameButPage with hdr := rfl }
          have hsys : v.sys = s.sys := by rw [hv]; exact hs.sys
          have hwork : v.work = s.work := by rw [hv]; exact hs.work
          unfold bootPage at hk
          split at hk
          · rename_i hm
            split at hk
            · rename_i w hl
              obtain ⟨⟩ := hk
              have hf := loadPage_fatal hl
              refine ⟨?_, .inl ⟨hf.phase, hf.cause (by rw [hsys]; exact ha.1), hf.work⟩⟩
              rw [hf.hdr]
              exact hsv.trans hf.toSameButPage
            · rename_i y w hl
              obtain ⟨⟩ := hk
              obtain ⟨hw, hsysw, hworkw, -, -, hpage⟩ := loadPage_ok hl
              have hh : w.hdr = v.hdr := hw.hdr
              refine ⟨?_, .inr ⟨rfl, ?_, hworkw.trans hwork, ?_, ?_, ?_⟩⟩
              · rw [State.setReady_hdr, hh]
                exact { hsv.trans hw.toSameButPage with }
              · simp [hsysw, hsys]
              · rw [State.setReady_hdr, hh]; exact hd
              · rw [State.setReady_hdr, hh, State.setReady_cfg, hw.cfg]; exact hm
              · rw [State.setReady_hdr, hh, State.setReady_cfg, hw.cfg, State.setReady_page, hpage]
                exact afterLoad_holds v 0
          · cases hk

/-! ### Every operation -/

/-- What an operation other than a reset can do when it answers a next state. -/
inductive Effect (i : Instr) (s t : State) : Prop where
  /-- A pure operation of the decoder (R163). -/
  | returned (h : t = { s with ret := t.ret })
  | raised (c : Cause) (h : t = s.raiseFatal c)
  /-- A header block. -/
  | header (hi : ∃ bs, i = .header bs) (hu : s.sys.phase = .uninit)
      (h : t = { s with hdr := t.hdr } ∧ t.hdr.Decoded ∨ ∃ d : Hdr, t = State.raiseFatal { s with hdr := d } .formatError)
  | booted (hi : i = .opNew) (hu : s.sys.phase = .uninit) (h : Booted s t)
  | loaded (hi : ∃ k, i = .loadPage k) (ha : s.sys.phase ≠ .fatal) (hw : s.work = []) (h : Loaded s t)
  | invoked (hi : i = .invoke) (ho : s.Open) (hb : s.fsm.busy = false) (sec : Bool)
      (h : t = { s.setAddress s.disp.cursor with fsm := { s.fsm with hasSec := sec, state := .start, busy := true } })
  | evaluated (hi : i = .evaluate) (ho : s.Open) (hb : s.fsm.busy = true) (u : State) (hs : s.sample = .ok u)
      (h : Transitioned (decodeDecider u.deciderWord) u t)
  | transitioned (tr : Transition) (hi : i = tr.instr) (h : Transitioned tr s t)
  /-- An event's action, a page change or a redraw. -/
  | worked (ho : s.Open) (h : Ended Worked Task.Later s t) (hd : i ≠ .eventIdle → t.disp = s.disp) (hf : t.fsm = s.fsm)

theorem Ended.disp {s t : State} (h : Ended WorkedInPlace Task.Later s t) : t.disp = s.disp := by
  cases h with
  | done h => exact h.2
  | fatal h => exact h.2
  | blocked u h hs a ts ha hl ht => rw [ht]; exact h.2

theorem Ended.of_acted {es : List Event} {s t : State} (h : Ended (Acted es) Task.Later s t) :
    Ended Worked Task.Later s t ∧ t.disp = s.disp ∧ t.fsm = s.fsm := by
  cases h with
  | done h hs hw => exact ⟨.done h.worked.1 hs hw, h.disp, h.fsm⟩
  | fatal h hp hc hw => exact ⟨.fatal h.worked.1 hp hc hw, h.disp, h.fsm⟩
  | blocked u h hs a ts ha hl ht => subst ht; exact ⟨.blocked u h.worked.1 hs a ts ha hl rfl, h.disp, h.fsm⟩

theorem Effect.of_returning {i j : Instr} {s t : State} {v : Returned} (h : s.returning j v = .next t) : Effect i s t :=
  .returned (by rw [(State.returning_next.mp h).2.2])

theorem Effect.of_flow {i : Instr} {s t : State} {f : Flow} (hf : FlowEnd (Acted []) [] s f) (h : s.whenReady f.toResult = .next t) :
    Effect i s t :=
  have ⟨ho, hk⟩ := State.whenReady_next.mp h
  have ⟨a, b, c⟩ := (hf.ended nofun hk).of_acted
  .worked ho a (fun _ => b) c

theorem exec_next {i : Instr} {s t : State} (h : exec i s = .next t) (hr : i ≠ .reset) : Effect i s t := by
  cases i with
  | startIsUp => exact .transitioned .startIsUp rfl (runTransition_next h)
  | startIsDown => exact .transitioned .startIsDown rfl (runTransition_next h)
  | downHeldLong => exact .transitioned .downHeldLong rfl (runTransition_next h)
  | downStillDown => exact .transitioned .downStillDown rfl (runTransition_next h)
  | downAnyUp => exact .transitioned .downAnyUp rfl (runTransition_next h)
  | downButWaitingStillDown => exact .transitioned .downButWaitingStillDown rfl (runTransition_next h)
  | downButWaitingReleased => exact .transitioned .downButWaitingReleased rfl (runTransition_next h)
  | upUpAfterLong => exact .transitioned .upUpAfterLong rfl (runTransition_next h)
  | upShortHeld => exact .transitioned .upShortHeld rfl (runTransition_next h)
  | upShortUp => exact .transitioned .upShortUp rfl (runTransition_next h)
  | slotPressKeys hi payload => exact .of_returning h
  | slotChangePage hi payload => exact .of_returning h
  | slotNoFunction hi payload => exact .of_returning h
  | slotPressSpecialKey hi payload => exact .of_returning h
  | slotSendText hi payload => exact .of_returning h
  | slotSetSetting hi payload => exact .of_returning h
  | slotCommunicateToHost hi payload => exact .of_returning h
  | slotUnknownLow hi c payload => exact .of_returning h
  | slotUnknownHigh hi c payload => exact .of_returning h
  | hasSecondary mode => exact .of_returning h
  | row bytes => exact .of_returning h
  | image bytes => exact .of_returning h
  | eventIdle =>
    obtain ⟨ho, hk⟩ := State.whenReady_next.mp h
    refine .worked ho ((idleAction_flow s).ended nofun hk) (fun h => absurd rfl h) ?_
    change (idleAction s).toResult = _ at hk
    unfold idleAction at hk
    split at hk
    · cases hk
    · obtain ⟨⟩ := hk; rfl
  | eventShortDown => exact .of_flow (dispatch_flow (by decide) s) h
  | eventShortUp => exact .of_flow (dispatch_flow (by decide) s) h
  | eventShortTriggered => exact .of_flow (dispatch_flow (by decide) s) h
  | eventLongTriggered => exact .of_flow (dispatch_flow (by decide) s) h
  | changePage page => exact .of_flow (changePage_flow _ s) h
  | redrawAll => exact .of_flow ((redrawList_flow _ s).mono fun _ h => h.acted) h
  | header bytes =>
    obtain ⟨ha, hk⟩ := State.whenAlive_next.mp h
    split at hk
    · cases hk
    · rename_i hp
      have hu : s.sys.phase = .uninit := by
        cases hq : s.sys.phase with
        | uninit => rfl
        | ready => exact absurd hq hp
        | fatal => exact absurd hq ha.1
      split at hk
      · cases hd : decodeHeader bytes s with
        | ok u v =>
          rw [hd] at hk
          obtain ⟨⟩ := hk
          exact .header ⟨_, rfl⟩ hu (.inl (decodeHeader_ok hd))
        | fatal v =>
          rw [hd] at hk
          obtain ⟨⟩ := hk
          exact .header ⟨_, rfl⟩ hu (.inr (decodeHeader_fatal hd))
      · cases hk
  | invoke =>
    obtain ⟨ho, hk⟩ := State.whenReady_next.mp h
    split at hk
    · cases hk
    · rename_i hb
      split at hk
      · cases hk
      · obtain ⟨⟩ := hk
        exact .invoked rfl ho (by simpa using hb) _ rfl
  | evaluate =>
    obtain ⟨ho, hb, u, hs, hk⟩ := execEvaluate_next h
    exact .evaluated rfl ho hb u hs hk
  | opNew =>
    obtain ⟨hu, -, hb⟩ := execNew_next h
    exact .booted rfl hu hb
  | loadPage page =>
    obtain ⟨ha, hk⟩ := State.whenAlive_next.mp h
    split at hk
    · cases hk
    · rename_i hw
      split at hk
      · cases hk
      · exact .loaded ⟨_, rfl⟩ ha.1 (by simpa using hw) (loadPage_toResult hk)
  | slotFunction slot button =>
    obtain ⟨ho, hk⟩ := State.whenReady_next.mp h
    split at hk
    · cases hk
    · obtain ⟨⟩ := hk; exact .returned rfl
  | isLive button =>
    obtain ⟨ho, hk⟩ := State.whenReady_next.mp h
    split at hk
    · cases hk
    · obtain ⟨⟩ := hk; exact .returned rfl
  | raiseFatal cause => obtain ⟨⟩ := h; exact .raised cause rfl
  | reset => exact absurd rfl hr

end Sys2Proof.Machine
end

