-- ==== Sys2Proof/Tests/Slice0.lean ====
section
/-! SUPPORT. Tests. Expected results are those of spec/95_test_vectors.md (vector names K, S, L, H, F, A, M and programs P), over its 96-byte blob;
then, for each obligation with hypotheses, a state and operands that meet them all together. -/

namespace Sys2Proof.Tests

open Machine

/-! ### The blob of 95_test_vectors.md section 4, and its state S0 -/

def headerBlock : List Byte := [0x02, 0x01, 0x05, 0, 0, 0, 0, 0, 0, 0, 0, 0, 0, 0, 0, 0]
def row00 : List Byte := [0x01, 0x01, 0, 0, 0, 0, 0, 0, 0x02, 0, 0, 0, 0, 0, 0, 0]
def row01 : List Byte := [0x00, 0x04, 0x05, 0, 0, 0x02, 0, 0, 0x01, 0x01, 0, 0, 0, 0, 0, 0]
def row10 : List Byte := [0x00, 0x1E, 0, 0, 0, 0, 0, 0, 0x02, 0, 0, 0, 0, 0, 0, 0]
def row11 : List Byte := [0x01, 0x00, 0, 0, 0, 0, 0, 0, 0x12, 0, 0, 0, 0, 0, 0, 0]
def images : List Byte := [0x00, 0xA0, 0xA1, 0xA2, 0x01, 0xB0, 0xB1, 0xB2, 0x00, 0xC0, 0xC1, 0xC2, 0x00, 0xD0, 0xD1, 0xD2]
def blobBytes : List Byte := headerBlock ++ row00 ++ row01 ++ row10 ++ row11 ++ images

/-- Right after reset, with the blob in place. -/
def U0 : State := { State.reset with stream := { blob := Mem.ofBytes 0 blobBytes, len := 96, pos := 0 } }

/-- S0 of section 4: booted, page 0. -/
def S0 : State :=
  { U0 with
    sys := { phase := .ready, cause := none }
    hdr := { width := 2, height := 1, offset := 5, bdCount := 2, pageCount := 2 }
    page := { rows := [row00, row01], imgs := [[0x00, 0xA0, 0xA1, 0xA2], [0x01, 0xB0, 0xB1, 0xB2]], index := 0 }
    stream := { U0.stream with pos := 88 } }

/-- S0 with page 1 loaded (the end of P2), the cursor on button `c`. -/
def S1 (c : Nat) : State :=
  { S0 with
    page := { rows := [row10, row11], imgs := [[0x00, 0xC0, 0xC1, 0xC2], [0x00, 0xD0, 0xD1, 0xD2]], index := 1 }
    disp := { cursor := c } }

/-- `s` inside an invocation, with the sample `(now, pin)` taken. -/
def inside (s : State) (state : FsmState) (sec : Bool) (ts : Option Nat) (now : Nat) (pin : Pin) : State :=
  { s with fsm := { state := state, busy := true, pressTs := ts, hasSec := sec }, env := { s.env with now := now, pin := pin } }

/-- S0 on button 1. -/
def S0' : State := { S0 with disp := { cursor := 1 } }

/-- The blob without its last image (P6a). -/
def short (s : State) : State := { s with stream := { s.stream with len := 92 } }

/-- What holds of the next state; false of a fault or a refusal. -/
def after (r : Result) (f : State → Bool) : Bool :=
  match r with
  | .next s => f s
  | .fault _ => false
  | .refused _ => false

/-- The value that the operation which the bytes are returns. -/
def returnedBy (w : OpWord) : Option Returned :=
  match decode S0.cfg w with
  | .ok i =>
    match exec i S0 with
    | .next s => s.ret
    | .fault _ => none
    | .refused _ => none
  | .error _ => none

def loadOfPage1 : List TraceRecord :=
  [.seek 48 true, .read 16 .ok, .read 16 .ok, .seek 88 true, .read 4 .ok, .read 4 .ok]

def redrawOfPage1 : List TraceRecord :=
  [.setAddress 0, .draw [0xC0, 0xC1, 0xC2] true, .setAddress 1, .draw [0xD0, 0xD1, 0xD2] true]

/-! ### Well-formedness: what each check refuses -/

theorem test_wellFormed_payload_length :
    [Instr.slotPressKeys 0 [1], .slotChangePage 0 [], .slotNoFunction 0 [0, 0], .slotPressSpecialKey 0 (List.replicate 8 0),
      .slotSendText 0 [], .slotSetSetting 0 [], .slotCommunicateToHost 0 [], .slotUnknownLow 0 7 [], .slotUnknownHigh 0 0 []].all
      (fun i => !i.WellFormed Params.default) = true := by decide

/-- Codes 6 and 1 are assigned; 7 and 8 are not. -/
theorem test_wellFormed_unknown_code :
    Instr.WellFormed Params.default (.slotUnknownLow 0 6 (List.replicate 7 0)) = false ∧
    Instr.WellFormed Params.default (.slotUnknownLow 0 7 (List.replicate 7 0)) = true ∧
    Instr.WellFormed { Params.default with modeSetSetting := 8 } (.slotUnknownHigh 0 0 (List.replicate 7 0)) = false ∧
    Instr.WellFormed Params.default (.slotUnknownHigh 0 0 (List.replicate 7 0)) = true := by decide

theorem test_wellFormed_block_length :
    Instr.WellFormed Params.default (.header (List.replicate 15 0)) = false ∧
    Instr.WellFormed Params.default (.row (List.replicate 17 0)) = false ∧
    Instr.WellFormed Params.default (.image [1, 2, 3]) = false ∧
    Instr.WellFormed Params.default (.image [1, 2, 3, 4]) = true := by decide

/-- R4: an odd row length, a row too short, an empty image, two equal mode codes. -/
theorem test_params_refused :
    [{ Params.default with rowLength := 15 }, { Params.default with rowLength := 6 }, { Params.default with imageLength := 0 },
      { Params.default with modeSendText := 1 }].all (fun p => !p.valid) = true ∧ Params.default.valid = true := by decide

/-! ### Decoding: words written out from the tables of 30_encoding.md -/

/-- R82 to R84: state bits, pin, has_sec, long. -/
theorem test_decode_transitions :
    decode S0.cfg ⟨.decider, [0b00_0_1_1]⟩ = .ok .startIsUp ∧ decode S0.cfg ⟨.decider, [0b00_1_0_0]⟩ = .ok .startIsDown ∧
    decode S0.cfg ⟨.decider, [0b01_1_1_1]⟩ = .ok .downHeldLong ∧ decode S0.cfg ⟨.decider, [0b01_1_0_0]⟩ = .ok .downStillDown ∧
    decode S0.cfg ⟨.decider, [0b01_0_1_0]⟩ = .ok .downAnyUp ∧
    decode S0.cfg ⟨.decider, [0b10_1_1_1]⟩ = .ok .downButWaitingStillDown ∧
    decode S0.cfg ⟨.decider, [0b10_0_1_1]⟩ = .ok .downButWaitingReleased ∧
    decode S0.cfg ⟨.decider, [0b11_0_1_1]⟩ = .ok .upUpAfterLong ∧ decode S0.cfg ⟨.decider, [0b11_0_1_0]⟩ = .ok .upShortHeld ∧
    decode S0.cfg ⟨.decider, [0b11_0_0_0]⟩ = .ok .upShortUp ∧ decode S0.cfg ⟨.decider, [0b00100000]⟩ = .error .deciderTooWide := by
  decide

/-- R73, R75, R76 and the default codes (log 2). -/
theorem test_decode_slots :
    decode S0.cfg ⟨.slot, [0x00, 1, 2, 3, 4, 5, 6, 7]⟩ = .ok (.slotPressKeys 0 [1, 2, 3, 4, 5, 6, 7]) ∧
    decode S0.cfg ⟨.slot, [0xF1, 5, 0, 0, 0, 0, 0, 0]⟩ = .ok (.slotChangePage 15 [5, 0, 0, 0, 0, 0, 0]) ∧
    decode S0.cfg ⟨.slot, [0x12, 0, 0, 0, 0, 0, 0, 0]⟩ = .ok (.slotNoFunction 1 [0, 0, 0, 0, 0, 0, 0]) ∧
    decode S0.cfg ⟨.slot, [0x03, 0, 0, 0, 0, 0, 0, 0]⟩ = .ok (.slotPressSpecialKey 0 [0, 0, 0, 0, 0, 0, 0]) ∧
    decode S0.cfg ⟨.slot, [0x04, 0, 0, 0, 0, 0, 0, 0]⟩ = .ok (.slotSendText 0 [0, 0, 0, 0, 0, 0, 0]) ∧
    decode S0.cfg ⟨.slot, [0x05, 0, 0, 0, 0, 0, 0, 0]⟩ = .ok (.slotSetSetting 0 [0, 0, 0, 0, 0, 0, 0]) ∧
    decode S0.cfg ⟨.slot, [0x06, 0, 0, 0, 0, 0, 0, 0]⟩ = .ok (.slotCommunicateToHost 0 [0, 0, 0, 0, 0, 0, 0]) ∧
    decode S0.cfg ⟨.slot, [0x27, 0, 0, 0, 0, 0, 0, 0]⟩ = .ok (.slotUnknownLow 2 7 [0, 0, 0, 0, 0, 0, 0]) ∧
    decode S0.cfg ⟨.slot, [0xFF, 0, 0, 0, 0, 0, 0, 0]⟩ = .ok (.slotUnknownHigh 15 7 [0, 0, 0, 0, 0, 0, 0]) ∧
    decode S0.cfg ⟨.slot, [0x01, 5]⟩ = .error .wrongLength := by decide

/-- R85. -/
theorem test_decode_events :
    decode S0.cfg ⟨.event, [0b000]⟩ = .ok .eventIdle ∧ decode S0.cfg ⟨.event, [0b001]⟩ = .ok .eventShortDown ∧
    decode S0.cfg ⟨.event, [0b010]⟩ = .ok .eventShortUp ∧ decode S0.cfg ⟨.event, [0b011]⟩ = .ok .eventShortTriggered ∧
    decode S0.cfg ⟨.event, [0b100]⟩ = .ok .eventLongTriggered ∧
    [0b101, 0b110, 0b111].all (fun b => decide (decode S0.cfg ⟨.event, [b]⟩ = .error .eventReserved)) = true := by decide

/-- R71, R72, R74, R160. -/
theorem test_decode_blocks :
    decode S0.cfg ⟨.secondaryMode, [0x12]⟩ = .ok (.hasSecondary 0x12) ∧
    decode S0.cfg ⟨.header, headerBlock⟩ = .ok (.header headerBlock) ∧ decode S0.cfg ⟨.row, row01⟩ = .ok (.row row01) ∧
    decode S0.cfg ⟨.image, [1, 0xB0, 0xB1, 0xB2]⟩ = .ok (.image [1, 0xB0, 0xB1, 0xB2]) ∧
    decode S0.cfg ⟨.image, [1, 0xB0]⟩ = .error .wrongLength := by decide

/-- The model's own call numbers (log 10). -/
theorem test_decode_calls :
    decode S0.cfg ⟨.call, [0]⟩ = .ok .invoke ∧ decode S0.cfg ⟨.call, [1]⟩ = .ok .evaluate ∧
    decode S0.cfg ⟨.call, [2]⟩ = .ok .opNew ∧ decode S0.cfg ⟨.call, [3, 0x34, 0x12]⟩ = .ok (.loadPage 0x1234) ∧
    decode S0.cfg ⟨.call, [4, 1, 1, 0]⟩ = .ok (.slotFunction .secondary 1) ∧ decode S0.cfg ⟨.call, [5, 1, 0]⟩ = .ok (.isLive 1) ∧
    decode S0.cfg ⟨.call, [6, 1, 0]⟩ = .ok (.changePage 1) ∧ decode S0.cfg ⟨.call, [7]⟩ = .ok .redrawAll ∧
    decode S0.cfg ⟨.call, [8, 1]⟩ = .ok (.raiseFatal .truncated) ∧ decode S0.cfg ⟨.call, [9]⟩ = .ok .reset ∧
    decode S0.cfg ⟨.call, [10]⟩ = .error .unknownCall ∧ decode S0.cfg ⟨.call, [8, 4]⟩ = .error .badOperand := by decide

/-! ### Slots, rows and images (K, S, L) -/

/-- K8 and K11: the goto field one too high; no zero, so the whole payload. -/
theorem test_pressKeys :
    returnedBy ⟨.slot, [0, 4, 5, 0, 0, 2, 0, 0]⟩ = some (.function (.pressKeys [4, 5] (some 1))) ∧
    returnedBy ⟨.slot, [0, 1, 2, 3, 4, 5, 6, 7]⟩ = some (.function (.pressKeys [1, 2, 3, 4, 5, 6, 7] (some 1540))) := by decide

/-- K10 and K14: the scan runs into the goto byte; bytes after the first zero are no keys. -/
theorem test_pressKeys_scan :
    returnedBy ⟨.slot, [0, 4, 5, 6, 7, 1, 0, 0]⟩ = some (.function (.pressKeys [4, 5, 6, 7, 1] (some 0))) ∧
    returnedBy ⟨.slot, [0, 4, 0, 5, 0, 0, 0, 9]⟩ = some (.function (.pressKeys [4] none)) := by decide

/-- K4 and K5. -/
theorem test_changePage_slot :
    returnedBy ⟨.slot, [0xF1, 5, 0, 0, 0, 0, 0, 0]⟩ = some (.function (.changePage 5)) ∧
    returnedBy ⟨.slot, [0x01, 0x34, 0x12, 0, 0, 0, 0, 0]⟩ = some (.function (.changePage 4660)) := by decide

/-- K16 to K25. -/
theorem test_tag_slots :
    returnedBy ⟨.slot, [0x12, 0xAA, 0xBB, 0xCC, 0xDD, 0xEE, 0xFF, 0]⟩ = some (.function .noFunction) ∧
    returnedBy ⟨.slot, [0x13, 0, 0, 0, 0, 0, 0, 0]⟩ = some (.function .pressSpecialKey) ∧
    returnedBy ⟨.slot, [0x04, 0, 0, 0, 0, 0, 0, 0]⟩ = some (.function .sendText) ∧
    returnedBy ⟨.slot, [0x05, 0, 0, 0, 0, 0, 0, 0]⟩ = some (.function .setSetting) ∧
    returnedBy ⟨.slot, [0x06, 0, 0, 0, 0, 0, 0, 0]⟩ = some (.function .communicateToHost) ∧
    returnedBy ⟨.slot, [0x07, 0, 0, 0, 0, 0, 0, 0]⟩ = some (.function .noFunction) ∧
    returnedBy ⟨.slot, [0x08, 0, 0, 0, 0, 0, 0, 0]⟩ = some (.function .noFunction) ∧
    returnedBy ⟨.slot, [0xFF, 0, 0, 0, 0, 0, 0, 0]⟩ = some (.function .noFunction) := by decide

/-- S1 and S2: the whole byte is compared. -/
theorem test_hasSecondary :
    returnedBy ⟨.secondaryMode, [0x02]⟩ = some (.flag false) ∧ returnedBy ⟨.secondaryMode, [0x12]⟩ = some (.flag true) := by decide

/-- Rows of section 4. -/
theorem test_row :
    returnedBy ⟨.row, row01⟩ = some (.functions (.pressKeys [4, 5] (some 1)) (.changePage 1)) ∧
    returnedBy ⟨.row, row11⟩ = some (.functions (.changePage 0) .noFunction) := by decide

/-- L1 and L3. -/
theorem test_image :
    returnedBy ⟨.image, [0x01, 0xB0, 0xB1, 0xB2]⟩ = some (.image true [0xB0, 0xB1, 0xB2]) ∧
    returnedBy ⟨.image, [0x02, 0xB0, 0xB1, 0xB2]⟩ = some (.image false [0xB0, 0xB1, 0xB2]) := by decide

/-- Page 0 of section 4. -/
theorem test_slotFunction :
    returnedBy ⟨.call, [4, 1, 1, 0]⟩ = some (.function (.changePage 1)) ∧
    returnedBy ⟨.call, [4, 0, 0, 0]⟩ = some (.function (.changePage 1)) := by decide

theorem test_isLive :
    returnedBy ⟨.call, [5, 1, 0]⟩ = some (.flag true) ∧ returnedBy ⟨.call, [5, 0, 0]⟩ = some (.flag false) := by decide

/-! ### The Config Store (H, M, boot) -/

/-- H8 and H10. -/
theorem test_header :
    after (exec (.header ([0x04, 0x02, 0x34, 0x12] ++ List.replicate 12 0)) U0)
      (fun t => t.hdr == { width := 4, height := 2, offset := 4660, bdCount := 8, pageCount := 582 }) = true ∧
    after (exec (.header ([0x10, 0x10, 0x00, 0x01] ++ List.replicate 12 0)) U0)
      (fun t => t.sys == { phase := .fatal, cause := some .formatError }) = true := by decide

/-- Boot over the blob of section 4. -/
theorem test_new :
    after (exec .opNew U0) (fun t =>
      t.trace == [.read 16 .ok, .seek 16 true, .read 16 .ok, .read 16 .ok, .seek 80 true, .read 4 .ok, .read 4 .ok] &&
      t.page == S0.page && t.hdr == S0.hdr && t.sys == S0.sys && t.stream.pos == 88) = true := by decide +kernel

/-- A4's load, and M6: the page stays. -/
theorem test_loadPage :
    after (exec (.loadPage 1) S0) (fun t => t.trace == loadOfPage1 && t.page == (S1 0).page && t.stream.pos == 96) = true ∧
    after (exec (.loadPage 2) S0) (fun t => t.sys == { phase := .fatal, cause := some .truncated } && t.page == S0.page) = true := by
  decide +kernel

/-! ### The FSM (F, P) -/

/-- P1 step 1, P2 step 3. -/
theorem test_invoke :
    after (exec .invoke S0) (fun t => t.trace == [.setAddress 0] && t.fsm == { S0.fsm with busy := true }) = true ∧
    after (exec .invoke S0') (fun t => t.mux.addr == 1 && t.fsm.hasSec) = true := by decide

/-- F2: a faulty pin is a released pin. -/
theorem test_startIsUp :
    after (exec .startIsUp (inside S0 .start true none 10 .fault)) (fun t =>
      t.trace == [.emit .idle, .setAddress 1] && t.disp.cursor == 1 && !t.fsm.busy && t.fsm.pressTs == none) = true := by decide

/-- F3 (with A10's inert button) and F4. -/
theorem test_startIsDown :
    after (exec .startIsDown (inside (S1 0) .start false none 1000 .low)) (fun t =>
      t.trace == [.emit .shortDown] && t.fsm == { state := .down, busy := true, pressTs := some 1000, hasSec := false }) = true ∧
    after (exec .startIsDown (inside S0' .start true none 1000 .low)) (fun t =>
      t.trace == [] && t.fsm == { state := .down, busy := true, pressTs := some 1000, hasSec := true }) = true := by decide

/-- F12 on P3L's button: the pin is not consulted. -/
theorem test_downHeldLong :
    after (exec .downHeldLong (inside (S1 1) .down true (some 2000) 2301 .high)) (fun t =>
      t.trace == [.emit .longTriggered] && t.fsm.state == .downButWaiting) = true := by decide

/-- F5: elapsed 300 is not over. F9. -/
theorem test_downStillDown :
    after (exec .downStillDown (inside S0 .down true (some 2000) 2300 .low)) (fun t => t.fsm.state == .down) = true ∧
    after (exec .downStillDown (inside S0 .down false (some 0) 999999 .low)) (fun t => t.trace == []) = true := by decide

/-- F7 and F11. -/
theorem test_downAnyUp :
    after (exec .downAnyUp (inside S0 .down false (some 0) 999999 .high)) (fun t => t.fsm.state == .up) = true ∧
    after (exec .downAnyUp (inside S0 .down true (some 5000) 5100 .fault)) (fun t => t.fsm.state == .up) = true := by decide

/-- F13. -/
theorem test_downButWaitingStillDown :
    after (exec .downButWaitingStillDown (inside S0 .downButWaiting true (some 2000) 9000 .low))
      (fun t => t.fsm.state == .downButWaiting) = true := by decide

/-- F14. -/
theorem test_downButWaitingReleased :
    after (exec .downButWaitingReleased (inside S0 .downButWaiting true (some 2000) 2600 .high)) (fun t => t.fsm.state == .up) = true := by
  decide

/-- F17. -/
theorem test_upUpAfterLong :
    after (exec .upUpAfterLong (inside S0 .up true (some 5000) 5301 .high)) (fun t =>
      t.trace == [] && t.fsm == { state := .start, busy := false, pressTs := none, hasSec := true }) = true := by decide

/-- F16 on P4's button. -/
theorem test_upShortHeld :
    after (exec .upShortHeld (inside S0' .up true (some 5000) 5300 .high)) (fun t =>
      t.trace == [.emit .shortDown, .emit .shortTriggered] && t.fsm.pressTs == none && !t.fsm.busy) = true := by decide

/-- P1 step 5. -/
theorem test_upShortUp :
    after (exec .upShortUp (inside (S1 0) .up false (some 1000) 1050 .high)) (fun t =>
      t.trace == [.emit .shortUp] && t.fsm == { state := .start, busy := false, pressTs := none, hasSec := false }) = true := by decide

/-- P2 step 7, as a step: `@2301 L`. -/
def P2step7 : State :=
  { inside S0' .down true (some 2000) 2300 .low with
    env := { S0.env with now := 2300, clock := { queue := [2301], tick := 0 }, pins := { queue := [.low], rest := .high } } }

theorem test_evaluate :
    after (exec .evaluate P2step7) (fun t =>
      t.trace == [.pinRead .low, .emit .longTriggered] ++ loadOfPage1 ++ redrawOfPage1 && t.page == (S1 1).page &&
      t.mux.addr == 1 && t.fsm.state == .downButWaiting) = true := by decide +kernel

/-! ### The Dispatcher (A) -/

/-- A1 and A2. -/
theorem test_eventIdle :
    after (exec .eventIdle S0') (fun t => t.disp.cursor == 0 && t.mux.addr == 0 && t.trace == [.setAddress 0]) = true ∧
    after (exec .eventIdle S0) (fun t => t.disp.cursor == 1 && t.mux.addr == 1) = true := by decide

/-- A4, A10. -/
theorem test_eventShortDown :
    after (exec .eventShortDown S0) (fun t => t.trace == loadOfPage1 ++ redrawOfPage1 && t.page.index == 1) = true ∧
    after (exec .eventShortDown (S1 0)) (fun t => t == S1 0) = true := by decide +kernel

/-- A8. -/
theorem test_eventShortUp :
    after (exec .eventShortUp (S1 1)) (fun t => t.page == S0.page && t.stream.pos == 88 && t.mux.addr == 1) = true := by
  decide +kernel

/-- A5. -/
theorem test_eventShortTriggered : after (exec .eventShortTriggered S0') (fun t => t == S0') = true := by decide

/-- A6, A7. -/
theorem test_eventLongTriggered :
    after (exec .eventLongTriggered S0') (fun t => t.trace == loadOfPage1 ++ redrawOfPage1) = true ∧
    after (exec .eventLongTriggered (S1 1)) (fun t => t == S1 1) = true := by decide +kernel

/-- S0 with two failing draws ahead. -/
def failingTwice : State := { S0 with env := { S0.env with draws := { queue := [false, false, true], rest := true } } }

/-- A9: the address is not set again. -/
theorem test_changePage :
    after (exec (.changePage 1) failingTwice) (fun t =>
      t.trace == loadOfPage1 ++
        [.setAddress 0, .draw [0xC0, 0xC1, 0xC2] false, .draw [0xC0, 0xC1, 0xC2] false, .draw [0xC0, 0xC1, 0xC2] true,
          .setAddress 1, .draw [0xD0, 0xD1, 0xD2] true]) = true := by decide +kernel

theorem test_redrawAll : after (exec .redrawAll (S1 0)) (fun t => t.trace == redrawOfPage1 && t.disp.cursor == 0) = true := by decide

/-! ### The fatal state, reset, and the step -/

/-- R195: the first cause stays. -/
theorem test_raiseFatal :
    after (exec (.raiseFatal .truncated) S0) (fun t => t.sys == { phase := .fatal, cause := some .truncated }) = true ∧
    after (exec (.raiseFatal .streamRead) (S0.raiseFatal .truncated)) (fun t => t.sys.cause == some .truncated) = true := by decide

/-- R220. -/
theorem test_reset :
    after (exec .reset (S0.raiseFatal .truncated)) (fun t => t.sys == { phase := .uninit, cause := none } && t.stream.pos == 0) = true := by
  decide

/-- P6a: the load of a blob without its last image. -/
theorem test_fatal_step :
    after (exec .eventShortDown (short S0)) (fun t =>
      t.sys.cause == some .truncated && t.page == S0.page && t.stream.pos == 92 &&
      match step t with
      | .fault f => f == .fatal (some .truncated)
      | .next _ => false
      | .refused _ => false) = true := by decide +kernel

/-- A table word runs as the first step after reset (log 11). -/
theorem test_withFetchWord :
    decodeTableWord 8 0x0B = some (.slotUnknownHigh 0 3 [0, 0, 0, 0, 0, 0, 0]) ∧ decodeTableWord 5 0x0B = some .downHeldLong ∧
    decodeTableWord 3 4 = some .eventLongTriggered ∧
    after (step (State.reset.withFetchWord 5 0x09)) (fun t => t.trace == [.pinRead .high, .emit .longTriggered]) = true := by decide

/-! ### Witnesses: a state and operands that meet each obligation's hypotheses -/

theorem S0_open : S0.Open := by decide

theorem S0_loaded : S0.PageLoaded := ⟨⟨rfl, by decide, rfl, by decide⟩, by decide⟩

theorem S0'_loaded : S0'.PageLoaded := ⟨S0_loaded.page, by decide⟩

theorem S1_loaded : (S1 1).PageLoaded := ⟨⟨rfl, by decide, rfl, by decide⟩, by decide⟩

theorem S0_decoded : S0.hdr.Decoded := ⟨by decide, by decide, by decide, by decide⟩

/-- S0 with another FSM, sample and clock meets the invariant if the FSM does. -/
theorem inside_inv {state : FsmState} {sec : Bool} {ts : Option Nat} {now : Nat} {pin : Pin}
    (h : Fsm.Running { state := state, busy := true, pressTs := ts, hasSec := sec } now 300) :
    (inside S0' state sec ts now pin).Inv :=
  have hv : S0'.cfg.Valid := by decide
  have hm : S0'.hdr.bdCount ≤ 2 ^ S0'.cfg.muxAddrWidth := by decide
  { cfg := hv, blob := Mem.ofBytes_wf _ _, cause := by simp [inside, S0', S0], header := fun _ => .inr S0_decoded
    uninit := nofun, ready := fun _ => ⟨S0_decoded, hm, ⟨S0'_loaded.page, S0'_loaded.cursor⟩, .inr h⟩, waiting := fun h => absurd rfl h
    retry := nofun, noIdle := nofun }

theorem S0_inv : S0.Inv :=
  { cfg := by decide, blob := Mem.ofBytes_wf _ _, cause := by simp [S0], header := fun _ => .inr S0_decoded
    uninit := nofun, ready := fun _ => ⟨S0_decoded, by decide, S0_loaded, .inl ⟨rfl, rfl, rfl⟩⟩, waiting := fun h => absurd rfl h
    retry := nofun, noIdle := nofun }

def resetCall : OpWord := ⟨.call, [9]⟩

theorem witness_FatalStateHasNoStep :
    (S0.raiseFatal .truncated).sys.phase = .fatal ∧ (∀ c, Instr.invoke ≠ .raiseFatal c) ∧ Instr.invoke ≠ .reset ∧
    resetWaits (S0.raiseFatal .truncated) = false ∧ resetWaits { S0.raiseFatal .truncated with calls := [resetCall] } = true :=
  ⟨rfl, nofun, by decide, by decide, by decide⟩

theorem witness_InvokeSelectsAddressAndLatchesFlag :
    S0.Open ∧ S0.fsm.busy = false ∧ S0.PageLoaded ∧ S0.page.rows[S0.disp.cursor]? = some row00 :=
  ⟨S0_open, rfl, S0_loaded, rfl⟩

/-- Parameters that leave the multiplexer `width` address bits; the blob has two buttons. -/
def U0mux (width : Nat) : State := { U0 with cfg := { U0.cfg with muxAddrWidth := width } }

theorem U0mux_decoded (width : Nat) : (U0mux width).afterHeader.hdr.Decoded :=
  show U0.afterHeader.hdr.Decoded from ⟨rfl, by decide, by decide, rfl⟩

/-- The next reading of the time base is one before the last. -/
def clockBack : State :=
  let s := inside S0' .down true (some 2000) 2300 .low
  { s with env := { s.env with clock := { queue := [2299], tick := 0 } } }

theorem witness_MisusedCallsAreRefused :
    (let s := { S0 with cfg := { S0.cfg with rowLength := 15 } }
     ¬ s.cfg.Valid ∧ s.sys.phase ≠ .fatal ∧ (∀ c, Instr.invoke ≠ .raiseFatal c) ∧ Instr.invoke ≠ .reset) ∧
    (U0.cfg.Valid ∧ U0.sys.phase = .uninit ∧ { U0.stream with pos := 1 }.pos ≠ 0 ∧
      (inside S0 .start false none 0 .high).sys.phase = .ready ∧ (inside S0 .start false none 0 .high).work = [] ∧
      (inside S0 .start false none 0 .high).fsm.busy = true) ∧
    ((U0mux 0).cfg.Valid ∧ (U0mux 0).sys.phase = .uninit ∧ (U0mux 0).stream.pos = 0 ∧ (U0mux 0).env.stream.nth 0 = true ∧
      (U0mux 0).cfg.rowLength ≤ (U0mux 0).stream.len ∧ (U0mux 0).afterHeader.hdr.Decoded ∧
      2 ^ (U0mux 0).cfg.muxAddrWidth < (U0mux 0).afterHeader.hdr.bdCount) ∧
    (clockBack.Open ∧ clockBack.fsm.busy = true ∧ ¬ clockBack.ClockMonotone) ∧
    (∀ st : FsmState, st = .down ∨ st = .up →
      ((inside S0 st true none 5 .low).Open ∧ (inside S0 st true none 5 .low).fsm.busy = true ∧
        (inside S0 st true none 5 .low).fsm.hasSec = true ∧ (inside S0 st true none 5 .low).fsm.pressTs = none ∧
        (inside S0 st true none 5 .low).ClockMonotone) ∧
      (inside S0 st true (some 6) 5 .low).Open ∧ (inside S0 st true (some 6) 5 .low).fsm.pressTs = some 6 ∧
      (inside S0 st true (some 6) 5 .low).env.now < 6) :=
  ⟨⟨by decide, by decide, nofun, by decide⟩, by decide,
    ⟨by decide, rfl, rfl, rfl, by decide, U0mux_decoded 0, by decide⟩,
    ⟨by decide, rfl, by unfold State.ClockMonotone; decide⟩,
    fun st h => by rcases h with rfl | rfl <;> unfold State.ClockMonotone <;> decide⟩

theorem witness_DeciderWordBits :
    (inside S0 .down true (some 0) 301 .low).fsm.state ≠ .up ∧ (inside S0 .up true (some 0) 300 .low).fsm.state = .up ∧
    (inside S0 .up true (some 0) 300 .low).fsm.pressTs = some 0 := by decide

/-- The sample of P2 step 7. -/
def P2sample : State :=
  { P2step7 with
    trace := [.pinRead .low]
    env := { S0.env with now := 2301, pin := .low, clock := { queue := [], tick := 0 }, pins := { queue := [], rest := .high } } }

/-- Also for StepRunsSelectedTransition. -/
theorem witness_EvaluateAppliesSelectedTransition :
    P2step7.Open ∧ P2step7.fsm.busy = true ∧ P2step7.sample = .ok P2sample ∧ resetWaits P2step7 = false := ⟨by decide, rfl, rfl, rfl⟩

/-- A clock that gives the same time again is not one that goes back. -/
theorem witness_SampleReadsClockAndPin : P2step7.ClockMonotone ∧ S0.ClockMonotone := by
  constructor <;> unfold State.ClockMonotone <;> decide

theorem witness_EvaluateCompletes :
    (inside S0' .down true (some 2000) 2300 .low).Inv ∧ (inside S0' .down true (some 2000) 2300 .low).Open ∧
    (inside S0' .down true (some 2000) 2300 .low).fsm.busy = true ∧ (inside S0' .down true (some 2000) 2300 .low).ClockMonotone :=
  ⟨inside_inv ⟨rfl, 2000, rfl, by decide⟩, by decide, rfl, by unfold State.ClockMonotone; decide⟩

theorem heldPast_301 {s : State} {state : FsmState} {pin : Pin} (h : s.cfg.longPressThreshold = 300) :
    (inside s state true (some 2000) 2301 pin).HeldPast := ⟨rfl, 2000, rfl, by simp [inside, h]⟩

theorem notHeldPast_300 {s : State} {state : FsmState} {pin : Pin} (h : s.cfg.longPressThreshold = 300) :
    (inside s state true (some 2000) 2300 pin).NotHeldPast := .inr ⟨2000, rfl, show 2000 ≤ 2300 by decide, by simp [inside, h]⟩

theorem witness_PinFaultReadsAsReleased :
    (∀ st : FsmState, (inside S0 st true (some 2000) 2301 .fault).elapsedStop = none) ∧
    (inside S0 .down true (some 2000) 2301 .fault).fsm.busy = true ∧ (inside S0 .down true (some 2000) 2301 .fault).env.pin = .fault ∧
    (inside S0 .down true (some 2000) 2301 .fault).HeldPast ∧ (inside S0 .down true (some 2000) 2300 .fault).NotHeldPast :=
  ⟨fun st => by cases st <;> decide, rfl, rfl, heldPast_301 rfl, notHeldPast_300 rfl⟩

theorem witness_LongPressBoundaryIsStrict :
    (inside S0 .down true (some 2000) 2300 .low).fsm.hasSec = true ∧
    (inside S0 .down true (some 2000) 2300 .low).fsm.pressTs = some 2000 ∧
    (inside S0 .down true (some 2000) 2300 .low).env.now = 2000 + S0.cfg.longPressThreshold ∧
    (inside S0 .up true (some 2000) 2301 .low).env.now = 2000 + S0.cfg.longPressThreshold + 1 := by decide

theorem witness_StartIsUpEndsInvocationWithIdle :
    (inside S0 .start true none 10 .fault).Open ∧ (inside S0 .start true none 10 .fault).fsm.busy = true ∧
    (inside S0 .start true none 10 .fault).fsm.state = .start ∧ (inside S0 .start true none 10 .fault).env.pin ≠ .low ∧
    0 < (inside S0 .start true none 10 .fault).hdr.bdCount := by decide

theorem witness_StartIsDownRecordsTimestamp (sec : Bool) :
    (inside S0 .start sec none 10 .low).Open ∧ (inside S0 .start sec none 10 .low).fsm.busy = true ∧
    (inside S0 .start sec none 10 .low).fsm.state = .start ∧ (inside S0 .start sec none 10 .low).env.pin = .low ∧
    (inside S0 .start sec none 10 .low).fsm.hasSec = sec ∧ (inside S0 .start sec none 10 .low).PageLoaded :=
  ⟨by cases sec <;> decide, rfl, rfl, rfl, rfl, S0_loaded.page, S0_loaded.cursor⟩

theorem witness_DownHeldLongEmitsLongTriggered :
    (inside S0 .down true (some 2000) 2301 .low).Open ∧ (inside S0 .down true (some 2000) 2301 .low).fsm.busy = true ∧
    (inside S0 .down true (some 2000) 2301 .low).fsm.state = .down ∧ (inside S0 .down true (some 2000) 2301 .low).HeldPast ∧
    (inside S0 .down true (some 2000) 2301 .low).PageLoaded :=
  ⟨by decide, rfl, rfl, heldPast_301 rfl, S0_loaded.page, S0_loaded.cursor⟩

/-- For each of the two states that wait for a release, at the boundary 300 and with a low and a high pin. -/
theorem witness_StillDownChangesNothing_and_ReleaseLeadsToUp (st : FsmState) (pin : Pin) :
    (inside S0 st true (some 2000) 2300 pin).Open ∧ (inside S0 st true (some 2000) 2300 pin).fsm.busy = true ∧
    (inside S0 st true (some 2000) 2300 pin).env.pin = pin ∧ (inside S0 st true (some 2000) 2300 pin).fsm.state = st ∧
    (inside S0 st true (some 2000) 2300 pin).NotHeldPast :=
  ⟨by cases st <;> cases pin <;> decide, rfl, rfl, rfl, notHeldPast_300 rfl⟩

theorem witness_UpAfterLongEndsWithoutEvent :
    (inside S0 .up true (some 2000) 2301 .low).Open ∧ (inside S0 .up true (some 2000) 2301 .low).fsm.busy = true ∧
    (inside S0 .up true (some 2000) 2301 .low).fsm.state = .up ∧ (inside S0 .up true (some 2000) 2301 .low).HeldPast :=
  ⟨by decide, rfl, rfl, heldPast_301 rfl⟩

/-- The state in which the event `e` that `s` emits is dispatched. -/
def emitting (e : Event) (s : State) : State := { s with trace := s.trace ++ [.emit e] }

def upHeld : State := inside S0' .up true (some 2000) 2300 .high
def upPlain : State := inside S0' .up false (some 2000) 2300 .high
def upFatal (sec : Bool) : State := inside (short S0) .up sec (some 2000) 2300 .high

/-- The outcome is this next state. -/
theorem next_of_after {r : Result} {f : State → Bool} (h : after r f = true) : ∃ t, r = .next t ∧ f t = true := by
  cases r with
  | next s => exact ⟨s, rfl, h⟩
  | fault _ => cases h
  | refused _ => cases h

/-- One button, whose primary function is a change to its own page, in `Up`, with these answers of the stream and the display. -/
def looping (sec : Bool) (stream draws : Answers Bool) : State :=
  let row : List Byte := 0x01 :: List.replicate 15 0
  { inside S0 .up sec (some 2000) 2300 .high with
    hdr := { width := 1, height := 1, offset := 2, bdCount := 1, pageCount := 2 }
    page := { rows := [row], imgs := [[0, 7, 7, 7]], index := 0 }
    stream := { blob := Mem.ofBytes 0 ([1, 1, 2] ++ List.replicate 13 0 ++ row ++ [0, 7, 7, 7]), len := 36, pos := 36 }
    env := { S0.env with now := 2300, stream := stream, draws := draws } }

def always : Answers Bool := { queue := [], rest := true }
def neverAgain (queue : List Bool) : Answers Bool := { queue := queue, rest := false }

/-- The hypotheses; then first and second action done, first fatal, first waiting, second fatal, second waiting. -/
theorem witness_UpShortHeldEmitsTwoEvents :
    (upHeld.Open ∧ upHeld.fsm.busy = true ∧ upHeld.fsm.state = .up ∧ upHeld.fsm.hasSec = true ∧ upHeld.NotHeldPast) ∧
    (∃ t u, exec .eventShortDown (emitting .shortDown upHeld) = .next t ∧ t.Open ∧
      exec .eventShortTriggered (emitting .shortTriggered t) = .next u ∧ u.Open) ∧
    ((upFatal true).Open ∧ (upFatal true).fsm.busy = true ∧ (upFatal true).fsm.state = .up ∧ (upFatal true).NotHeldPast ∧
      ∃ t, exec .eventShortDown (emitting .shortDown (upFatal true)) = .next t ∧ t.sys.phase = .fatal) ∧
    (∀ stream draws, (looping true stream draws).Open ∧ (looping true stream draws).NotHeldPast) ∧
    (∃ t, exec .eventShortDown (emitting .shortDown (looping true always (neverAgain []))) = .next t ∧ t.work ≠ []) ∧
    (∃ t u, exec .eventShortDown (emitting .shortDown (looping true (neverAgain [true, true, true, true]) always)) = .next t ∧ t.Open ∧
      exec .eventShortTriggered (emitting .shortTriggered t) = .next u ∧ u.sys.phase = .fatal) ∧
    (∃ t u, exec .eventShortDown (emitting .shortDown (looping true always (neverAgain [true]))) = .next t ∧ t.Open ∧
      exec .eventShortTriggered (emitting .shortTriggered t) = .next u ∧ u.work ≠ []) := by
  have two {s : State} {f : State → Bool} (h : after (exec .eventShortDown s) (fun t => decide t.Open &&
      after (exec .eventShortTriggered (emitting .shortTriggered t)) f) = true) :
      ∃ t u, exec .eventShortDown s = .next t ∧ t.Open ∧ exec .eventShortTriggered (emitting .shortTriggered t) = .next u ∧
        f u = true := by
    obtain ⟨t, ht, hf⟩ := next_of_after h
    obtain ⟨ho, h2⟩ := (Bool.and_eq_true _ _).mp hf
    obtain ⟨u, hu, hf⟩ := next_of_after h2
    exact ⟨t, u, ht, of_decide_eq_true ho, hu, hf⟩
  refine ⟨⟨by decide, rfl, rfl, rfl, notHeldPast_300 rfl⟩, ?_, ⟨by decide, rfl, rfl, notHeldPast_300 rfl, ?_⟩, ?_, ?_, ?_, ?_⟩
  · exact ⟨emitting .shortDown upHeld, emitting .shortTriggered (emitting .shortDown upHeld), rfl, by decide, rfl, by decide⟩
  · obtain ⟨t, ht, hp⟩ := next_of_after (r := exec .eventShortDown (emitting .shortDown (upFatal true)))
      (f := fun t => t.sys.phase == .fatal) (by decide +kernel)
    exact ⟨t, ht, by simpa using hp⟩
  · exact fun _ _ => ⟨⟨rfl, show S0.cfg.Valid by decide, rfl⟩,
      .inr ⟨2000, rfl, show 2000 ≤ 2300 by decide, show 2300 - 2000 ≤ 300 by decide⟩⟩
  · obtain ⟨t, ht, hp⟩ := next_of_after (r := exec .eventShortDown (emitting .shortDown (looping true always (neverAgain []))))
      (f := fun t => decide (t.work ≠ [])) (by decide +kernel)
    exact ⟨t, ht, by simpa using hp⟩
  · obtain ⟨t, u, ht, ho, hu, hp⟩ := two (s := emitting .shortDown (looping true (neverAgain [true, true, true, true]) always))
      (f := fun t => t.sys.phase == .fatal) (by decide +kernel)
    exact ⟨t, u, ht, ho, hu, by simpa using hp⟩
  · obtain ⟨t, u, ht, ho, hu, hp⟩ := two (s := emitting .shortDown (looping true always (neverAgain [true])))
      (f := fun t => decide (t.work ≠ [])) (by decide +kernel)
    exact ⟨t, u, ht, ho, hu, by simpa using hp⟩

theorem witness_UpShortUpEmitsOneEvent :
    (upPlain.Open ∧ upPlain.fsm.busy = true ∧ upPlain.fsm.state = .up ∧ upPlain.fsm.hasSec = false) ∧
    (∃ t, exec .eventShortUp (emitting .shortUp upPlain) = .next t ∧ t.Open) ∧
    ((upFatal false).Open ∧ (upFatal false).fsm.busy = true ∧ (upFatal false).fsm.state = .up ∧ (upFatal false).fsm.hasSec = false ∧
      ∃ t, exec .eventShortUp (emitting .shortUp (upFatal false)) = .next t ∧ t.sys.phase = .fatal) ∧
    ((looping false always (neverAgain [])).Open ∧
      ∃ t, exec .eventShortUp (emitting .shortUp (looping false always (neverAgain []))) = .next t ∧ t.work ≠ []) := by
  refine ⟨by decide, ⟨emitting .shortUp upPlain, rfl, by decide⟩, ⟨by decide, rfl, rfl, rfl, ?_⟩, ⟨rfl, by decide, rfl⟩, ?_⟩
  · obtain ⟨t, ht, hp⟩ := next_of_after (r := exec .eventShortUp (emitting .shortUp (upFatal false)))
      (f := fun t => t.sys.phase == .fatal) (by decide +kernel)
    exact ⟨t, ht, by simpa using hp⟩
  · obtain ⟨t, ht, hp⟩ := next_of_after (r := exec .eventShortUp (emitting .shortUp (looping false always (neverAgain []))))
      (f := fun t => decide (t.work ≠ [])) (by decide +kernel)
    exact ⟨t, ht, by simpa using hp⟩

theorem witness_UpShortTransitionsComplete :
    upHeld.PageLoaded ∧ upHeld.NotHeldPast ∧ upHeld.fsm.hasSec = true ∧ upPlain.PageLoaded ∧ upPlain.fsm.hasSec = false :=
  ⟨⟨S0'_loaded.page, S0'_loaded.cursor⟩, notHeldPast_300 rfl, rfl, ⟨S0'_loaded.page, S0'_loaded.cursor⟩, rfl⟩

/-- S0' decodes `PressKeys` from its primary slot, `S1 1` nothing from its secondary one (P3L). -/
theorem witness_PressesOfInertButtonsComplete :
    S0'.page.rows[S0'.disp.cursor]? = some row01 ∧ (S1 1).page.rows[(S1 1).disp.cursor]? = some row11 ∧
    (∀ t, functionOfSlot S0.cfg (row01.take 8) ≠ .changePage t) ∧ (∀ t, functionOfSlot S0.cfg (row11.drop 8) ≠ .changePage t) ∧
    upHeld.Open ∧ upPlain.Open ∧ (inside S0' .start false none 10 .low).Open ∧ (inside (S1 1) .down true (some 2000) 2301 .low).Open ∧
    (inside S0' .start false none 10 .low).PageLoaded ∧ (inside (S1 1) .down true (some 2000) 2301 .low).PageLoaded ∧
    (inside (S1 1) .down true (some 2000) 2301 .low).HeldPast :=
  have h1 : functionOfSlot S0.cfg (row01.take 8) = .pressKeys [4, 5] (some 1) := by decide
  have h2 : functionOfSlot S0.cfg (row11.drop 8) = .noFunction := by decide
  ⟨rfl, rfl, fun t => by rw [h1]; exact nofun, fun t => by rw [h2]; exact nofun, by decide, by decide, by decide, by decide,
    ⟨S0'_loaded.page, S0'_loaded.cursor⟩, ⟨S1_loaded.page, S1_loaded.cursor⟩, heldPast_301 rfl⟩

/-- H2, the smallest offset that is valid (`1 + bd_count`), and the largest that is not. -/
theorem witness_HeaderBlockDecodes_and_MalformedHeaderIsFatal :
    U0.cfg.Valid ∧ U0.sys.phase = .uninit ∧ headerBlock.length = U0.cfg.rowLength ∧
    0 < (headerBlock.getD 0 0).toNat * (headerBlock.getD 1 0).toNat ∧
    1 + (headerBlock.getD 0 0).toNat * (headerBlock.getD 1 0).toNat ≤ (headerBlock.getD 2 0).toNat + 256 * (headerBlock.getD 3 0).toNat ∧
    (let hb := [0x10, 0x10, 0x00, 0x01] ++ List.replicate 12 (0 : Byte)
     hb.length = U0.cfg.rowLength ∧
      (hb.getD 2 0).toNat + 256 * (hb.getD 3 0).toNat < 1 + (hb.getD 0 0).toNat * (hb.getD 1 0).toNat) ∧
    (let hb := [0x00, 0x05, 0x09, 0x00] ++ List.replicate 12 (0 : Byte)
     hb.length = U0.cfg.rowLength ∧ (hb.getD 0 0).toNat * (hb.getD 1 0).toNat = 0) := by decide

theorem S0_answers : S0.StreamAnswers := ⟨by decide, rfl⟩

/-- Also for LoadPageIsAllOrNothing. Page 1 ends exactly at the end of the blob; page 2 does not fit (M6). -/
theorem witness_LoadPageReplacesPage_and_ShortReadIsTruncated :
    S0.Alive ∧ S0.work = [] ∧ 0 < S0.hdr.bdCount ∧ S0.StreamAnswers ∧ S0.PageInside (1 : U16).toNat ∧
      ¬ S0.PageInside (2 : U16).toNat := by
  refine ⟨by decide, rfl, by decide, S0_answers, ?_, ?_⟩ <;> unfold State.PageInside State.RegionInside <;> decide

/-- The first read that runs off the end: the second row of page 2, and, of the blob without its last image, the last image of page 1. -/
theorem witness_ShortReadIsTruncated_at :
    (∃ rest, S0.loadCalls (2 : U16).toNat = [.seek 80 true, .read 16 .ok] ++ .read 16 .ok :: rest ∧ S0.Answered 3 ∧
      ReadsInside S0.stream.len S0.stream.pos [.seek 80 true, .read 16 .ok] ∧
      S0.stream.len < positionAfter S0.stream.pos [.seek 80 true, .read 16 .ok] + 16) ∧
    ((short S0).Alive ∧ (short S0).loadCalls (1 : U16).toNat = loadOfPage1.take 5 ++ .read 4 .ok :: [] ∧ (short S0).Answered 6 ∧
      ReadsInside (short S0).stream.len (short S0).stream.pos (loadOfPage1.take 5) ∧
      (short S0).stream.len < positionAfter (short S0).stream.pos (loadOfPage1.take 5) + 4) := by
  refine ⟨⟨_, rfl, ?_, ?_, by decide⟩, by decide, rfl, ?_, ?_, by decide⟩ <;>
    simp [State.Answered, Answers.nth, ReadsInside, loadOfPage1, short, S0, U0, State.reset]

/-- S0 and a reset block whose call after `i` calls fails. -/
def failingCall (i : Nat) (s : State) : State :=
  { s with env := { s.env with stream := { queue := List.replicate i true ++ [false], rest := true } } }

/-- Every call of the load of page 1 can be the first that fails: the seeks are 0 and 3, the reads of rows 1 and 2, of images 4 and 5. -/
theorem witness_StreamFailuresRaiseTheirCause :
    (∀ i : Fin 6, let s := failingCall i S0
      s.Alive ∧ s.work = [] ∧ 0 < s.hdr.bdCount ∧
      s.loadCalls (1 : U16).toNat = loadOfPage1.take i ++ loadOfPage1[i] :: loadOfPage1.drop (i + 1) ∧
      s.Answered (loadOfPage1.take i).length ∧ s.env.stream.nth (loadOfPage1.take i).length = false ∧
      ReadsInside s.stream.len s.stream.pos (loadOfPage1.take i)) ∧
    (let s := failingCall 0 U0
     s.cfg.Valid ∧ s.sys.phase = .uninit ∧ s.work = [] ∧ s.stream.pos = 0 ∧ s.env.stream.nth 0 = false) := by
  refine ⟨fun i => ⟨show S0.Alive by decide, rfl, show 0 < 2 by decide, ?_, ?_, ?_, ?_⟩, by decide⟩
  · revert i; decide
  · unfold State.Answered; revert i; decide
  · revert i; decide
  · match i with
    | 0 | 1 | 2 | 3 | 4 | 5 => simp [ReadsInside, loadOfPage1, failingCall, S0, U0]

/-- A reset block over the first `len` bytes of another blob. -/
def U0blob (bytes : List Byte) (len : Nat) : State := { U0 with stream := { blob := Mem.ofBytes 0 bytes, len := len, pos := 0 } }

/-- The hypotheses; then a header block one byte short, offset `bd_count` and no button, two buttons for one and for two addresses, page 0
that ends at the end of the blob and one byte after it, and a load of page 0 that fails. -/
theorem witness_BootLoadsHeaderAndPageZero :
    (U0.cfg.Valid ∧ U0.sys.phase = .uninit ∧ U0.work = [] ∧ U0.stream.pos = 0 ∧ U0.env.stream.nth 0 = true) ∧
    (U0blob blobBytes 15).stream.len < (U0blob blobBytes 15).cfg.rowLength ∧
    ((U0blob [2, 1, 2] 96).cfg.rowLength ≤ (U0blob [2, 1, 2] 96).stream.len ∧
      (U0blob [2, 1, 2] 96).afterHeader.hdr.offset.toNat < 1 + (U0blob [2, 1, 2] 96).afterHeader.hdr.bdCount ∧
      (U0blob [0, 5, 9] 96).afterHeader.hdr.bdCount = 0) ∧
    ((∀ width, (U0mux width).afterHeader.hdr.Decoded) ∧ ¬ (U0mux 0).afterHeader.hdr.bdCount ≤ 2 ^ (U0mux 0).cfg.muxAddrWidth ∧
      (U0mux 1).afterHeader.hdr.bdCount ≤ 2 ^ (U0mux 1).cfg.muxAddrWidth) ∧
    ((U0blob blobBytes 88).StreamAnswers ∧ (U0blob blobBytes 88).afterHeader.PageInside 0 ∧
      ¬ (U0blob blobBytes 87).afterHeader.PageInside 0) ∧
    (∃ t, exec (.loadPage 0) U0.afterHeader = .next t ∧ t.sys.phase = .uninit) ∧
    (∃ t, exec (.loadPage 0) (failingCall 1 U0).afterHeader = .next t ∧ t.sys.phase = .fatal) := by
  refine ⟨by decide, by decide, by decide, ⟨U0mux_decoded, by decide, by decide⟩, ⟨⟨by decide, rfl⟩, ?_, ?_⟩, ?_, ?_⟩
  · unfold State.PageInside State.RegionInside; decide
  · unfold State.PageInside State.RegionInside; decide
  · obtain ⟨t, ht, hp⟩ := next_of_after (r := exec (.loadPage 0) U0.afterHeader) (f := fun t => t.sys.phase == .uninit)
      (by decide +kernel)
    exact ⟨t, ht, by simpa using hp⟩
  · obtain ⟨t, ht, hp⟩ := next_of_after (r := exec (.loadPage 0) (failingCall 1 U0).afterHeader) (f := fun t => t.sys.phase == .fatal)
      (by decide +kernel)
    exact ⟨t, ht, by simpa using hp⟩

/-- For PressKeysDecodes, ChangePageDecodes, TagVariantsDecode, HighNibbleIsIgnored, HasSecondaryComparesWholeByte, RowDecodesBothSlots and
ImageBlockDecodes. The goto field zero and not zero; a zero byte in the payload and none. -/
theorem witness_slots :
    S0.Alive ∧ [(4 : Byte), 5, 0, 0, 2, 0, 0].length = S0.cfg.dataSize ∧ [(4 : Byte), 5, 6, 7, 0, 0, 0xFF].length = S0.cfg.dataSize ∧
    [(1 : Byte), 2, 3, 4, 5, 6, 7].length = S0.cfg.dataSize ∧ (∀ code ∈ S0.cfg.modeCodes, code.toNat ≠ (7 : BitVec 3).toNat) ∧
    (∀ code ∈ S0.cfg.modeCodes, code.toNat ≠ 8 + (0 : BitVec 3).toNat) ∧ (0x01 : Byte).toNat % 16 = (0xF1 : Byte).toNat % 16 ∧
    (row00.take 8).length = S0.cfg.rowLength / 2 ∧ ((1 : Byte) :: [0xB0, 0xB1, 0xB2]).length = S0.cfg.imageLength := by decide

/-- The default codes 0 to 6 and the unassigned ones 7 and 15, each under the high nibble 15. -/
theorem witness_SlotDecodeAgreesWithOperations :
    S0.Alive ∧ (List.replicate 7 (0 : Byte)).length = S0.cfg.dataSize ∧
    [0xF0, 0xF1, 0xF2, 0xF3, 0xF4, 0xF5, 0xF6].map (fun m : Byte => m.extractLsb' 0 4) =
      [S0.cfg.modePressKeys, 1, S0.cfg.modeNoFunction, S0.cfg.modePressSpecialKey, S0.cfg.modeSendText, S0.cfg.modeSetSetting,
        S0.cfg.modeCommunicateToHost] ∧
    (0xF7 : Byte).extractLsb' 0 4 ∉ S0.cfg.modeCodes ∧ (0xFF : Byte).extractLsb' 0 4 ∉ S0.cfg.modeCodes := by decide

theorem witness_ButtonReadsUsePageBuffer :
    S0.Open ∧ S0.page.Holds S0.cfg S0.hdr.bdCount ∧ S0.page.rows[(1 : U16).toNat]? = some row01 ∧
    S0.page.imgs[(1 : U16).toNat]? = some (0x01 :: [0xB0, 0xB1, 0xB2]) ∧ S0.hdr.bdCount ≤ (2 : U16).toNat :=
  ⟨S0_open, S0_loaded.page, rfl, rfl, by decide⟩

/-- Also for IdleAdvancesCursor. -/
theorem witness_EventsActOnDecodedFunction :
    S0.Open ∧ S0.PageLoaded ∧ S0.page.rows[S0.disp.cursor]? = some row00 ∧ Event.shortDown ≠ .idle ∧ 0 < S0.hdr.bdCount ∧
    functionOfSlot S0.cfg (row00.take 8) = .changePage 1 ∧ functionOfSlot S0.cfg (row00.drop 8) = .noFunction :=
  ⟨S0_open, S0_loaded, rfl, by decide, by decide, by decide, by decide⟩

theorem witness_ChangePageLoadsThenRedraws :
    S0.Open ∧ (∃ t, exec (.loadPage 2) S0 = .next t ∧ t.sys.phase = .fatal) ∧
      (∃ t, exec (.loadPage 1) S0 = .next t ∧ t.sys.phase = .ready) := by
  refine ⟨S0_open, ?_, ?_⟩
  · obtain ⟨t, ht, hp⟩ := next_of_after (r := exec (.loadPage 2) S0) (f := fun t => t.sys.phase == .fatal) (by decide +kernel)
    exact ⟨t, ht, by simpa using hp⟩
  · obtain ⟨t, ht, hp⟩ := next_of_after (r := exec (.loadPage 1) S0) (f := fun t => t.sys.phase == .ready) (by decide +kernel)
    exact ⟨t, ht, by simpa using hp⟩

/-- For ChangePageShowsNewPage, DispatcherOperationsComplete and RedrawDrawsEveryButtonInOrder. -/
theorem witness_display :
    S0.Open ∧ 0 < S0.hdr.bdCount ∧ S0.StreamAnswers ∧ S0.PageInside (1 : U16).toNat ∧ S0.DrawsSucceed ∧ S0.PageLoaded :=
  ⟨S0_open, by decide, S0_answers, witness_LoadPageReplacesPage_and_ShortReadIsTruncated.2.2.2.2.1, ⟨by decide, rfl⟩, S0_loaded⟩

/-- S0 with these answers of the display, and the same stopped at the draw of button 1. -/
def drawing (draws : Answers Bool) : State := { S0 with env := { S0.env with draws := draws } }
def hanging (later : List Task) (draws : Answers Bool) : State := { drawing draws with work := .retry 1 :: later }

/-- A display that comes round for good, and one that succeeds just as often as there are buttons to draw. -/
theorem witness_RedrawRetriesUntilSuccess :
    (failingTwice.Open ∧ 0 < failingTwice.hdr.bdCount ∧ failingTwice.page.Holds failingTwice.cfg failingTwice.hdr.bdCount ∧
      failingTwice.env.draws.rest = true) ∧
    ((drawing (neverAgain [false, true, true])).Open ∧
      (drawing (neverAgain [false, true, true])).hdr.bdCount ≤ (drawing (neverAgain [false, true, true])).env.draws.queue.count true) ∧
    (∀ later, later = [] ∨ later = [.finish] → let s := hanging later (neverAgain [false, true])
      s.sys.phase = .ready ∧ s.cfg.Valid ∧ resetWaits s = false ∧ s.work = .retry 1 :: later ∧ 1 < s.hdr.bdCount ∧
      s.page.Holds s.cfg s.hdr.bdCount ∧ s.hdr.bdCount - 1 ≤ s.env.draws.queue.count true) :=
  ⟨⟨by decide, by decide, S0_loaded.page, rfl⟩, by decide,
    fun later _ => ⟨rfl, show S0.cfg.Valid by decide, rfl, rfl, show 1 < 2 by decide, S0_loaded.page, show 1 ≤ 1 by decide⟩⟩

/-- A redraw that gets one success of two; and S0 stopped at the draw of button 1 by a display that always fails. -/
theorem witness_FailingDisplayHangsBlock :
    (let s := drawing (neverAgain [false, true, false])
     s.Open ∧ s.env.draws.rest = false ∧ s.env.draws.queue.count true < s.hdr.bdCount ∧ s.page.Holds s.cfg s.hdr.bdCount) ∧
    (let s := hanging [] (neverAgain [])
     s.sys.phase = .ready ∧ s.cfg.Valid ∧ s.work = .retry 1 :: [] ∧ s.env.draws = { queue := [], rest := false } ∧
      s.page.Holds s.cfg s.hdr.bdCount ∧ s.page.imgs[1]? = some [0x01, 0xB0, 0xB1, 0xB2] ∧ resetWaits s = false) :=
  ⟨⟨by decide, rfl, by decide, S0_loaded.page⟩, rfl, by decide, rfl, rfl, S0_loaded.page, rfl, rfl⟩

/-- For DecodeInvertsEncode and EncodeInvertsDecode. -/
theorem witness_encodings :
    Params.default.Valid ∧ Instr.WellFormed Params.default (.slotUnknownHigh 15 7 (List.replicate 7 0)) = true ∧
    decode Params.default ⟨.call, [4, 1, 2, 3]⟩ = .ok (.slotFunction .secondary 0x0302) := by decide

theorem witness_StepRunsDecodedOperation :
    { S0 with calls := [⟨.event, [0]⟩] }.sys.phase ≠ .fatal ∧ { S0 with calls := [⟨.event, [0]⟩] }.work = [] ∧
    { S0 with calls := [⟨.event, [0]⟩] }.fsm.busy = false ∧ decode S0.cfg ⟨.event, [0]⟩ = .ok .eventIdle ∧
    U0.calls = [] ∧ U0.sys.phase = .uninit ∧ U0.work = [] ∧ U0.fsm.busy = false ∧ S0.calls = [] ∧ S0.sys.phase = .ready := by decide

/-- For StepKeepsInvariant, ReadyBlockNeverStops, StepNeverWritesStreamOrParameters and HeaderConstantAfterBoot: S0 takes a step
in a good state, with no waiting calls and a clock that does not go back. -/
theorem witness_whole_machine :
    S0.Inv ∧ S0.sys.phase = .ready ∧ S0.calls = [] ∧ S0.ClockMonotone ∧ resetWaits S0 = false ∧ ∃ t, step S0 = .next t :=
  ⟨S0_inv, rfl, rfl, by unfold State.ClockMonotone; decide, rfl, _, rfl⟩

/-- The cursor moves by a released pin, and by an `Idle` that waited. -/
theorem witness_CursorMovesOnlyOnIdle :
    (inside S0' .start true none 0 .high).Inv ∧
    after (step (inside S0' .start true none 0 .high)) (fun t => t.disp.cursor != 1) = true ∧
    after (step { S0 with calls := [⟨.event, [0]⟩] }) (fun t => t.disp.cursor != 0) = true :=
  ⟨inside_inv ⟨rfl, rfl⟩, by decide, by decide⟩

theorem witness_SecondaryFlagLatchedForInvocation :
    P2step7.fsm.busy = true ∧ after (step P2step7) (fun t => t.fsm.hasSec) = true := by decide +kernel

/-- The pin of `s` reads low from now on. -/
def held (s : State) : State := { s with env := { s.env with pins := { queue := [], rest := .low } } }

theorem held_inv {s : State} (h : s.Inv) : (held s).Inv :=
  { cfg := h.cfg, blob := h.blob, cause := h.cause, header := h.header, uninit := h.uninit
    ready := fun hp => ⟨(h.ready hp).1, (h.ready hp).2.1, ⟨(h.ready hp).2.2.1.page, (h.ready hp).2.2.1.cursor⟩, (h.ready hp).2.2.2⟩
    waiting := h.waiting, retry := h.retry, noIdle := h.noIdle }

/-- In `Start`, in `Down` with and without a secondary function, and in `DownButWaiting`. -/
theorem witness_HeldButtonBlocksBlock :
    [(FsmState.start, true, none, 5), (.down, true, some 2000, 2301), (.down, false, some 0, 5),
        (.downButWaiting, true, some 2000, 2301)].Forall
      fun (st, sec, ts, now) => let s := held (inside S0' st sec ts now .low)
        s.Inv ∧ s.Open ∧ s.fsm.busy = true ∧ s.fsm.state = st ∧ s.fsm.state ≠ .up ∧ s.fsm.hasSec = sec ∧ s.ClockMonotone ∧
          s.env.pins.take.1 = .low ∧ resetWaits s = false := by
  refine ⟨⟨held_inv (inside_inv ⟨rfl, rfl⟩), ?_⟩, ⟨held_inv (inside_inv ⟨rfl, 2000, rfl, by decide⟩), ?_⟩,
    ⟨held_inv (inside_inv ⟨rfl, 0, rfl, by decide⟩), ?_⟩,
    ⟨held_inv (inside_inv ⟨rfl, 2000, rfl, by decide, rfl, by decide⟩), ?_⟩⟩ <;>
    unfold State.ClockMonotone <;> decide

theorem witness_LongPressEndsSilently :
    (inside S0' .downButWaiting true (some 2000) 2600 .high).Inv ∧
    (inside S0' .downButWaiting true (some 2000) 2600 .high).ClockMonotone ∧
    (inside S0' .downButWaiting true (some 2000) 2600 .high).env.pins.take.1 ≠ .low ∧
    after (step (inside S0' .downButWaiting true (some 2000) 2600 .high))
      (fun t => decide (t.env.now ≤ (t.env.clock.take t.env.now).1)) = true :=
  ⟨inside_inv ⟨rfl, 2000, rfl, by decide⟩, by unfold State.ClockMonotone; decide, by decide, by decide⟩

end Sys2Proof.Tests
end

/-! ### The step between invocations -/

namespace Sys2Proof.Machine

/-- The guard of a waiting reset as a fact about the calls (R220). -/
theorem resetWaits_iff {s : State} :
    resetWaits s = true ↔ ∃ w rest, s.calls = w :: rest ∧ decode s.cfg w = .ok .reset := by
  unfold resetWaits
  cases s.calls <;> simp

/-- Between invocations a waiting reset is one more call that is served, so `step_cases` leaves four cases: a call that decodes, one
that does not, the boot, and the next invocation (log 8, log 10). -/
theorem step_cases_between_invocations {s : State} (halive : s.sys.phase ≠ .fatal) (hwork : s.work = []) (hidle : s.fsm.busy = false) :
    (∃ w rest i, s.calls = w :: rest ∧ decode s.cfg w = .ok i ∧ step s = exec i { s with calls := rest }) ∨
    (∃ w rest e, s.calls = w :: rest ∧ decode s.cfg w = .error e ∧ step s = .refused (.undecodable e)) ∨
    (s.calls = [] ∧ s.sys.phase = .uninit ∧ step s = exec .opNew s) ∨
    (s.calls = [] ∧ s.sys.phase = .ready ∧ step s = exec .invoke s) := by
  obtain ⟨hreset, hstep⟩ | ⟨-, hfatal, -⟩ | ⟨-, -, hwaits, -⟩ | ⟨-, -, -, hbusy, -⟩ | ⟨-, -, -, -, hserve⟩ := step_cases s
  · obtain ⟨w, rest, hcalls, hdecode⟩ := resetWaits_iff.mp hreset
    have hexec : step s = exec .reset { s with calls := rest } := by rw [hstep, hcalls]; rfl
    exact .inl ⟨w, rest, .reset, hcalls, hdecode, hexec⟩
  · exact absurd hfatal halive
  · exact absurd hwork hwaits
  · simp [hidle] at hbusy
  · obtain ⟨w, rest, hcalls, ⟨i, hdecode, hstep⟩ | ⟨e, hdecode, hstep⟩⟩ | hown := hserve
    · exact .inl ⟨w, rest, i, hcalls, hdecode, hstep⟩
    · exact .inr (.inl ⟨w, rest, e, hcalls, hdecode, hstep⟩)
    · exact .inr (.inr hown)

/-- Settles O50: the case that `step_cases_between_invocations` gives is the one that the calls, the decoding and the phase select. -/
theorem stepRunsDecodedOperation : Obligations.StepRunsDecodedOperation := by
  intro s halive hwork hidle
  obtain ⟨w, rest, i, hcalls, hdecode, hstep⟩ | ⟨w, rest, e, hcalls, hdecode, -⟩ | ⟨hcalls, hphase, hstep⟩ | ⟨hcalls, hphase, hstep⟩ :=
    step_cases_between_invocations halive hwork hidle
  · refine ⟨fun w' rest' i' hcalls' hdecode' => ?_, by simp [hcalls], by simp [hcalls]⟩
    obtain ⟨rfl, rfl⟩ := List.cons.inj (hcalls.symm.trans hcalls')
    obtain rfl := Except.ok.inj (hdecode.symm.trans hdecode')
    exact hstep
  · refine ⟨fun w' rest' i' hcalls' hdecode' => ?_, by simp [hcalls], by simp [hcalls]⟩
    obtain ⟨rfl, rfl⟩ := List.cons.inj (hcalls.symm.trans hcalls')
    simp [hdecode] at hdecode'
  · exact ⟨by simp [hcalls], fun _ _ => hstep, by simp [hphase]⟩
  · exact ⟨by simp [hcalls], by simp [hphase], fun _ _ => hstep⟩

end Sys2Proof.Machine

namespace Sys2Proof.Machine

/-! ### What a step can do -/

/-- What a step can do when it answers a next state: it is a reset, it resumes the tasks left over, it runs the operation of a call that
waited, or it goes the block's own way (log 8, log 10). -/
inductive StepEffect (s t : State) : Prop
  | reset (hr : resetWaits s = true) (h : t = ({ s with calls := s.calls.tail } : State).resetBlock)
  | resumed (hw : s.work ≠ []) (h : Ended Worked (· ∈ s.work) { s with work := [] } t)
  | served (w : OpWord) (rest : List OpWord) (i : Instr) (hc : s.calls = w :: rest) (hd : decode s.cfg w = .ok i) (hw : s.work = [])
      (hb : s.sys.phase = .ready → s.fsm.busy = false) (h : Effect i { s with calls := rest } t)
  | own (i : Instr) (hi : i = .evaluate ∨ i = .opNew ∨ i = .invoke) (hw : s.work = []) (h : Effect i s t)

theorem step_next {s t : State} (h : step s = .next t) : StepEffect s t := by
  obtain ⟨hreset, hstep⟩ | ⟨-, -, hstep⟩ | ⟨-, -, hwaits, hstep⟩ | ⟨-, -, hwork, -, hstep⟩ |
      ⟨hreset, -, hwork, hbusy, ⟨w, rest, hcalls, ⟨i, hdecode, hstep⟩ | ⟨e, -, hstep⟩⟩ | ⟨-, -, hstep⟩ | ⟨-, -, hstep⟩⟩ :=
    step_cases s <;> rw [hstep] at h
  · exact .reset hreset (Host.Outcome.next.inj h).symm
  · cases h
  · obtain ⟨-, hrun⟩ := State.whenAlive_next.mp h
    exact .resumed hwaits ((runTasks_worked s.work _).ended (fun _ hx => hx) hrun)
  · exact .own .evaluate (.inl rfl) hwork (exec_next h nofun)
  · have hi : i ≠ .reset := by
      rintro rfl
      simp [resetWaits_iff.mpr ⟨w, rest, hcalls, hdecode⟩] at hreset
    exact .served w rest i hcalls hdecode hwork hbusy (exec_next h hi)
  · cases h
  · exact .own .opNew (.inr (.inl rfl)) hwork (exec_next h nofun)
  · exact .own .invoke (.inr (.inr rfl)) hwork (exec_next h nofun)

/-- However an action ends, its relation to the state it began in holds up to the tasks left over. -/
theorem Ended.exists_worked {left : Task → Prop} {s t : State} (h : Ended Worked left s t) :
    ∃ u, Worked s u ∧ t = { u with work := t.work } := by
  cases h with
  | done h => exact ⟨t, h, rfl⟩
  | fatal h => exact ⟨t, h, rfl⟩
  | blocked u h _ _ _ _ _ ht => exact ⟨u, h, by rw [ht]⟩

/-! ### The secondary flag -/

theorem Ended.hasSec {left : Task → Prop} {s t : State} (h : Ended Worked left s t) : t.fsm.hasSec = s.fsm.hasSec := by
  obtain ⟨u, hu, ht⟩ := h.exists_worked
  rw [ht]
  obtain hfsm | hfsm := hu.fsm <;> simp [hfsm]

theorem Transitioned.hasSec {tr : Transition} {s t : State} (h : Transitioned tr s t) : t.fsm.hasSec = s.fsm.hasSec := by
  obtain ⟨-, -, -, -, hended, -⟩ := h
  exact hended.hasSec.trans (fsmAfter_hasSec tr s)

/-- Only an invocation writes the flag (R14, R100), and it starts only between invocations. -/
theorem Effect.hasSec {i : Instr} {s t : State} (h : Effect i s t) (hbusy : s.fsm.busy = true) : t.fsm.hasSec = s.fsm.hasSec := by
  cases h with
  | returned h => rw [h]
  | raised c h => rw [h]; rfl
  | header _ _ h =>
    obtain ⟨h, -⟩ | ⟨d, h⟩ := h
    · rw [h]
    · rw [h]; rfl
  | booted _ _ h => rw [h.1.fsm]
  | loaded _ _ _ h => rw [h.1.fsm]
  | invoked _ _ hidle => simp [hidle] at hbusy
  | evaluated _ _ _ u hsample h => rw [h.hasSec, (State.sample_ok hsample).same]
  | transitioned tr _ h => exact h.hasSec
  | worked _ _ _ hfsm => rw [hfsm]

/-- Settles O58: a step that is no reset resumes tasks, which keep the flag, or runs an operation, and the one that writes the flag is
refused while the FSM is busy. -/
theorem secondaryFlagLatchedForInvocation : Obligations.SecondaryFlagLatchedForInvocation := by
  intro s t hbusy hstep hreset
  cases step_next hstep with
  | reset hr => simp [hreset] at hr
  | resumed _ h => exact h.hasSec
  | served _ _ _ _ _ _ _ h => exact h.hasSec hbusy
  | own _ _ _ h => exact h.hasSec hbusy

/-! ### The invariant -/

/-- The FSM is between or inside invocations (R116, R117). -/
def State.FsmSound (s : State) : Prop := s.fsm.Idle ∨ s.fsm.Running s.env.now s.cfg.longPressThreshold

/-- A task that a block with `n` buttons may have left over: a retry is for one of its buttons, and no `Idle` waits. -/
def Task.Pending (n : Nat) (x : Task) : Prop := (∀ a, x = .retry a → a < n) ∧ x ≠ .emit .idle

theorem Task.Later.pending {x : Task} (h : x.Later) (n : Nat) : x.Pending n := by
  cases x with
  | emit e => exact ⟨nofun, by rintro ⟨⟩; cases h⟩
  | retry a => cases h
  | finish => exact ⟨nofun, nofun⟩

theorem Task.pending_retry {a n : Nat} (h : a < n) : (Task.retry a).Pending n := ⟨by rintro b ⟨⟩; exact h, nofun⟩

theorem State.Inv.pending {s : State} (h : s.Inv) : ∀ x ∈ s.work, x.Pending s.hdr.bdCount :=
  fun _ hx => ⟨fun a ha => h.retry a (ha ▸ hx), fun he => h.noIdle (he ▸ hx)⟩

theorem State.Inv.work_eq_nil {s : State} (h : s.Inv) (hp : s.sys.phase ≠ .ready) : s.work = [] :=
  Classical.byContradiction fun hw => hp (h.waiting hw)

theorem State.Inv.cause_eq_none {s : State} (h : s.Inv) (hp : s.sys.phase ≠ .fatal) : s.sys.cause = none :=
  Classical.byContradiction fun hc => hp (h.cause.mpr hc)

/-! Each phase asks for its own part of the invariant. -/

theorem State.inv_of_uninit {t : State} (hcfg : t.cfg.Valid) (hblob : t.stream.blob.wf)
    (hsys : t.sys = { phase := .uninit, cause := none }) (hheader : t.hdr.bdCount = 0 ∨ t.hdr.Decoded) (hfsm : t.fsm.Idle)
    (hcursor : t.disp.cursor = 0) (hwork : t.work = []) : t.Inv where
  cfg := hcfg
  blob := hblob
  cause := by simp [hsys]
  header := fun _ => hheader
  uninit := fun _ => ⟨hfsm, hcursor⟩
  ready := by simp [hsys]
  waiting := by simp [hwork]
  retry := by simp [hwork]
  noIdle := by simp [hwork]

theorem State.inv_of_ready {t : State} (hcfg : t.cfg.Valid) (hblob : t.stream.blob.wf)
    (hsys : t.sys = { phase := .ready, cause := none }) (hheader : t.hdr.Decoded) (haddr : t.hdr.bdCount ≤ 2 ^ t.cfg.muxAddrWidth)
    (hpage : t.PageLoaded) (hfsm : t.FsmSound) (hwork : ∀ x ∈ t.work, x.Pending t.hdr.bdCount) : t.Inv where
  cfg := hcfg
  blob := hblob
  cause := by simp [hsys]
  header := fun _ => .inr hheader
  uninit := by simp [hsys]
  ready := fun _ => ⟨hheader, haddr, hpage, hfsm⟩
  waiting := fun _ => by rw [hsys]
  retry := fun a ha => (hwork _ ha).1 a rfl
  noIdle := fun hi => (hwork _ hi).2 rfl

theorem State.inv_of_fatal {t : State} (hcfg : t.cfg.Valid) (hblob : t.stream.blob.wf) (hphase : t.sys.phase = .fatal)
    (hcause : t.sys.cause ≠ none) (hwork : t.work = []) : t.Inv where
  cfg := hcfg
  blob := hblob
  cause := by simp [hphase, hcause]
  header := fun h => absurd hphase h
  uninit := by simp [hphase]
  ready := by simp [hphase]
  waiting := by simp [hwork]
  retry := by simp [hwork]
  noIdle := by simp [hwork]

/-- Once booted, the header stays, so a step has to keep the page, the FSM and the tasks left over. -/
theorem State.Inv.of_ready {s t : State} (h : s.Inv) (hready : s.sys.phase = .ready) (hcfg : t.cfg = s.cfg)
    (hblob : t.stream.blob = s.stream.blob) (hsys : t.sys = s.sys) (hhdr : t.hdr = s.hdr) (hpage : s.PageLoaded → t.PageLoaded)
    (hfsm : s.FsmSound → t.FsmSound) (hwork : ∀ x ∈ t.work, x.Pending s.hdr.bdCount) : t.Inv := by
  obtain ⟨hheader, haddr, hloaded, hsound⟩ := h.ready hready
  refine State.inv_of_ready (hcfg ▸ h.cfg) (hblob ▸ h.blob) ?_ (hhdr ▸ hheader) (by rw [hhdr, hcfg]; exact haddr) (hpage hloaded)
    (hfsm hsound) (by rw [hhdr]; exact hwork)
  rw [hsys, ← hready, ← h.cause_eq_none (by simp [hready])]

/-- The invariant does not speak of the requests and the returned value. -/
theorem State.Inv.with_calls_ret {s : State} (h : s.Inv) (calls : List OpWord) (ret : Option Returned) :
    ({ s with calls := calls, ret := ret } : State).Inv where
  cfg := h.cfg
  blob := h.blob
  cause := h.cause
  header := h.header
  uninit := h.uninit
  ready := fun hp =>
    have ⟨hheader, haddr, hpage, hfsm⟩ := h.ready hp
    ⟨hheader, haddr, ⟨hpage.page, hpage.cursor⟩, hfsm⟩
  waiting := h.waiting
  retry := h.retry
  noIdle := h.noIdle

/-! ### Reset and the raise -/

theorem State.resetBlock_inv {s : State} (hcfg : s.cfg.Valid) (hblob : s.stream.blob.wf) : s.resetBlock.Inv :=
  State.inv_of_uninit hcfg hblob rfl (.inl rfl) ⟨rfl, rfl, rfl⟩ rfl rfl

theorem State.Inv.raiseFatal {s : State} (h : s.Inv) (c : Cause) : (s.raiseFatal c).Inv := by
  refine State.inv_of_fatal h.cfg h.blob rfl ?_ rfl
  by_cases hp : s.sys.phase = .fatal
  · simpa [hp] using h.cause.mp hp
  · simp [hp]

/-- Settles O52: the state after reset is its own reset, with the parameters of log 1 and an empty blob. -/
theorem resetMeetsInvariant : Obligations.ResetMeetsInvariant :=
  State.resetBlock_inv (s := State.reset) (by decide) Mem.wf_nil

/-- Settles O1: reset puts down the registers of `State.reset`, and these are the values of R33. -/
theorem resetPutsRegistersAtResetValues : Obligations.ResetPutsRegistersAtResetValues :=
  ⟨⟨rfl, rfl, rfl, rfl, rfl, rfl⟩, fun s => ⟨s.resetBlock, rfl, ⟨rfl, rfl, rfl, rfl, rfl, rfl⟩, rfl, rfl, rfl⟩⟩

/-! ### Actions and page loads -/

theorem Worked.fsmSound {s t : State} (h : Worked s t) (hs : s.FsmSound) : t.FsmSound := by
  obtain hfsm | hfsm := h.fsm
  · unfold State.FsmSound
    rw [hfsm, h.same.now, h.same.cfg]
    exact hs
  · exact .inl (hfsm ▸ ⟨rfl, rfl, rfl⟩)

/-- However an action ends, the invariant holds, if it holds where the action begins and the tasks it may leave can wait. -/
theorem State.Inv.ended {left : Task → Prop} {s t : State} (h : s.Inv) (hready : s.sys.phase = .ready)
    (hleft : ∀ x, left x → x.Pending s.hdr.bdCount) (hended : Ended Worked left s t) : t.Inv := by
  cases hended with
  | done hw hsys hwork =>
    exact h.of_ready hready hw.same.cfg hw.same.blob hsys hw.same.hdr hw.loaded hw.fsmSound (hwork ▸ h.pending)
  | fatal hw hphase hcause hwork =>
    exact State.inv_of_fatal (hw.same.cfg ▸ h.cfg) (hw.same.blob ▸ h.blob) hphase (hcause (by simp [hready])) hwork
  | blocked u hw hsys a ts ha hl ht =>
    subst ht
    refine h.of_ready hready hw.same.cfg hw.same.blob hsys hw.same.hdr (fun hp => ⟨(hw.loaded hp).page, (hw.loaded hp).cursor⟩)
      hw.fsmSound fun x hx => ?_
    obtain rfl | hx := List.mem_cons.mp hx
    · exact Task.pending_retry ha
    · exact hleft x (hl x hx)

theorem State.Inv.loaded {s t : State} (h : s.Inv) (halive : s.sys.phase ≠ .fatal) (hl : Loaded s t) : t.Inv := by
  obtain ⟨hsame, ⟨hsys, hwork, hpage⟩ | ⟨hphase, hcause, hwork, -⟩⟩ := hl
  · cases hp : s.sys.phase with
    | uninit =>
      obtain ⟨hidle, hcursor⟩ := h.uninit hp
      refine State.inv_of_uninit (hsame.cfg ▸ h.cfg) (hsame.blob ▸ h.blob) ?_ (hsame.hdr ▸ h.header halive) (hsame.fsm ▸ hidle)
        (hsame.disp ▸ hcursor) (hwork.trans (h.work_eq_nil (by simp [hp])))
      rw [hsys, ← hp, ← h.cause_eq_none halive]
    | ready =>
      refine h.of_ready hp hsame.cfg hsame.blob hsys hsame.hdr (fun hl => hsame.pageLoaded hl hpage) (fun hf => ?_) (hwork ▸ h.pending)
      unfold State.FsmSound
      rw [hsame.fsm, hsame.now, hsame.cfg]
      exact hf
    | fatal => exact absurd hp halive
  · exact State.inv_of_fatal (hsame.cfg ▸ h.cfg) (hsame.blob ▸ h.blob) hphase (hcause halive) hwork

/-! ### Header and boot -/

theorem State.Inv.with_header {s : State} (h : s.Inv) (huninit : s.sys.phase = .uninit) {d : Hdr} (hd : d.Decoded) :
    ({ s with hdr := d } : State).Inv := by
  obtain ⟨hidle, hcursor⟩ := h.uninit huninit
  refine State.inv_of_uninit h.cfg h.blob ?_ (.inr hd) hidle hcursor (h.work_eq_nil (by simp [huninit]))
  rw [← huninit, ← h.cause_eq_none (by simp [huninit])]

theorem State.Inv.booted {s t : State} (h : s.Inv) (huninit : s.sys.phase = .uninit) (hboot : Booted s t) : t.Inv := by
  obtain ⟨hsame, ⟨hphase, hcause, hwork⟩ | ⟨hphase, hcause, hwork, hheader, haddr, hpage⟩⟩ := hboot
  · exact State.inv_of_fatal (hsame.cfg ▸ h.cfg) (hsame.blob ▸ h.blob) hphase hcause hwork
  · obtain ⟨hidle, hcursor⟩ := h.uninit huninit
    have hloaded : t.PageLoaded := ⟨hpage, by rw [hsame.disp]; exact hcursor ▸ hheader.positive⟩
    refine State.inv_of_ready (hsame.cfg ▸ h.cfg) (hsame.blob ▸ h.blob) ?_ hheader haddr hloaded (.inl (hsame.fsm ▸ hidle)) ?_
    · rw [← hphase, ← h.cause_eq_none (by simp [huninit]), ← hcause]
    · simp [hwork, h.work_eq_nil (by simp [huninit])]

/-! ### Evaluations -/

/-- Time goes on inside an invocation, and no condition on the timestamp is lost. -/
theorem Fsm.Running.mono {f : Fsm} {now later threshold : Nat} (h : f.Running now threshold) (hle : now ≤ later) :
    f.Running later threshold := by
  obtain ⟨hbusy, h⟩ := h
  refine ⟨hbusy, ?_⟩
  cases hstate : f.state <;> simp only [hstate] at h ⊢
  · exact h
  · obtain ⟨ts, hts, hnow⟩ := h
    exact ⟨ts, hts, hnow.trans hle⟩
  · obtain ⟨ts, hts, hnow, hsec, hover⟩ := h
    exact ⟨ts, hts, hnow.trans hle, hsec, by omega⟩
  · obtain ⟨ts, hts, hnow⟩ := h
    exact ⟨ts, hts, hnow.trans hle⟩

theorem State.Inv.sampled {s t : State} (h : s.Inv) (hready : s.sys.phase = .ready) (hs : Sampled s t) : t.Inv := by
  have hnow := hs.now
  rw [hs.same]
  exact h.of_ready hready rfl rfl rfl rfl (fun hp => ⟨hp.page, hp.cursor⟩) (.imp_right (·.mono hnow)) h.pending

/-- An invocation starts in `Start`, busy and still without a timestamp (R100). -/
theorem State.Inv.invoked {s : State} (h : s.Inv) (ho : s.Open) (hidle : s.fsm.busy = false) (sec : Bool) :
    ({ s.setAddress s.disp.cursor with fsm := { s.fsm with hasSec := sec, state := .start, busy := true } } : State).Inv := by
  refine h.of_ready ho.1 rfl rfl rfl rfl (fun hp => ⟨hp.page, hp.cursor⟩) (fun hf => .inr ?_) h.pending
  obtain ⟨-, -, hts⟩ | ⟨hbusy, -⟩ := hf
  · exact ⟨rfl, hts⟩
  · simp [hidle] at hbusy

theorem State.heldPast_of_long {s : State} (h : s.long = true) : s.HeldPast := by
  unfold State.long at h
  split at h
  · rename_i ts hts
    simp only [Bool.and_eq_true, State.over, decide_eq_true_eq] at h
    exact ⟨h.1, ts, hts, h.2⟩
  · cases h

/-- The selected transition leads from inside an invocation to the inside of one, or to its end (R105 to R114): `Start/IsDown` sets the
timestamp to now, and `Down/HeldLong` was selected because the button was held past the threshold. -/
theorem fsmAfter_sound {s : State} {tr : Transition} (h : s.fsm.Running s.env.now s.cfg.longPressThreshold)
    (hsel : decodeDecider s.deciderWord = tr) : ({ s with fsm := fsmAfter tr s } : State).FsmSound := by
  obtain ⟨hbusy, hts⟩ := h
  rw [decodeDecider_deciderWord] at hsel
  cases hstate : s.fsm.state <;> simp only [hstate] at hts hsel
  case start =>
    split at hsel <;> subst hsel
    · exact .inr ⟨hbusy, s.env.now, rfl, le_rfl⟩
    · exact .inl ⟨rfl, rfl, hts⟩
  case down =>
    obtain ⟨ts, hpress, hnow⟩ := hts
    split at hsel
    · rename_i hlong
      subst hsel
      obtain ⟨hsec, ts', hpress', hover⟩ := State.heldPast_of_long hlong
      obtain rfl := Option.some.inj (hpress.symm.trans hpress')
      exact .inr ⟨hbusy, ts, hpress, hnow, hsec, hover⟩
    · split at hsel <;> subst hsel <;> exact .inr ⟨hbusy, ts, hpress, hnow⟩
  case downButWaiting =>
    obtain ⟨ts, hpress, hnow, hsec, hover⟩ := hts
    split at hsel <;> subst hsel
    · exact .inr ⟨hbusy, ts, hpress, hnow, hsec, hover⟩
    · exact .inr ⟨hbusy, ts, hpress, hnow⟩
  case up =>
    have hfsm : fsmAfter tr s = s.fsm := by
      split at hsel
      · split at hsel <;> subst hsel <;> rfl
      · subst hsel; rfl
    refine .inr ?_
    rw [hfsm]
    exact ⟨hbusy, by simpa only [hstate] using hts⟩

theorem State.Inv.transitioned {tr : Transition} {s t : State} (h : s.Inv) (htr : Transitioned tr s t) : t.Inv := by
  obtain ⟨⟨hready, -, -⟩, hbusy, -, hsel, hended, -⟩ := htr
  have hsound (hf : s.FsmSound) : ({ s with fsm := fsmAfter tr s } : State).FsmSound := by
    obtain ⟨-, hidle, -⟩ | hrun := hf
    · simp [hidle] at hbusy
    · exact fsmAfter_sound hrun hsel
  have hbegin : ({ s with fsm := fsmAfter tr s } : State).Inv :=
    h.of_ready hready rfl rfl rfl rfl (fun hp => ⟨hp.page, hp.cursor⟩) hsound h.pending
  exact hbegin.ended hready (fun _ hx => hx.pending _) hended

/-! ### Every step -/

theorem Effect.inv {i : Instr} {s t : State} (he : Effect i s t) (h : s.Inv) : t.Inv := by
  cases he with
  | returned ht => rw [ht]; exact h.with_calls_ret s.calls t.ret
  | raised c ht => rw [ht]; exact h.raiseFatal c
  | header _ huninit ht =>
    obtain ⟨ht, hd⟩ | ⟨d, ht⟩ := ht
    · rw [ht]; exact h.with_header huninit hd
    · rw [ht]
      exact State.inv_of_fatal h.cfg h.blob rfl (by simp [huninit]) rfl
  | booted _ huninit hboot => exact h.booted huninit hboot
  | loaded _ halive _ hl => exact h.loaded halive hl
  | invoked _ ho hidle sec ht => rw [ht]; exact h.invoked ho hidle sec
  | evaluated _ ho _ u hsample htr => exact (h.sampled ho.1 (State.sample_ok hsample)).transitioned htr
  | transitioned tr _ htr => exact h.transitioned htr
  | worked ho hended => exact h.ended ho.1 (fun _ hx => hx.pending _) hended

/-- Settles O53: a reset meets the invariant from any good parameters and blob, the tasks left over keep it because the invariant says
of each that it can wait, and every other operation keeps it. -/
theorem stepKeepsInvariant : Obligations.StepKeepsInvariant := by
  intro s t h hstep
  cases step_next hstep with
  | reset _ ht => rw [ht]; exact State.resetBlock_inv h.cfg h.blob
  | resumed hwaits hended =>
    have hready : s.sys.phase = .ready := h.waiting hwaits
    have hbegin : ({ s with work := [] } : State).Inv :=
      h.of_ready hready rfl rfl rfl rfl (fun hp => ⟨hp.page, hp.cursor⟩) id nofun
    exact hbegin.ended hready h.pending hended
  | served _ rest _ _ _ _ _ he => exact he.inv (h.with_calls_ret rest s.ret)
  | own _ _ _ he => exact he.inv h

end Sys2Proof.Machine

namespace Sys2Proof.Machine

/-! ### A page load as an operation -/

/-- Under its guards the operation is the page load itself, and a `Fatal` in it is a next state (R136; log 7). -/
theorem exec_loadPage {s : State} (halive : s.Alive) (hwork : s.work = []) (hheader : 0 < s.hdr.bdCount) (k : U16) :
    exec (.loadPage k) s = (loadPage k.toNat s).toResult := by
  change s.whenAlive _ = _
  rw [State.whenAlive_of halive, if_neg (not_not.mpr hwork), if_neg hheader.ne']

/-- Settles O25: a load that succeeds commits the page it read, and one that fails commits nothing. -/
theorem loadPageIsAllOrNothing : Obligations.LoadPageIsAllOrNothing := by
  intro s k halive hwork hheader
  rw [exec_loadPage halive hwork hheader]
  cases hload : loadPage k.toNat s with
  | ok u t =>
    obtain ⟨hmoved, hsys, hkept, hmux, hdraws, hpage⟩ := loadPage_ok hload
    exact ⟨t, rfl, hmoved.toSameButPage, hmux, hkept.trans hwork, hdraws, .inl ⟨hsys, hpage⟩⟩
  | fatal t =>
    have hfailed := loadPage_fatal hload
    exact ⟨t, rfl, hfailed.toSameButPage, hfailed.mux, hfailed.work, hfailed.draws,
      .inr ⟨hfailed.phase, hfailed.cause halive.1, hfailed.page⟩⟩

/-! ### The first stream call that fails -/

/-- From a block that is alive and has nothing left to do, a raise after the calls `before` and the failed one is their failure. -/
theorem State.afterCalls_raiseFatal {s : State} (halive : s.sys.phase ≠ .fatal) (hwork : s.work = []) (before : List TraceRecord)
    (r : TraceRecord) (cause : Cause) :
    (s.afterCalls (positionAfter s.stream.pos before) (before ++ [r]) (before.length + 1)).raiseFatal cause =
      s.afterFailure before r cause := by
  simp [State.afterCalls, State.raiseFatal, State.afterFailure, halive, hwork]

/-- A boot makes no call before the read of the header block, so that read's failure is its first (R130, R197). -/
theorem exec_opNew_readFailed {s : State} (hcfg : s.cfg.Valid) (huninit : s.sys.phase = .uninit) (hwork : s.work = [])
    (hpos : s.stream.pos = 0) (hfail : s.env.stream.nth 0 = false) :
    exec .opNew s = .next (s.afterFailure [] (.read s.cfg.rowLength .error) .streamRead) := by
  have halive : s.sys.phase ≠ .fatal := by simp [huninit]
  change s.whenAlive _ = _
  rw [State.whenAlive_of ⟨halive, hcfg⟩, if_neg (by simp [huninit]), if_neg (not_not.mpr hpos), streamRead_failed hfail]
  exact congrArg Host.Outcome.next (State.afterCalls_raiseFatal halive hwork [] _ _)

/-- Settles O27: a page load whose first failing call is known ends in that call's failure, and so does a boot whose first call fails. -/
theorem streamFailuresRaiseTheirCause : Obligations.StreamFailuresRaiseTheirCause := by
  refine ⟨fun s k halive hwork hheader before after c hcalls hanswered hfail hinside => ?_, fun s => exec_opNew_readFailed⟩
  obtain ⟨hseek, hread⟩ := (loadPage_first_failure halive.2 halive.1 hwork hcalls hanswered hinside).1 hfail
  rw [exec_loadPage halive hwork hheader]
  exact ⟨fun p ok hc => by rw [hseek p ok hc]; rfl, fun n r hc => by rw [hread n r hc]; rfl⟩

/-! ### The configuration stream and the parameters -/

/-- The blob, its length and the parameters are the same in both states (R31, R48). -/
def State.SameStore (s t : State) : Prop :=
  t.stream.blob = s.stream.blob ∧ t.stream.len = s.stream.len ∧ t.cfg = s.cfg

theorem State.SameButPage.sameStore {s t : State} (h : s.SameButPage t) : s.SameStore t := ⟨h.blob, h.len, h.cfg⟩

theorem State.SameStore.trans {s t u : State} (h : s.SameStore t) (k : t.SameStore u) : s.SameStore u :=
  have ⟨hblob, hlen, hcfg⟩ := h
  have ⟨kblob, klen, kcfg⟩ := k
  ⟨kblob.trans hblob, klen.trans hlen, kcfg.trans hcfg⟩

theorem State.raiseFatal_sameStore (s : State) (c : Cause) : s.SameStore (s.raiseFatal c) := ⟨rfl, rfl, rfl⟩

/-- An action keeps the store, whatever tasks it leaves. -/
theorem Ended.sameStore {left : Task → Prop} {s t : State} (h : Ended Worked left s t) : s.SameStore t := by
  obtain ⟨u, hworked, ht⟩ := h.exists_worked
  rw [ht]
  exact hworked.same.sameStore

/-- A transition works from the state with the FSM changed, which has the same store. -/
theorem Transitioned.sameStore {tr : Transition} {s t : State} (h : Transitioned tr s t) : s.SameStore t := by
  obtain ⟨-, -, -, -, hended, -⟩ := h
  exact hended.sameStore

theorem Sampled.sameStore {s t : State} (h : Sampled s t) : s.SameStore t := by
  rw [h.same]
  exact ⟨rfl, rfl, rfl⟩

theorem Effect.sameStore {i : Instr} {s t : State} (h : Effect i s t) : s.SameStore t := by
  cases h with
  | returned ht => rw [ht]; exact ⟨rfl, rfl, rfl⟩
  | raised c ht => rw [ht]; exact s.raiseFatal_sameStore c
  | header _ _ ht =>
    obtain ⟨ht, -⟩ | ⟨d, ht⟩ := ht
    · rw [ht]; exact ⟨rfl, rfl, rfl⟩
    · rw [ht]; exact State.raiseFatal_sameStore _ _
  | booted _ _ hboot => exact hboot.1.sameStore
  | loaded _ _ _ hload => exact hload.1.sameStore
  | invoked _ _ _ sec ht => rw [ht]; exact ⟨rfl, rfl, rfl⟩
  | evaluated _ _ _ u hsample htr => exact (State.sample_ok hsample).sameStore.trans htr.sameStore
  | transitioned tr _ htr => exact htr.sameStore
  | worked _ hended => exact hended.sameStore

/-- Settles O55: a reset keeps the blob, its length and the parameters, and so do the tasks left over and every other operation. -/
theorem stepNeverWritesStreamOrParameters : Obligations.StepNeverWritesStreamOrParameters := by
  intro s t hstep
  cases step_next hstep with
  | reset _ ht => rw [ht]; exact ⟨rfl, rfl, rfl⟩
  | resumed _ hended => exact hended.sameStore
  | served _ _ _ _ _ _ _ heffect => exact heffect.sameStore
  | own _ _ _ heffect => exact heffect.sameStore

end Sys2Proof.Machine

namespace Sys2Proof

/-! ### The cubes of the decider table -/

/-- Every decider word lies in the cube of the transition it selects (R84): the cubes cover the words. -/
theorem decodeDecider_cube (d : BitVec 5) : d &&& (decodeDecider d).maskWord = (decodeDecider d).matchWord := by
  revert d; decide

theorem Transition.mem_all (t : Transition) : t ∈ Transition.all := by cases t <;> decide

/-- Two different rows of R84's table disagree in a bit that both of them fix. -/
theorem Transition.rows_disagree :
    ∀ t ∈ Transition.all, ∀ u ∈ Transition.all, t.matchWord &&& u.maskWord = u.matchWord &&& t.maskWord → t = u := by
  decide

/-- No word lies in two cubes: it would make the rows agree in every bit that both fix. -/
theorem Transition.eq_of_cubes_meet {t u : Transition} {d : BitVec 5} (ht : d &&& t.maskWord = t.matchWord)
    (hu : d &&& u.maskWord = u.matchWord) : t = u := by
  apply Transition.rows_disagree t t.mem_all u u.mem_all
  rw [← ht, ← hu, BitVec.and_assoc, BitVec.and_assoc, BitVec.and_comm t.maskWord]

end Sys2Proof

namespace Sys2Proof.Machine

/-- Settles O5: the cubes cover every word and no two of them meet. -/
theorem deciderWordSelectsExactlyOneTransition : Obligations.DeciderWordSelectsExactlyOneTransition := by
  intro d t
  constructor
  · exact fun ht => Transition.eq_of_cubes_meet ht (decodeDecider_cube d)
  · rintro rfl
    exact decodeDecider_cube d

/-! ### The bits of the decider word -/

/-- The two upper bits of the decider word stand for the state (R82, R83). -/
theorem State.deciderWord_state (s : State) : FsmState.ofBits (s.deciderWord.extractLsb' 3 2) = s.fsm.state := by
  have hbits : s.deciderWord.extractLsb' 3 2 = s.fsm.state.bits := by
    rw [State.deciderWord, BitVec.extractLsb'_append_eq_of_le (by decide), BitVec.extractLsb'_append_eq_of_le (by decide),
      BitVec.extractLsb'_append_eq_left]
  rw [hbits]
  cases s.fsm.state <;> rfl

/-- The three lower bits of the decider word are `p`, `h` and `l` (R83). -/
theorem State.deciderWord_lower_bits (s : State) :
    s.deciderWord.getLsbD 2 = s.pressed ∧ s.deciderWord.getLsbD 1 = s.fsm.hasSec ∧ s.deciderWord.getLsbD 0 = s.long := by
  simp only [State.deciderWord, BitVec.getLsbD_append]
  simp

/-- Every state but `Up` looks at the sample (R102). -/
theorem State.pressed_of_ne_up {s : State} (h : s.fsm.state ≠ .up) : s.pressed = decide (s.env.pin = .low) := by
  cases hs : s.fsm.state with
  | up => exact absurd hs h
  | start | down | downButWaiting => simp [State.pressed, hs, beq_eq_decide]

/-- With a timestamp, `long` is `has_sec` and a time over the threshold (R103). -/
theorem State.long_of_pressTs {s : State} {ts : Nat} (h : s.fsm.pressTs = some ts) :
    s.long = (s.fsm.hasSec && decide (s.cfg.longPressThreshold < s.env.now - ts)) := by
  rw [State.long, h]
  rfl

/-- Settles O6: each bit of the word, and what it stands for. -/
theorem deciderWordBits : Obligations.DeciderWordBits := by
  intro s
  obtain ⟨hpressed, hsec, hlong⟩ := s.deciderWord_lower_bits
  exact ⟨s.deciderWord_state, fun hup => hpressed.trans (State.pressed_of_ne_up hup), hsec,
    fun _ ts hts => hlong.trans (State.long_of_pressTs hts)⟩

/-! ### Slots and words -/

/-- A `ChangePage` slot of the payload's length returns its function (R153). -/
theorem exec_slotChangePage {s : State} (halive : s.Alive) (hi : BitVec 4) {payload : List Byte}
    (hlength : payload.length = s.cfg.dataSize) :
    exec (.slotChangePage hi payload) s = .next { s with ret := some (.function (.changePage (targetPage payload))) } :=
  State.returning_of (i := .slotChangePage hi payload) halive (beq_iff_eq.mpr hlength) _

/-- Settles O31: the target page is the `le16` of the first two payload bytes. -/
theorem changePageDecodes : Obligations.ChangePageDecodes :=
  fun _ hi _ halive hlength => ⟨_, exec_slotChangePage halive hi hlength, le16_toNat _ _⟩

/-- Settles O47: the words are decider words in a byte, a slot with code 1 and high nibble 2, and event codes. -/
theorem wordsDecodeAsTabled : Obligations.WordsDecodeAsTabled :=
  ⟨decode_deciderWord _ 0b00000, decode_deciderWord _ 0b01011, decode_deciderWord _ 0b11001,
    decode_slotWord (hi := 2) (code := modeChangePage) rfl, rfl, rfl⟩

end Sys2Proof.Machine

namespace Sys2Proof

/-! ### The symbol of `Up/ShortUp` -/

theorem ShortUpSymbol.event_eq_shortUp_or_shortTriggered (y : ShortUpSymbol) : y.event = .shortUp ∨ y.event = .shortTriggered := by
  cases y
  · exact .inl rfl
  · exact .inr rfl

theorem ShortUpSymbol.event_ne_idle (y : ShortUpSymbol) : y.event ≠ .idle := by cases y <;> decide

end Sys2Proof

namespace Sys2Proof.Machine

/-! ### Which transition is selected -/

theorem decodeDecider_start {s : State} (h : s.fsm.state = .start) :
    decodeDecider s.deciderWord = if s.env.pin = .low then .startIsDown else .startIsUp := by
  simp [decodeDecider_deciderWord, h]

theorem decodeDecider_downButWaiting {s : State} (h : s.fsm.state = .downButWaiting) :
    decodeDecider s.deciderWord = if s.env.pin = .low then .downButWaitingStillDown else .downButWaitingReleased := by
  simp [decodeDecider_deciderWord, h]

theorem State.HeldPast.decodeDecider_down {s : State} (h : s.HeldPast) (hdown : s.fsm.state = .down) :
    decodeDecider s.deciderWord = .downHeldLong := by
  simp [decodeDecider_deciderWord, hdown, h.long]

theorem State.NotHeldPast.decodeDecider_down {s : State} (h : s.NotHeldPast) (hdown : s.fsm.state = .down) :
    decodeDecider s.deciderWord = if s.env.pin = .low then .downStillDown else .downAnyUp := by
  simp [decodeDecider_deciderWord, hdown, h.long]

theorem State.HeldPast.decodeDecider_up {s : State} (h : s.HeldPast) (hup : s.fsm.state = .up) :
    decodeDecider s.deciderWord = .upUpAfterLong := by
  simp [decodeDecider_deciderWord, hup, h.1, h.long]

theorem State.NotHeldPast.decodeDecider_up {s : State} (h : s.NotHeldPast) (hup : s.fsm.state = .up) :
    decodeDecider s.deciderWord = if s.fsm.hasSec then .upShortHeld else .upShortUp := by
  simp [decodeDecider_deciderWord, hup, h.long]

/-- Settles O11: at the threshold the button is not held past it, one unit later it is. -/
theorem longPressBoundaryIsStrict : Obligations.LongPressBoundaryIsStrict := by
  intro s ts hsec hts
  refine ⟨fun hnow => ?_, fun hnow => ?_⟩
  · have hheld : s.NotHeldPast := .inr ⟨ts, hts, by omega, by omega⟩
    exact ⟨fun hdown hlow => (hheld.decodeDecider_down hdown).trans (if_pos hlow),
      fun hup => (hheld.decodeDecider_up hup).trans (if_pos hsec)⟩
  · have hheld : s.HeldPast := ⟨hsec, ts, hts, by omega⟩
    exact ⟨hheld.decodeDecider_down, hheld.decodeDecider_up⟩

/-! ### A transition as a list of tasks -/

theorem runTasks_singleton (x : Task) (s : State) : runTasks [x] s = runTask x s := by
  rw [runTasks_cons]
  cases runTask x s with
  | blocked t rest => simp
  | _ => rfl

/-- What a transition does once the FSM is `fsmAfter` (R105 to R114). -/
def tasksAfter (tr : Transition) (s : State) : List Task :=
  match tr with
  | .startIsUp => [.emit .idle]
  | .startIsDown => if s.fsm.hasSec then [] else [.emit .shortDown]
  | .downHeldLong => [.emit .longTriggered]
  | .downStillDown | .downAnyUp | .downButWaitingStillDown | .downButWaitingReleased => []
  | .upUpAfterLong => [.finish]
  | .upShortHeld => [.emit .shortDown, .emit .shortTriggered, .finish]
  | .upShortUp => [.emit s.cfg.shortUpSymbol.event, .finish]

theorem retry_not_mem_tasksAfter (tr : Transition) (s : State) (a : Nat) : Task.retry a ∉ tasksAfter tr s := by
  cases tr with
  | startIsDown => cases h : s.fsm.hasSec <;> simp [tasksAfter, h]
  | _ => simp [tasksAfter]

/-- Where a transition is selected, it changes the FSM and does its tasks. -/
theorem exec_selected {s : State} {tr : Transition} (ho : s.Open) (hbusy : s.fsm.busy = true) (helapsed : s.elapsedStop = none)
    (hsel : decodeDecider s.deciderWord = tr) :
    exec tr.instr s = (runTasks (tasksAfter tr s) { s with fsm := fsmAfter tr s }).toResult := by
  have hguard := State.whenSelected_of ho hbusy helapsed hsel
  rw [exec_transition]
  cases tr with
  | startIsUp | downHeldLong => rw [tasksAfter, runTasks_singleton]; exact hguard _
  | startIsDown =>
    refine (hguard _).trans ?_
    cases hsec : s.fsm.hasSec with
    | true => simp [tasksAfter, hsec, runTasks, Flow.toResult, fsmAfter]
    | false => simp [tasksAfter, hsec, runTasks_singleton, runTask, fsmAfter]
  | _ => exact hguard _

/-- Settles O15: neither transition has a task, and the FSM is put into the state it is in. -/
theorem stillDownChangesNothing : Obligations.StillDownChangesNothing := by
  rintro ⟨⟨state, busy, pressTs, hasSec⟩, _⟩ ho hbusy hlow
  refine ⟨?_, ?_⟩
  · rintro rfl hheld
    exact exec_selected (tr := .downStillDown) ho hbusy hheld.elapsedStop ((hheld.decodeDecider_down rfl).trans (if_pos hlow))
  · rintro rfl
    exact exec_selected (tr := .downButWaitingStillDown) ho hbusy (State.elapsedStop_waiting rfl)
      ((decodeDecider_downButWaiting rfl).trans (if_pos hlow))

/-- Settles O16: neither transition has a task, and the FSM goes to `Up`. -/
theorem releaseLeadsToUp : Obligations.ReleaseLeadsToUp := by
  intro s ho hbusy hpin
  refine ⟨fun hdown hheld => ?_, fun hwaiting => ?_⟩
  · exact exec_selected (tr := .downAnyUp) ho hbusy hheld.elapsedStop ((hheld.decodeDecider_down hdown).trans (if_neg hpin))
  · exact exec_selected (tr := .downButWaitingReleased) ho hbusy (State.elapsedStop_waiting hwaiting)
      ((decodeDecider_downButWaiting hwaiting).trans (if_neg hpin))

/-- `Up/UpAfterLong` is the end of the invocation alone (R112). -/
theorem exec_upUpAfterLong {s : State} (ho : s.Open) (hbusy : s.fsm.busy = true) (hup : s.fsm.state = .up) (hheld : s.HeldPast) :
    exec .upUpAfterLong s = .next s.finish :=
  exec_selected (tr := .upUpAfterLong) ho hbusy hheld.elapsedStop (hheld.decodeDecider_up hup)

/-- Settles O17: the end of an invocation writes the FSM only. -/
theorem upAfterLongEndsWithoutEvent : Obligations.UpAfterLongEndsWithoutEvent := fun _ => exec_upUpAfterLong

/-- `Up/ShortHeld` emits its two events and ends the invocation (R113). -/
theorem exec_upShortHeld {s : State} (ho : s.Open) (hbusy : s.fsm.busy = true) (hup : s.fsm.state = .up) (hsec : s.fsm.hasSec = true)
    (hheld : s.NotHeldPast) :
    exec .upShortHeld s = (runTasks [.emit .shortDown, .emit .shortTriggered, .finish] s).toResult :=
  exec_selected (tr := .upShortHeld) ho hbusy hheld.elapsedStop ((hheld.decodeDecider_up hup).trans (if_pos hsec))

/-- `Up/ShortUp` emits its one event and ends the invocation, whatever the time (R114). -/
theorem exec_upShortUp {s : State} (ho : s.Open) (hbusy : s.fsm.busy = true) (hup : s.fsm.state = .up) (hsec : s.fsm.hasSec = false) :
    exec .upShortUp s = (runTasks [.emit s.cfg.shortUpSymbol.event, .finish] s).toResult :=
  have hheld : s.NotHeldPast := .inl hsec
  exec_selected (tr := .upShortUp) ho hbusy hheld.elapsedStop ((hheld.decodeDecider_up hup).trans (if_neg (by simp [hsec])))

/-- `Start/IsDown` sets the timestamp, goes to `Down`, and without a secondary function emits `ShortDown` there (R106). -/
theorem exec_startIsDown {s : State} (ho : s.Open) (hbusy : s.fsm.busy = true) (hstart : s.fsm.state = .start) (hlow : s.env.pin = .low) :
    exec .startIsDown s =
      if s.fsm.hasSec then .next { s with fsm := { s.fsm with pressTs := some s.env.now, state := .down } }
      else (emit .shortDown { s with fsm := { s.fsm with pressTs := some s.env.now, state := .down } }).toResult :=
  State.whenSelected_of ho hbusy (State.elapsedStop_start hstart) ((decodeDecider_start hstart).trans (if_pos hlow)) _

/-- `Down/HeldLong` emits `LongTriggered` in `DownButWaiting` (R107). -/
theorem exec_downHeldLong {s : State} (ho : s.Open) (hbusy : s.fsm.busy = true) (hdown : s.fsm.state = .down) (hheld : s.HeldPast) :
    exec .downHeldLong s = (emit .longTriggered { s with fsm := { s.fsm with state := .downButWaiting } }).toResult :=
  (exec_selected (tr := .downHeldLong) ho hbusy hheld.elapsedStop (hheld.decodeDecider_down hdown)).trans
    (congrArg Flow.toResult (runTasks_singleton _ _))

/-! ### An emitted event -/

/-- The action of `Idle` advances the cursor and requests the address advanced to (R171). -/
theorem emit_idle {s : State} (hbuttons : 0 < s.hdr.bdCount) :
    emit .idle s =
      .done { s with
        disp := { cursor := (s.disp.cursor + 1) % s.hdr.bdCount }
        mux := { addr := (s.disp.cursor + 1) % s.hdr.bdCount }
        trace := s.trace ++ [.emit .idle, .setAddress ((s.disp.cursor + 1) % s.hdr.bdCount)] } := by
  simp [emit, dispatch, idleAction, hbuttons.ne', State.setAddress, State.record]

/-- Settles O12: the one task of `Start/IsUp` is to emit `Idle`. -/
theorem startIsUpEndsInvocationWithIdle : Obligations.StartIsUpEndsInvocationWithIdle := by
  intro s ho hbusy hstart hpin hbuttons
  have hsel := exec_selected (tr := .startIsUp) ho hbusy (State.elapsedStop_start hstart) ((decodeDecider_start hstart).trans (if_neg hpin))
  rw [tasksAfter, runTasks_singleton] at hsel
  exact hsel.trans (congrArg Flow.toResult (emit_idle (s := { s with fsm := fsmAfter .startIsUp s }) hbuttons))

/-- The event as an operation, in the state with the record of its emission, is the emission (R115; log 35). -/
theorem exec_event_record {s : State} (ho : s.Open) (e : Event) : exec e.instr (s.record (.emit e)) = (emit e s).toResult :=
  (exec_event e _).trans (State.whenReady_of ho _)

/-- An action on a loaded page is a next state, and only what a page change writes differs (log 7, log 9). -/
theorem PageEnd.toResult_next {s : State} {f : Flow} (h : PageEnd s f) : ∃ t, f.toResult = .next t ∧ s.SameButPage t := by
  cases h with
  | @done t h => exact ⟨t, rfl, h.toSameButPage⟩
  | @fatal t h => exact ⟨t, rfl, h.toSameButPage⟩
  | blocked h => exact ⟨_, rfl, { h.toSameButPage with }⟩

/-- An event emitted on a loaded page, `Idle` apart. -/
theorem emit_next {e : Event} (he : e ≠ .idle) {s : State} (hloaded : s.PageLoaded) :
    ∃ t, (emit e s).toResult = .next t ∧ (s.record (.emit e)).SameButPage t :=
  (dispatch_end he (s := s.record (.emit e)) ⟨hloaded.page, hloaded.cursor⟩).toResult_next

/-- Settles O13: with a secondary function `Start/IsDown` changes the FSM only, without one it emits `ShortDown`. -/
theorem startIsDownRecordsTimestamp : Obligations.StartIsDownRecordsTimestamp := by
  intro s ho hbusy hstart hlow pressed u
  have hexec := exec_startIsDown ho hbusy hstart hlow
  refine ⟨fun hsec => hexec.trans (if_pos hsec), fun hsec => ?_⟩
  have hemit := hexec.trans (if_neg (by simp [hsec]))
  refine ⟨hemit.trans (exec_event_record (s := { s with fsm := pressed }) ho .shortDown).symm, fun hloaded => ?_⟩
  rw [hemit]
  exact emit_next (by decide) ⟨hloaded.page, hloaded.cursor⟩

/-- Settles O14: the one task of `Down/HeldLong` is to emit `LongTriggered`. -/
theorem downHeldLongEmitsLongTriggered : Obligations.DownHeldLongEmitsLongTriggered := by
  intro s ho hbusy hdown hheld u
  have hemit := exec_downHeldLong ho hbusy hdown hheld
  refine ⟨hemit.trans (exec_event_record (s := { s with fsm := { s.fsm with state := .downButWaiting } }) ho .longTriggered).symm,
    fun hloaded => ?_⟩
  rw [hemit]
  exact emit_next (by decide) ⟨hloaded.page, hloaded.cursor⟩

/-! ### An emission with tasks after it -/

/-- What the state after an emission tells of the tasks after it: in the fatal state they are abandoned (R195), while a draw is retried
they wait (log 9), and in a state open to calls they are run. -/
theorem runTasks_emit_cons {e : Event} (he : e ≠ .idle) {s t : State} (ho : s.Open) (xs : List Task) (h : (emit e s).toResult = .next t) :
    (t.sys.phase = .fatal → (runTasks (.emit e :: xs) s).toResult = .next t) ∧
    (t.work ≠ [] → (runTasks (.emit e :: xs) s).toResult = .next { t with work := t.work ++ xs }) ∧
    (t.Open → runTasks (.emit e :: xs) s = runTasks xs t) := by
  obtain ⟨hready, -, hwork⟩ := ho
  have hend := emit_flow he s
  simp only [runTasks_cons, runTask]
  generalize emit e s = f at h hend ⊢
  cases hend with
  | done _ hsys hkept =>
    obtain ⟨⟩ := h
    exact ⟨by simp [hsys, hready], by simp [hkept, hwork], fun _ => rfl⟩
  | fatal _ hphase _ hnone =>
    obtain ⟨⟩ := h
    exact ⟨fun _ => rfl, by simp [hnone], by simp [State.Open, hphase]⟩
  | blocked _ hsys _ _ =>
    obtain ⟨⟩ := h
    exact ⟨by simp [hsys, hready], fun _ => rfl, by simp [State.Open]⟩
  | refused => cases h

/-- Settles O18: the emission of `ShortDown` has the other two tasks after it, and that of `ShortTriggered` the end of the invocation. -/
theorem upShortHeldEmitsTwoEvents : Obligations.UpShortHeldEmitsTwoEvents := by
  intro s ho hbusy hup hsec hheld first second
  have hfirst : first = (emit .shortDown s).toResult := exec_event_record ho .shortDown
  have hrest {t : State} (ht : first = .next t) :=
    runTasks_emit_cons (by decide) ho [.emit .shortTriggered, .finish] (hfirst.symm.trans ht)
  rw [exec_upShortHeld ho hbusy hup hsec hheld]
  refine ⟨fun t ht => ?_, fun t ht => ?_, fun t u ht hopen hu => ?_⟩
  · obtain ⟨hfatal, -, -⟩ := hrest ht
    exact hfatal
  · obtain ⟨-, hwaits, -⟩ := hrest ht
    exact hwaits
  · obtain ⟨-, -, hgoesOn⟩ := hrest ht
    have hsecond : (emit .shortTriggered t).toResult = .next u := (exec_event_record hopen .shortTriggered).symm.trans hu
    obtain ⟨hfatal, hwaits, hends⟩ := runTasks_emit_cons (by decide) hopen [.finish] hsecond
    rw [hgoesOn hopen]
    exact ⟨hfatal, hwaits, fun hu => congrArg Flow.toResult (hends hu)⟩

/-- Settles O19: the emission of the one event has the end of the invocation after it. -/
theorem upShortUpEmitsOneEvent : Obligations.UpShortUpEmitsOneEvent := by
  intro s ho hbusy hup hsec e action
  have haction : action = (emit e s).toResult := exec_event_record ho e
  have hrest {t : State} (ht : action = .next t) :=
    runTasks_emit_cons (ShortUpSymbol.event_ne_idle _) ho [.finish] (haction.symm.trans ht)
  rw [exec_upShortUp ho hbusy hup hsec]
  refine ⟨ShortUpSymbol.event_eq_shortUp_or_shortTriggered _, fun t ht => ?_, fun t ht => ?_, fun t ht hopen => ?_⟩
  · obtain ⟨hfatal, -, -⟩ := hrest ht
    exact hfatal
  · obtain ⟨-, hwaits, -⟩ := hrest ht
    exact hwaits
  · obtain ⟨-, -, hends⟩ := hrest ht
    exact congrArg Flow.toResult (hends hopen)

/-! ### Emissions that end the invocation -/

/-- How tasks that emit `es` and then end the invocation leave a state `s` open to calls. -/
structure EmittedThenEnded (es : List Event) (s t : State) : Prop where
  events : ∃ added, t.trace = s.trace ++ added ∧ eventsOf added <+: es ∧ (t.Open → eventsOf added = es)
  same : State.SameButPage { s with fsm := t.fsm } t
  ended : t.Open → t.fsm = s.finish.fsm
  unfinished : ¬ t.Open → t.fsm = s.fsm

/-- An emission that is not over leaves the events after it out. -/
theorem Acted.emittedThenEnded {e : Event} {s t : State} (h : Acted [e] s t) (es : List Event) (hopen : ¬ t.Open) :
    EmittedThenEnded (e :: es) s t := by
  obtain ⟨added, htrace, hevents⟩ := h.events
  exact
    { events := ⟨added, htrace, hevents ▸ List.cons_prefix_cons.mpr ⟨rfl, List.nil_prefix⟩, fun ho => absurd ho hopen⟩
      same := { h.toSameButPage with fsm := rfl }
      ended := fun ho => absurd ho hopen
      unfinished := fun _ => h.fsm }

/-- After an emission that is over, the others follow. -/
theorem EmittedThenEnded.cons {e : Event} {es : List Event} {s u t : State} (h : Acted [e] s u) (k : EmittedThenEnded es u t) :
    EmittedThenEnded (e :: es) s t := by
  obtain ⟨a, ha, hea⟩ := h.events
  obtain ⟨b, hb, hprefix, hall⟩ := k.events
  have hevents : eventsOf (a ++ b) = e :: eventsOf b := by simp [hea]
  have hsame : State.SameButPage { s with fsm := t.fsm } { u with fsm := t.fsm } := { h.toSameButPage with fsm := rfl }
  exact
    { events := ⟨a ++ b, by rw [hb, ha, List.append_assoc], by rw [hevents]; exact List.cons_prefix_cons.mpr ⟨rfl, hprefix⟩,
        fun ho => by rw [hevents, hall ho]⟩
      same := hsame.trans k.same
      ended := fun ho => by rw [k.ended ho, State.finish_fsm, h.fsm, State.finish_fsm]
      unfinished := fun ho => (k.unfinished ho).trans h.fsm }

theorem runTasks_emits_finish {es : List Event} (hes : ∀ e ∈ es, e ≠ .idle) {s : State} (ho : s.Open) (hloaded : s.PageLoaded) :
    ∃ t, (runTasks (es.map Task.emit ++ [.finish]) s).toResult = .next t ∧ EmittedThenEnded es s t := by
  induction es generalizing s with
  | nil =>
    have hopen : s.finish.Open := ho
    exact ⟨s.finish, rfl, ⟨[], by simp, List.nil_prefix, fun _ => rfl⟩, State.SameButPage.refl _, fun _ => rfl,
      fun h => absurd hopen h⟩
  | cons e es ih =>
    have hend := emit_flow (hes e (by simp)) s
    have hnever : ∀ r, emit e s ≠ .refused r := runTask_not_refused (t := .emit e) hloaded nofun
    simp only [List.map_cons, List.cons_append, runTasks_cons, runTask]
    generalize emit e s = f at hend hnever ⊢
    cases hend with
    | @done u hacted hsys hwork =>
      obtain ⟨t, ht, hrest⟩ := ih (fun e he => hes e (by simp [he])) (s := u) (by rw [State.Open, hsys, hwork, hacted.cfg]; exact ho)
        (hacted.loaded hloaded)
      exact ⟨t, ht, hrest.cons hacted⟩
    | @fatal t hacted hphase =>
      exact ⟨t, rfl, hacted.emittedThenEnded es (by simp [State.Open, hphase])⟩
    | blocked hacted =>
      refine ⟨_, rfl, Acted.emittedThenEnded (e := e) ?_ es (by simp [State.Open])⟩
      exact { hacted.toSameButPage with loaded := fun h => ⟨(hacted.loaded h).page, (hacted.loaded h).cursor⟩, events := hacted.events }
    | refused => exact absurd rfl (hnever _)

/-- Settles O20: both endings emit a list of events and then end the invocation. -/
theorem upShortTransitionsComplete : Obligations.UpShortTransitionsComplete := by
  intro s i es ho hloaded hbusy hup hi
  have hexec : (∀ e ∈ es, e ≠ .idle) ∧ exec i s = (runTasks (es.map Task.emit ++ [.finish]) s).toResult := by
    obtain ⟨rfl, hsec, hheld, rfl⟩ | ⟨rfl, hsec, rfl⟩ := hi
    · exact ⟨by decide, exec_upShortHeld ho hbusy hup hsec hheld⟩
    · exact ⟨by simpa using ShortUpSymbol.event_ne_idle _, exec_upShortUp ho hbusy hup hsec⟩
  obtain ⟨t, ht, ⟨added, htrace, hprefix, hall⟩, hsame, hended, hunfinished⟩ := runTasks_emits_finish hexec.1 ho hloaded
  exact ⟨t, added, hexec.2.trans ht, htrace, hprefix, hsame, fun hopen => ⟨hall hopen, hended hopen⟩, hunfinished⟩

/-! ### Buttons without a page change -/

theorem State.PageLoaded.row? {s : State} (h : s.PageLoaded) {row : List Byte} (hrow : s.page.rows[s.disp.cursor]? = some row) :
    s.row? s.disp.cursor = some row := by
  obtain ⟨row', hrow', hget⟩ := State.row?_of_holds h.page h.cursor
  rwa [Option.some.inj (hrow.symm.trans hrow')]

/-- The slot of the button under the cursor holds no `ChangePage` (R176). -/
def State.Inert (s : State) (slot : SlotName) : Prop :=
  ∃ row, s.row? s.disp.cursor = some row ∧ ∀ t, functionOfRow s.cfg slot row ≠ .changePage t

theorem actOn_inert {f : ButtonFunction} (h : ∀ t, f ≠ .changePage t) (s : State) : actOn f s = .done s := by
  cases f with
  | changePage t => exact absurd rfl (h t)
  | _ => rfl

theorem State.Inert.actOnSlot_done {s : State} {slot : SlotName} (h : s.Inert slot) : actOnSlot slot s = .done s := by
  obtain ⟨row, hrow, hinert⟩ := h
  simp only [actOnSlot, hrow]
  exact actOn_inert hinert s

/-- An emitted event whose action is on an inert slot leaves its record only. -/
theorem State.Inert.emit_done {s : State} {slot : SlotName} (h : s.Inert slot) {e : Event} (he : ∀ t, dispatch e t = actOnSlot slot t) :
    emit e s = .done (s.record (.emit e)) :=
  have hrecorded : (s.record (.emit e)).Inert slot := h
  (he _).trans hrecorded.actOnSlot_done

theorem State.Inert.with_fsm {s : State} {slot : SlotName} (h : s.Inert slot) (f : Fsm) : ({ s with fsm := f } : State).Inert slot := h

theorem State.Inert.runTasks_emit_cons {s : State} {e : Event} (h : s.Inert .primary)
    (he : e = .shortDown ∨ e = .shortUp ∨ e = .shortTriggered) (xs : List Task) :
    runTasks (.emit e :: xs) s = runTasks xs (s.record (.emit e)) := by
  simp only [runTasks_cons, runTask, h.emit_done (dispatch_primary he)]

/-- Settles O21: on an inert slot an emission leaves its record only, so each transition is its change of the FSM and its records. -/
theorem pressesOfInertButtonsComplete : Obligations.PressesOfInertButtonsComplete := by
  intro s row ho hloaded hrow hbusy half inert
  have hget := hloaded.row? hrow
  have hhalf : s.cfg.dataSize + 1 = half := Params.Valid.half ho.2.1
  have hprimary (h : inert (row.take half)) : s.Inert .primary := ⟨row, hget, by rw [functionOfRow, slotBytes, hhalf]; exact h⟩
  have hsecondary (h : inert (row.drop half)) : s.Inert .secondary := ⟨row, hget, by rw [functionOfRow, slotBytes, hhalf]; exact h⟩
  refine ⟨fun hstart hlow hsec h => ?_, fun hdown hheld h => ?_, fun hup hsec hheld h => ?_, fun hup hsec h => ?_⟩
  · rw [exec_startIsDown ho hbusy hstart hlow, if_neg (by simp [hsec]), ((hprimary h).with_fsm _).emit_done fun _ => rfl]
    rfl
  · rw [exec_downHeldLong ho hbusy hdown hheld, ((hsecondary h).with_fsm _).emit_done fun _ => rfl]
    rfl
  · have hinert : (s.record (.emit .shortDown)).Inert .primary := hprimary h
    rw [exec_upShortHeld ho hbusy hup hsec hheld, (hprimary h).runTasks_emit_cons (.inl rfl), hinert.runTasks_emit_cons (.inr (.inr rfl))]
    simp [runTasks, runTask, Flow.toResult, State.finish, State.record]
  · rw [exec_upShortUp ho hbusy hup hsec, (hprimary h).runTasks_emit_cons (.inr (ShortUpSymbol.event_eq_shortUp_or_shortTriggered _))]
    rfl

/-! ### Invocation, sample and evaluation -/

/-- An invocation selects the address and latches the flag of the row under the cursor (R100). -/
theorem exec_invoke {s : State} {row : List Byte} (ho : s.Open) (hidle : s.fsm.busy = false) (hrow : s.row? s.disp.cursor = some row) :
    exec .invoke s =
      .next { s.setAddress s.disp.cursor with
        fsm := { s.fsm with hasSec := hasSecondaryFunction s.cfg row, state := .start, busy := true } } := by
  change s.whenReady _ = _
  simp only [State.whenReady_of ho, hidle, hrow]
  rfl

/-- Settles O4: the secondary mode byte is the one after the first half of the row. -/
theorem invokeSelectsAddressAndLatchesFlag : Obligations.InvokeSelectsAddressAndLatchesFlag := by
  intro s row ho hidle hloaded hrow
  have hflag : hasSecondaryFunction s.cfg row = decide (row.getD (s.cfg.rowLength / 2) 0 ≠ s.cfg.modeNoFunction.setWidth 8) := by
    rw [hasSecondaryFunction, hasSecondaryOf, secondaryMode, Params.Valid.half ho.2.1, bne, beq_eq_decide, decide_not]
  rw [exec_invoke ho hidle (hloaded.row? hrow), hflag]
  rfl

theorem State.sample_of_up {s : State} (hclock : s.ClockMonotone) (hup : s.fsm.state = .up) : s.sample = .ok s.readClock := by
  have hnow : ¬ s.readClock.env.now < s.env.now := Nat.not_lt.mpr hclock
  rw [State.sample, if_neg hnow, hup]

theorem State.sample_of_ne_up {s : State} (hclock : s.ClockMonotone) (hup : s.fsm.state ≠ .up) :
    s.sample = .ok s.readClock.readPin := by
  have hnow : ¬ s.readClock.env.now < s.env.now := Nat.not_lt.mpr hclock
  rw [State.sample, if_neg hnow]
  cases hstate : s.fsm.state with
  | up => exact absurd hstate hup
  | start | down | downButWaiting => rfl

/-- Settles O8: only `Up` takes no answer of the pin. -/
theorem sampleReadsClockAndPin : Obligations.SampleReadsClockAndPin := by
  intro s hclock
  by_cases hup : s.fsm.state = .up
  · rw [State.sample_of_up hclock hup, if_pos hup]
    rfl
  · rw [State.sample_of_ne_up hclock hup, if_neg hup]
    rfl

/-- Settles O7: under its guards an evaluation is the sample and the transition it selects. -/
theorem evaluateAppliesSelectedTransition : Obligations.EvaluateAppliesSelectedTransition := by
  intro s t ho hbusy hsample
  rw [exec_transition]
  change s.whenReady _ = _
  rw [State.whenReady_of ho, if_neg (by simp [hbusy]), hsample]

/-- Inside an invocation and with no waiting reset the step is an evaluation (R101). -/
theorem step_of_busy {s : State} (ho : s.Open) (hbusy : s.fsm.busy = true) (hreset : resetWaits s = false) :
    step s = exec .evaluate s := by
  obtain ⟨hready, -, hwork⟩ := ho
  simp [step, nextSelection, hreset, hready, hwork, hbusy]

/-- Settles O51: the step is an evaluation, and the decider word in its byte decodes to what it selects. -/
theorem stepRunsSelectedTransition : Obligations.StepRunsSelectedTransition :=
  fun s t ho hbusy hreset hsample => ⟨decode_deciderWord _ _,
    (step_of_busy ho hbusy hreset).trans (evaluateAppliesSelectedTransition s t ho hbusy hsample)⟩

theorem step_selected {s t : State} {tr : Transition} (ho : s.Open) (hbusy : s.fsm.busy = true) (hreset : resetWaits s = false)
    (hsample : s.sample = .ok t) (hsel : decodeDecider t.deciderWord = tr) : step s = exec tr.instr t := by
  subst hsel
  exact (stepRunsSelectedTransition s t ho hbusy hreset hsample).2

/-! ### Good states do not stop -/

theorem State.Inv.pageLoaded {s : State} (h : s.Inv) (hready : s.sys.phase = .ready) : s.PageLoaded :=
  have ⟨_, _, hloaded, _⟩ := h.ready hready
  hloaded

theorem State.Inv.running {s : State} (h : s.Inv) (hready : s.sys.phase = .ready) (hbusy : s.fsm.busy = true) :
    s.fsm.Running s.env.now s.cfg.longPressThreshold := by
  obtain ⟨-, -, -, ⟨-, hidle, -⟩ | hrun⟩ := h.ready hready
  · simp [hidle] at hbusy
  · exact hrun

/-- Inside an invocation the elapsed time is there wherever the decider asks for it (R103, R117). -/
theorem State.elapsedStop_of_running {s : State} (h : s.fsm.Running s.env.now s.cfg.longPressThreshold) : s.elapsedStop = none := by
  obtain ⟨-, hts⟩ := h
  cases hstate : s.fsm.state <;> simp only [hstate] at hts
  case start => exact State.elapsedStop_start hstate
  case downButWaiting => exact State.elapsedStop_waiting hstate
  case down | up =>
    obtain ⟨ts, hpress, hnow⟩ := hts
    simp [State.elapsedStop, hstate, hpress, hnow]

theorem Flow.toResult_next {f : Flow} (h : ∀ r, f ≠ .refused r) : ∃ t, f.toResult = .next t := by
  cases f with
  | refused r => exact absurd rfl (h r)
  | _ => exact ⟨_, rfl⟩

/-- In a good state the selected transition has a next state: no task of it is refused on a loaded page. -/
theorem State.Inv.exec_selected_next {s : State} (h : s.Inv) (ho : s.Open) (hbusy : s.fsm.busy = true) :
    ∃ t, exec (decodeDecider s.deciderWord).instr s = .next t := by
  have hloaded := h.pageLoaded ho.1
  rw [exec_selected ho hbusy (State.elapsedStop_of_running (h.running ho.1 hbusy)) rfl]
  exact Flow.toResult_next (runTasks_not_refused ⟨hloaded.page, hloaded.cursor⟩
    fun a ha => absurd ha (retry_not_mem_tasksAfter _ _ a))

theorem Sampled.fsm {s t : State} (h : Sampled s t) : t.fsm = s.fsm := by rw [h.same]

theorem Sampled.isOpen {s t : State} (h : Sampled s t) (ho : s.Open) : t.Open := by rw [h.same]; exact ho

/-- Settles O9: the sample keeps the invariant, and from there the selected transition has a next state. -/
theorem evaluateCompletes : Obligations.EvaluateCompletes := by
  intro s h ho hbusy hclock
  obtain ⟨u, hu⟩ := State.sample_of_monotone hclock
  have hsampled := State.sample_ok hu
  obtain ⟨t, ht⟩ := (h.sampled ho.1 hsampled).exec_selected_next (hsampled.isOpen ho) (by rw [hsampled.fsm]; exact hbusy)
  exact ⟨u, t, hu, (evaluateAppliesSelectedTransition s u ho hbusy hu).trans ht, ht⟩

/-- Settles O54: such a block resumes the tasks left over, evaluates, or invokes, and each has a next state. -/
theorem readyBlockNeverStops : Obligations.ReadyBlockNeverStops := by
  intro s h hready hcalls hclock
  have hloaded := h.pageLoaded hready
  have hreset : resetWaits s = false := by simp [resetWaits, hcalls]
  obtain ⟨hwaits, -⟩ | ⟨-, hfatal, -⟩ | ⟨-, halive, -, hstep⟩ | ⟨-, -, hwork, hbusy, hstep⟩ |
      ⟨-, -, hwork, hidle, ⟨w, rest, hserve, -⟩ | ⟨-, huninit, -⟩ | ⟨-, -, hstep⟩⟩ := step_cases s
  · simp [hreset] at hwaits
  · simp [hready] at hfatal
  · rw [hstep, resumeWork, State.whenAlive_of ⟨halive, h.cfg⟩]
    exact Flow.toResult_next (runTasks_not_refused ⟨hloaded.page, hloaded.cursor⟩ h.retry)
  · obtain ⟨-, t, -, ht, -⟩ := evaluateCompletes s h ⟨hready, h.cfg, hwork⟩ hbusy hclock
    exact ⟨t, hstep.trans ht⟩
  · simp [hcalls] at hserve
  · simp [hready] at huninit
  · obtain ⟨row, -, hrow⟩ := State.row?_of_holds hloaded.page hloaded.cursor
    exact ⟨_, hstep.trans (exec_invoke ⟨hready, h.cfg, hwork⟩ (hidle hready) hrow)⟩

/-! ### The end of a long press -/

/-- In `DownButWaiting` the button was held past the threshold (R117). -/
theorem Fsm.Running.heldPast {s : State} (h : s.fsm.Running s.env.now s.cfg.longPressThreshold) (hwaiting : s.fsm.state = .downButWaiting) :
    s.HeldPast := by
  obtain ⟨-, hpress⟩ := h
  simp only [hwaiting] at hpress
  obtain ⟨ts, hts, -, hsec, hover⟩ := hpress
  exact ⟨hsec, ts, hts, hover⟩

/-- A later reading of the time base finds the button still held past the threshold. -/
theorem State.HeldPast.readClock {s : State} (h : s.HeldPast) (hclock : s.ClockMonotone) : s.readClock.HeldPast := by
  obtain ⟨hsec, ts, hts, hover⟩ := h
  exact ⟨hsec, ts, hts, hover.trans_le (Nat.sub_le_sub_right hclock ts)⟩

theorem step_released {s : State} (ho : s.Open) (hbusy : s.fsm.busy = true) (hreset : resetWaits s = false) (hclock : s.ClockMonotone)
    (hwaiting : s.fsm.state = .downButWaiting) (hpin : s.env.pins.take.1 ≠ .low) :
    step s = .next { s.readClock.readPin with fsm := { s.fsm with state := .up } } := by
  have hsel := (decodeDecider_downButWaiting (s := s.readClock.readPin) hwaiting).trans (if_neg hpin)
  exact (step_selected ho hbusy hreset (State.sample_of_ne_up hclock (by simp [hwaiting])) hsel).trans
    ((releaseLeadsToUp s.readClock.readPin ho hbusy hpin).2 hwaiting)

theorem step_upAfterLong {s : State} (ho : s.Open) (hbusy : s.fsm.busy = true) (hreset : resetWaits s = false) (hclock : s.ClockMonotone)
    (hup : s.fsm.state = .up) (hheld : s.HeldPast) : step s = .next s.readClock.finish := by
  have hlater := hheld.readClock hclock
  exact (step_selected ho hbusy hreset (State.sample_of_up hclock hup) (hlater.decodeDecider_up hup)).trans
    (exec_upUpAfterLong ho hbusy hup hlater)

/-- Settles O60: the release leads to `Up`, and there the button is still held past the threshold, since time does not go back. -/
theorem longPressEndsSilently : Obligations.LongPressEndsSilently := by
  intro s h ho hbusy hwaiting hclock hpin hreset
  have hheld := ((h.running ho.1 hbusy).heldPast hwaiting).readClock hclock
  exact ⟨_, step_released ho hbusy hreset hclock hwaiting hpin, rfl, rfl,
    fun hlater => ⟨_, step_upAfterLong ho hbusy hreset hlater rfl hheld, rfl, rfl, rfl⟩⟩

end Sys2Proof.Machine

namespace Sys2Proof.Machine

/-! ### The header block -/

/-- The header registers that a whole header block stands for (R131, R133). -/
def headerOf (hb : List Byte) : Hdr where
  width := headerWidth hb
  height := headerHeight hb
  offset := headerOffset hb
  bdCount := bdCountOf (headerWidth hb) (headerHeight hb)
  pageCount := pageCountOf (headerOffset hb) (bdCountOf (headerWidth hb) (headerHeight hb))

/-- A malformed header (R132, decision D20). -/
def Hdr.Malformed (h : Hdr) : Prop := h.bdCount = 0 ∨ h.offset.toNat < 1 + h.bdCount

theorem headerOf_decoded {hb : List Byte} (hpos : 0 < (headerOf hb).bdCount)
    (hoff : 1 + (headerOf hb).bdCount ≤ (headerOf hb).offset.toNat) : (headerOf hb).Decoded where
  bdCount := rfl
  positive := hpos
  offset := hoff
  pageCount := rfl

theorem headerOf_offset_toNat (hb : List Byte) :
    (headerOf hb).offset.toNat = (hb.getD 2 0).toNat + 256 * (hb.getD 3 0).toNat := le16_toNat _ _

/-- The floor fits the register, since the offset does. -/
theorem pageCountOf_toNat (offset : U16) (n : Nat) : (pageCountOf offset n).toNat = offset.toNat / n :=
  Nat.mod_eq_of_lt ((Nat.div_le_self _ _).trans_lt offset.isLt)

theorem decodeHeader_of_decoded {hb : List Byte} (h : (headerOf hb).Decoded) (s : State) :
    decodeHeader hb s = .ok () { s with hdr := headerOf hb } :=
  (if_neg h.positive.ne').trans (if_neg h.offset.not_gt)

/-- The derived registers keep their old values (log 18). -/
theorem decodeHeader_of_malformed {hb : List Byte} (h : (headerOf hb).Malformed) (s : State) :
    decodeHeader hb s =
      .fatal (State.raiseFatal
        { s with hdr := { headerOf hb with bdCount := s.hdr.bdCount, pageCount := s.hdr.pageCount } } .formatError) := by
  by_cases hzero : (headerOf hb).bdCount = 0
  · exact if_pos hzero
  · exact (if_neg hzero).trans (if_pos (h.resolve_left hzero))

theorem exec_header {s : State} {hb : List Byte} (hcfg : s.cfg.Valid) (huninit : s.sys.phase = .uninit)
    (hlength : hb.length = s.cfg.rowLength) : exec (.header hb) s = (decodeHeader hb s).toResult := by
  change s.whenAlive _ = _
  rw [State.whenAlive_of ⟨by simp [huninit], hcfg⟩, if_neg (by simp [huninit]), if_pos (by simp [Instr.WellFormed, hlength])]

/-- Settles O22: the registers are those that the block stands for, and the floor fits its register. -/
theorem headerBlockDecodes : Obligations.HeaderBlockDecodes := by
  intro s hb hcfg huninit hlength n off hpos hoff
  have hoffset : (headerOf hb).offset.toNat = off := headerOf_offset_toNat hb
  have hdecoded : (headerOf hb).Decoded := headerOf_decoded hpos (hoffset.symm ▸ hoff)
  refine ⟨headerOf hb, ?_, rfl, rfl, hoffset, rfl, ?_⟩
  · rw [exec_header hcfg huninit hlength, decodeHeader_of_decoded hdecoded]
    rfl
  · exact (pageCountOf_toNat _ _).trans (congrArg (· / n) hoffset)

/-- Settles O23: the raise keeps everything but the three header fields that the block itself holds. -/
theorem malformedHeaderIsFatal : Obligations.MalformedHeaderIsFatal := by
  intro s hb hcfg huninit hlength n hbad
  have hmalformed : (headerOf hb).Malformed := by
    rw [Hdr.Malformed, headerOf_offset_toNat]
    exact hbad
  rw [exec_header hcfg huninit hlength, decodeHeader_of_malformed hmalformed]
  refine ⟨_, rfl, ?_, rfl, rfl, rfl, rfl, rfl, rfl, rfl⟩
  simp [huninit]

/-! ### The page load -/

/-- Settles O24: behind its guards the operation is the load whose calls all succeed. -/
theorem loadPageReplacesPage : Obligations.LoadPageReplacesPage := by
  intro s k halive hwork hheader hanswers hinside
  rw [exec_loadPage halive hwork hheader, loadPage_of_answers hanswers halive.2 hheader hinside]
  rfl

theorem Stream.avail_eq (st : Stream) : st.avail = st.len - st.pos := by
  unfold Stream.avail
  split <;> omega

/-- A load of which some region runs off the end of the blob is `Fatal(Truncated)` and commits nothing (R137, R138). -/
theorem loadPage_truncated {k : Nat} {s : State} (halive : s.Alive) (hheader : 0 < s.hdr.bdCount) (hanswers : s.StreamAnswers)
    (hinside : ¬ s.PageInside k) :
    ∃ t, loadPage k s = .fatal t ∧ t.sys = { phase := .fatal, cause := some .truncated } ∧ t.page = s.page := by
  obtain ⟨t, hload, hsys⟩ := loadPage_short hanswers halive.2 hheader hinside
  exact ⟨t, hload, hsys halive.1, (loadPage_fatal hload).page⟩

/-- Settles O26: some read of the load is short, and where it is known to be the first call that fails, the load ends with it. -/
theorem shortReadIsTruncated : Obligations.ShortReadIsTruncated := by
  intro s k halive hwork hheader
  rw [exec_loadPage halive hwork hheader]
  refine ⟨fun hanswers hinside => ?_, fun before after n hcalls hanswered hinside hshort => ?_⟩
  · obtain ⟨t, hload, hsys, hpage⟩ := loadPage_truncated halive hheader hanswers hinside
    exact ⟨t, by rw [hload]; rfl, hsys, hpage⟩
  · have hbefore : s.Answered before.length := fun i hi => hanswered i (hi.trans (Nat.lt_succ_self _))
    obtain ⟨-, hfirst⟩ := loadPage_first_failure halive.2 halive.1 hwork hcalls hbefore hinside
    rw [hfirst (hanswered _ (Nat.lt_succ_self _)) n rfl hshort, Stream.avail_eq]
    rfl

/-! ### Boot -/

section
variable {s : State} (hcfg : s.cfg.Valid) (huninit : s.sys.phase = .uninit) (hpos : s.stream.pos = 0)
include hcfg huninit hpos

theorem exec_opNew_of_read_fatal {t : State} (hread : streamRead s.cfg.rowLength s = .fatal t) : exec .opNew s = .next t := by
  simp [exec, execNew, State.whenAlive_of (s := s) ⟨by simp [huninit], hcfg⟩, huninit, hpos, hread]

theorem exec_opNew_of_header_fatal {hb : List Byte} {u t : State} (hread : streamRead s.cfg.rowLength s = .ok hb u)
    (hdecode : decodeHeader hb u = .fatal t) : exec .opNew s = .next t := by
  simp [exec, execNew, State.whenAlive_of (s := s) ⟨by simp [huninit], hcfg⟩, huninit, hpos, hread, hdecode]

theorem exec_opNew_of_header_ok {hb : List Byte} {u t : State} (hread : streamRead s.cfg.rowLength s = .ok hb u)
    (hdecode : decodeHeader hb u = .ok () t) : exec .opNew s = bootPage t := by
  simp [exec, execNew, State.whenAlive_of (s := s) ⟨by simp [huninit], hcfg⟩, huninit, hpos, hread, hdecode]

end

/-- The header block is the first `ROW_LENGTH` bytes of the blob, and reading it is the boot's first call (R130). -/
theorem streamRead_header {s : State} (hpos : s.stream.pos = 0) (hanswer : s.env.stream.nth 0 = true)
    (hlen : s.cfg.rowLength ≤ s.stream.len) :
    streamRead s.cfg.rowLength s =
      .ok (s.stream.blob.bytes 0 s.cfg.rowLength) (s.afterCalls s.cfg.rowLength [.read s.cfg.rowLength .ok] 1) := by
  rw [streamRead_answered hanswer (by omega), hpos, Nat.zero_add]

theorem exec_opNew_readShort {s : State} (hcfg : s.cfg.Valid) (huninit : s.sys.phase = .uninit) (hwork : s.work = [])
    (hpos : s.stream.pos = 0) (hanswer : s.env.stream.nth 0 = true) (hshort : s.stream.len < s.cfg.rowLength) :
    exec .opNew s = .next (s.afterFailure [] (.read s.cfg.rowLength (.short s.stream.len)) .truncated) := by
  have hread := streamRead_short hanswer (Nat.zero_lt_of_lt hshort) (by omega)
  rw [exec_opNew_of_read_fatal hcfg huninit hpos hread, Stream.avail_eq, hpos, Nat.sub_zero]
  have hraise := State.afterCalls_raiseFatal (by simp [huninit]) hwork [] (.read s.cfg.rowLength (.short s.stream.len)) .truncated
  rw [← hraise, positionAfter, List.foldl_nil, hpos]
  rfl

theorem exec_opNew_malformed {s : State} (hcfg : s.cfg.Valid) (huninit : s.sys.phase = .uninit) (hpos : s.stream.pos = 0)
    (hanswer : s.env.stream.nth 0 = true) (hlen : s.cfg.rowLength ≤ s.stream.len) (h : s.afterHeader.hdr.Malformed) :
    exec .opNew s =
      .next (State.raiseFatal
        { s.afterHeader with
          hdr := { s.afterHeader.hdr with bdCount := s.hdr.bdCount, pageCount := s.hdr.pageCount } } .formatError) :=
  exec_opNew_of_header_fatal hcfg huninit hpos (streamRead_header hpos hanswer hlen) (decodeHeader_of_malformed h _)

theorem exec_opNew_decoded {s : State} (hcfg : s.cfg.Valid) (huninit : s.sys.phase = .uninit) (hpos : s.stream.pos = 0)
    (hanswer : s.env.stream.nth 0 = true) (hlen : s.cfg.rowLength ≤ s.stream.len) (h : s.afterHeader.hdr.Decoded) :
    exec .opNew s = bootPage s.afterHeader :=
  exec_opNew_of_header_ok hcfg huninit hpos (streamRead_header hpos hanswer hlen) (decodeHeader_of_decoded h _)

theorem bootPage_tooManyButtons {s : State} (h : ¬ s.hdr.bdCount ≤ 2 ^ s.cfg.muxAddrWidth) :
    bootPage s = .refused .tooManyButtons := if_neg h

theorem bootPage_of_loadPage_fatal {s t : State} (h : s.hdr.bdCount ≤ 2 ^ s.cfg.muxAddrWidth) (hload : loadPage 0 s = .fatal t) :
    bootPage s = .next t := by
  simp [bootPage, h, hload]

theorem bootPage_of_loadPage_ok {s t : State} (h : s.hdr.bdCount ≤ 2 ^ s.cfg.muxAddrWidth) (hload : loadPage 0 s = .ok () t) :
    bootPage s = .next t.setReady := by
  simp [bootPage, h, hload]

/-- The second half of boot is the load of page 0 as an operation, and then, unless that raised `Fatal`, the phase `Ready` (R130). -/
theorem bootPage_of_exec_loadPage {s t : State} (halive : s.Alive) (hwork : s.work = []) (hheader : 0 < s.hdr.bdCount)
    (h : s.hdr.bdCount ≤ 2 ^ s.cfg.muxAddrWidth) (hload : exec (.loadPage 0) s = .next t) :
    (t.sys.phase = .fatal → bootPage s = .next t) ∧ (t.sys.phase ≠ .fatal → bootPage s = .next t.setReady) := by
  rw [exec_loadPage halive hwork hheader] at hload
  cases hres : loadPage 0 s with
  | ok u v =>
    obtain rfl : v = t := by simpa [hres, Res.toResult] using hload
    obtain ⟨-, hsys, -⟩ := loadPage_ok hres
    exact ⟨fun hfatal => absurd (hsys ▸ hfatal) halive.1, fun _ => bootPage_of_loadPage_ok h hres⟩
  | fatal v =>
    obtain rfl : v = t := by simpa [hres, Res.toResult] using hload
    exact ⟨fun _ => bootPage_of_loadPage_fatal h hres, fun halive' => absurd (loadPage_fatal hres).phase halive'⟩

theorem State.StreamAnswers.afterHeader {s : State} (h : s.StreamAnswers) : s.afterHeader.StreamAnswers :=
  ⟨fun b hb => h.1 b (List.mem_of_mem_drop hb), h.2⟩

/-- Settles O28: the header read and the decode end the boot or lead to `afterHeader`, and from there boot is the load of page 0. -/
theorem bootLoadsHeaderAndPageZero : Obligations.BootLoadsHeaderAndPageZero := by
  intro s hcfg huninit hwork hpos hanswer u addressable
  have halive : u.Alive := ⟨by simp [u, State.afterHeader, huninit], hcfg⟩
  refine ⟨exec_opNew_readShort hcfg huninit hwork hpos hanswer, fun hlen hmalformed => ?_, fun hlen hdecoded => ?_⟩
  · rw [exec_opNew_malformed hcfg huninit hpos hanswer hlen hmalformed]
    refine ⟨_, rfl, ?_, rfl, rfl, rfl, rfl, rfl, rfl⟩
    simp [State.afterHeader, huninit]
  · have hheader := hdecoded.positive
    rw [exec_opNew_decoded hcfg huninit hpos hanswer hlen hdecoded]
    refine ⟨bootPage_tooManyButtons, fun haddr t hload => ?_, fun haddr hanswers hinside => ?_, fun haddr hanswers hinside => ?_⟩
    · obtain ⟨hfatal, hready⟩ := bootPage_of_exec_loadPage halive hwork hheader haddr hload
      exact ⟨hfatal, fun hphase => hready (by simp [hphase])⟩
    · exact bootPage_of_loadPage_ok haddr (loadPage_of_answers hanswers.afterHeader hcfg hheader hinside)
    · obtain ⟨t, hload, hsys, hpage⟩ := loadPage_truncated halive hheader hanswers.afterHeader hinside
      exact ⟨t, bootPage_of_loadPage_fatal haddr hload, hsys, hpage⟩

/-! ### The header registers after boot -/

theorem Ended.hdr {left : Task → Prop} {s t : State} (h : Ended Worked left s t) : t.hdr = s.hdr := by
  obtain ⟨u, hworked, ht⟩ := h.exists_worked
  rw [ht]
  exact hworked.same.hdr

theorem Transitioned.hdr {tr : Transition} {s t : State} (h : Transitioned tr s t) : t.hdr = s.hdr := by
  obtain ⟨-, -, -, -, hended, -⟩ := h
  exact hended.hdr

/-- Only a header block and a boot write the header registers, and both are before boot (R60, R130). -/
theorem Effect.hdr {i : Instr} {s t : State} (h : Effect i s t) (hready : s.sys.phase = .ready) : t.hdr = s.hdr := by
  cases h with
  | returned ht => rw [ht]
  | raised c ht => rw [ht]; rfl
  | header _ huninit => simp [hready] at huninit
  | booted _ huninit => simp [hready] at huninit
  | loaded _ _ _ hload => exact hload.1.hdr
  | invoked _ _ _ sec ht => rw [ht]; rfl
  | evaluated _ _ _ u hsample htr => rw [htr.hdr, (State.sample_ok hsample).same]
  | transitioned tr _ htr => exact htr.hdr
  | worked _ hended => exact hended.hdr

/-- Settles O56: a step that is no reset resumes tasks, which keep the header, or runs an operation, and those that write it are refused
after boot. -/
theorem headerConstantAfterBoot : Obligations.HeaderConstantAfterBoot := by
  intro s t hready hstep hreset
  cases step_next hstep with
  | reset hr => simp [hreset] at hr
  | resumed _ hended => exact hended.hdr
  | served _ _ _ _ _ _ _ heffect => exact heffect.hdr hready
  | own _ _ _ heffect => exact heffect.hdr hready

/-! ### The buttons of the current page -/

theorem State.row?_of_getElem? {s : State} (h : s.page.Holds s.cfg s.hdr.bdCount) {a : Nat} {row : List Byte}
    (hrow : s.page.rows[a]? = some row) : s.row? a = some row := by
  obtain ⟨ha, -⟩ := List.getElem?_eq_some_iff.mp hrow
  obtain ⟨row', hrow', hget⟩ := State.row?_of_holds h (h.rows ▸ ha)
  rwa [Option.some.inj (hrow.symm.trans hrow')]

theorem State.img?_of_getElem? {s : State} (h : s.page.Holds s.cfg s.hdr.bdCount) {a : Nat} {img : List Byte}
    (himg : s.page.imgs[a]? = some img) : s.img? a = some img := by
  obtain ⟨ha, -⟩ := List.getElem?_eq_some_iff.mp himg
  obtain ⟨img', himg', hget⟩ := State.img?_of_holds h (h.imgs ▸ ha)
  rwa [Option.some.inj (himg.symm.trans himg')]

theorem State.row?_eq_none {s : State} {a : Nat} (h : s.hdr.bdCount ≤ a) : s.row? a = none := by
  unfold State.row?
  split
  · exact if_neg fun hc => hc.1.not_ge h
  · rfl

theorem State.img?_eq_none {s : State} {a : Nat} (h : s.hdr.bdCount ≤ a) : s.img? a = none :=
  Option.eq_none_iff_forall_ne_some.mpr fun _ himg => (State.img?_lt himg).not_ge h

theorem functionOfRow_primary {p : Params} (hp : p.Valid) (row : List Byte) :
    functionOfRow p .primary row = functionOfSlot p (row.take (p.rowLength / 2)) := by
  rw [functionOfRow, slotBytes, hp.half]

theorem functionOfRow_secondary {p : Params} (hp : p.Valid) (row : List Byte) :
    functionOfRow p .secondary row = functionOfSlot p (row.drop (p.rowLength / 2)) := by
  rw [functionOfRow, slotBytes, hp.half]

section
variable {s : State} (ho : s.Open) {button : U16}
include ho

theorem exec_slotFunction {row : List Byte} (hrow : s.row? button.toNat = some row) (slot : SlotName) :
    exec (.slotFunction slot button) s = .next { s with ret := some (.function (functionOfRow s.cfg slot row)) } := by
  simp [exec, execSlotFunction, State.whenReady_of ho, hrow]

theorem exec_slotFunction_refused (h : s.hdr.bdCount ≤ button.toNat) (slot : SlotName) :
    exec (.slotFunction slot button) s = .refused .buttonIndex := by
  simp [exec, execSlotFunction, State.whenReady_of ho, State.row?_eq_none h]

theorem exec_isLive {img : List Byte} (himg : s.img? button.toNat = some img) :
    exec (.isLive button) s = .next { s with ret := some (.flag (isLiveImage img)) } := by
  simp [exec, execIsLive, State.whenReady_of ho, himg]

theorem exec_isLive_refused (h : s.hdr.bdCount ≤ button.toNat) : exec (.isLive button) s = .refused .buttonIndex := by
  simp [exec, execIsLive, State.whenReady_of ho, State.img?_eq_none h]

end

/-- Settles O37: on a whole page the accessors give exactly the records below `bd_count`. -/
theorem buttonReadsUsePageBuffer : Obligations.ButtonReadsUsePageBuffer := by
  intro s button ho hpage
  refine ⟨fun row hrow => ?_, fun b frame himg => ?_, fun h => ⟨exec_slotFunction_refused ho h, exec_isLive_refused ho h⟩⟩
  · have hget := State.row?_of_getElem? hpage hrow
    rw [exec_slotFunction ho hget, exec_slotFunction ho hget, functionOfRow_primary ho.2.1, functionOfRow_secondary ho.2.1]
    exact ⟨rfl, rfl⟩
  · rw [exec_isLive ho (State.img?_of_getElem? hpage himg), isLiveImage, List.getD_cons_zero, beq_eq_decide]

end Sys2Proof.Machine

namespace Sys2Proof

/-! ### Mode codes -/

theorem modeCode_toNat (mode : Byte) : (modeCode mode).toNat = mode.toNat % 16 := by
  rw [modeCode, BitVec.extractLsb'_toNat, Nat.shiftRight_zero]

/-- A code is unassigned if its number is none of the assigned ones (R159). -/
theorem unknownCode_notMem {p : Params} {high : Bool} {c : BitVec 3}
    (h : ∀ code ∈ p.modeCodes, code.toNat ≠ (if high then 8 else 0) + c.toNat) : unknownCode high c ∉ p.modeCodes :=
  fun hmem => h _ hmem (unknownCode_toNat high c)

/-- An unassigned code, as the top bit and the three low bits of its operation. -/
theorem unknownCode_setWidth_notMem {p : Params} {code : BitVec 4} (h : code ∉ p.modeCodes) {high : Bool}
    (hhigh : code.getLsbD 3 = high) : unknownCode high (code.setWidth 3) ∉ p.modeCodes := by
  rwa [← hhigh, unknownCode_parts]

theorem decode_slot {p : Params} (mode : Byte) {payload : List Byte} (h : payload.length = p.dataSize) :
    decode p ⟨.slot, mode :: payload⟩ = .ok (decodeSlot p mode payload) :=
  if_pos h

/-- Each assigned code selects its operation, since under valid parameters no two of the seven are equal (R150, R4). -/
theorem decodeSlot_assigned {p : Params} (hp : p.Valid) (mode : Byte) (payload : List Byte) :
    (modeCode mode = p.modePressKeys → decodeSlot p mode payload = .slotPressKeys (modeHigh mode) payload) ∧
    (modeCode mode = modeChangePage → decodeSlot p mode payload = .slotChangePage (modeHigh mode) payload) ∧
    (modeCode mode = p.modePressSpecialKey → decodeSlot p mode payload = .slotPressSpecialKey (modeHigh mode) payload) ∧
    (modeCode mode = p.modeSendText → decodeSlot p mode payload = .slotSendText (modeHigh mode) payload) ∧
    (modeCode mode = p.modeSetSetting → decodeSlot p mode payload = .slotSetSetting (modeHigh mode) payload) ∧
    (modeCode mode = p.modeCommunicateToHost → decodeSlot p mode payload = .slotCommunicateToHost (modeHigh mode) payload) ∧
    (modeCode mode = p.modeNoFunction → decodeSlot p mode payload = .slotNoFunction (modeHigh mode) payload) := by
  obtain ⟨-, -, -, hdistinct⟩ := Params.valid_iff.mp hp
  -- Reversed, the list tells each code apart from those that `decodeSlot` tests before it.
  rw [← List.nodup_reverse] at hdistinct
  simp [Params.modeCodes] at hdistinct
  refine ⟨?_, ?_, ?_, ?_, ?_, ?_, ?_⟩ <;> intro hcode <;> simp [decodeSlot, hcode, hdistinct]

/-- An unassigned code selects the unknown variant of its top bit (R159). -/
theorem decodeSlot_unassigned {p : Params} {mode : Byte} (h : modeCode mode ∉ p.modeCodes) (payload : List Byte) :
    decodeSlot p mode payload =
      if (modeCode mode).getLsbD 3 then .slotUnknownHigh (modeHigh mode) ((modeCode mode).setWidth 3) payload
      else .slotUnknownLow (modeHigh mode) ((modeCode mode).setWidth 3) payload := by
  simp only [Params.modeCodes, List.mem_cons, not_or] at h
  simp [decodeSlot, h]

end Sys2Proof

namespace Sys2Proof.Machine

/-! ### The functions of slots and rows, and the fields of a payload -/

theorem functionOfSlot_congr {m m' : Byte} (h : modeCode m = modeCode m') (p : Params) (payload : List Byte) :
    functionOfSlot p (m :: payload) = functionOfSlot p (m' :: payload) := by
  rw [functionOfSlot, functionOfSlot, h]

/-- The key list ends at the first zero byte or at the payload's end (R152). -/
theorem keysOf_eq_take (payload : List Byte) :
    ∃ z ≤ payload.length, keysOf payload = payload.take z ∧ (∀ j < z, payload.getD j 0 ≠ 0) ∧
      (z < payload.length → payload.getD z 0 = 0) := by
  refine ⟨payload.findIdx fun b => !decide (b ≠ 0), List.findIdx_le_length, List.takeWhile_eq_take_findIdx_not, fun j hj => ?_,
    fun hz => ?_⟩
  · rw [List.getD_eq_getElem _ _ (hj.trans_le List.findIdx_le_length)]
    simpa using List.not_of_lt_findIdx hj
  · rw [List.getD_eq_getElem _ _ hz]
    simpa using List.findIdx_getElem (w := hz)

/-- A goto field of 0 is no page, any other is the page one below (R77). -/
theorem gotoOf_spec (g : U16) :
    (g.toNat = 0 → gotoOf g = none) ∧ (0 < g.toNat → ∃ page : U16, gotoOf g = some page ∧ page.toNat = g.toNat - 1) := by
  refine ⟨fun hzero => if_pos (BitVec.eq_of_toNat_eq hzero), fun hpos => ⟨g - 1, if_neg ?_, ?_⟩⟩
  · rintro rfl
    exact absurd hpos (by decide)
  · bv_omega

theorem hasSecondaryOf_eq (p : Params) (mode : Byte) : hasSecondaryOf p mode = decide (mode.toNat ≠ p.modeNoFunction.toNat) := by
  have hwidth : (p.modeNoFunction.setWidth 8).toNat = p.modeNoFunction.toNat := BitVec.toNat_setWidth_of_le (by decide)
  rw [← hwidth, hasSecondaryOf, bne, beq_eq_decide, ← decide_not]
  exact decide_eq_decide.mpr BitVec.toNat_ne_iff_ne.symm

/-! ### The decoder's operations -/

section
variable {s : State} (halive : s.Alive) (hi : BitVec 4) {payload : List Byte} (hlength : payload.length = s.cfg.dataSize)
include halive hlength

/-- A `PressKeys` slot of the payload's length returns its function (R152). -/
theorem exec_slotPressKeys :
    exec (.slotPressKeys hi payload) s = .next { s with ret := some (.function (pressKeysOf payload)) } :=
  State.returning_of (i := .slotPressKeys hi payload) halive (beq_iff_eq.mpr hlength) _

/-- A slot of an unassigned code below 8 returns `None` (R159). -/
theorem exec_slotUnknownLow {c : BitVec 3} (hcode : unknownCode false c ∉ s.cfg.modeCodes) :
    exec (.slotUnknownLow hi c payload) s = .next { s with ret := some (.function .noFunction) } :=
  State.returning_of (i := .slotUnknownLow hi c payload) halive (by simp [Instr.WellFormed, hlength, hcode]) _

/-- A slot of an unassigned code from 8 on returns `None` (R159). -/
theorem exec_slotUnknownHigh {c : BitVec 3} (hcode : unknownCode true c ∉ s.cfg.modeCodes) :
    exec (.slotUnknownHigh hi c payload) s = .next { s with ret := some (.function .noFunction) } :=
  State.returning_of (i := .slotUnknownHigh hi c payload) halive (by simp [Instr.WellFormed, hlength, hcode]) _

end

/-- Settles O32: each of them returns a constant function for every well-formed slot. -/
theorem tagVariantsDecode : Obligations.TagVariantsDecode := by
  intro s hi payload halive hlength
  have hslot : (payload.length == s.cfg.dataSize) = true := beq_iff_eq.mpr hlength
  exact ⟨State.returning_of (i := .slotPressSpecialKey hi payload) halive hslot _,
    State.returning_of (i := .slotSendText hi payload) halive hslot _,
    State.returning_of (i := .slotSetSetting hi payload) halive hslot _,
    State.returning_of (i := .slotCommunicateToHost hi payload) halive hslot _,
    State.returning_of (i := .slotNoFunction hi payload) halive hslot _,
    fun c hc => exec_slotUnknownLow halive hi hlength (unknownCode_notMem (by simpa using hc)),
    fun c hc => exec_slotUnknownHigh halive hi hlength (unknownCode_notMem (by simpa using hc))⟩

/-- The operation that a slot's bytes are returns what the Dispatcher decodes from them (R150, R170). -/
theorem exec_decodeSlot {s : State} (halive : s.Alive) (mode : Byte) {payload : List Byte}
    (hlength : payload.length = s.cfg.dataSize) :
    exec (decodeSlot s.cfg mode payload) s =
      .next { s with ret := some (.function (functionOfSlot s.cfg (mode :: payload))) } := by
  obtain ⟨execSpecial, execText, execSetting, execHost, execNone, -, -⟩ := tagVariantsDecode s (modeHigh mode) payload halive hlength
  simp only [decodeSlot, functionOfSlot]
  split_ifs with hkeys hpage hspecial htext hsetting hhost hnone hbit
  · exact exec_slotPressKeys halive _ hlength
  · exact exec_slotChangePage halive _ hlength
  · exact execSpecial
  · exact execText
  · exact execSetting
  · exact execHost
  · exact execNone
  · exact exec_slotUnknownHigh halive _ hlength (unknownCode_setWidth_notMem (by simp [Params.modeCodes, *]) hbit)
  · exact exec_slotUnknownLow halive _ hlength (unknownCode_setWidth_notMem (by simp [Params.modeCodes, *]) (by simpa using hbit))

/-- Settles O34: the bytes decode to the operation of their code, and its value is the one `exec_decodeSlot` gives for any slot. -/
theorem slotDecodeAgreesWithOperations : Obligations.SlotDecodeAgreesWithOperations := by
  intro s mode payload halive hlength code hi selects
  have hselects {i : Instr} (h : decodeSlot s.cfg mode payload = i) : selects i :=
    ⟨(decode_slot mode hlength).trans (congrArg _ h), h ▸ exec_decodeSlot halive mode hlength⟩
  obtain ⟨hkeys, hpage, hspecial, htext, hsetting, hhost, hnone⟩ := decodeSlot_assigned halive.2 mode payload
  refine ⟨fun h => hselects (hkeys h), fun h => hselects (hpage h), fun h => hselects (hspecial h), fun h => hselects (htext h),
    fun h => hselects (hsetting h), fun h => hselects (hhost h), fun h => hselects (hnone h), fun h => ?_⟩
  have hunknown := decodeSlot_unassigned h payload
  rw [BitVec.setWidth_eq_extractLsb' (by decide)] at hunknown
  split at hunknown
  · exact .inr (hselects hunknown)
  · exact .inl (hselects hunknown)

/-- Settles O30: the keys are a `take`, and the goto field is the `le16` of its two bytes. -/
theorem pressKeysDecodes : Obligations.PressKeysDecodes := by
  intro s hi payload halive hlength
  obtain ⟨z, hz, hkeys, hbefore, hat⟩ := keysOf_eq_take payload
  have hgoto := gotoOf_spec (gotoField payload)
  rw [gotoField, le16_toNat, hlength] at hgoto
  refine ⟨z, _, ?_, hz, hbefore, hat, hgoto⟩
  rw [exec_slotPressKeys halive hi hlength, pressKeysOf, hkeys, gotoField, hlength]

/-- Settles O33: the decode reads the mode byte through its low nibble alone. -/
theorem highNibbleIsIgnored : Obligations.HighNibbleIsIgnored := by
  intro p m m' payload h
  have hcode : modeCode m = modeCode m' := BitVec.eq_of_toNat_eq (by rw [modeCode_toNat, modeCode_toNat, h])
  exact functionOfSlot_congr hcode p payload

/-- Settles O35: the mode code is widened to a byte before the comparison. -/
theorem hasSecondaryComparesWholeByte : Obligations.HasSecondaryComparesWholeByte :=
  fun s mode halive => hasSecondaryOf_eq s.cfg mode ▸ State.returning_of (i := .hasSecondary mode) halive rfl _

/-- Settles O36: the halves that R72 cuts a row into are the two lists it was put together from. -/
theorem rowDecodesBothSlots : Obligations.RowDecodesBothSlots := by
  intro s primary secondary halive hprimary hsecondary
  obtain ⟨heven, -, -, -⟩ := Params.valid_iff.mp halive.2
  have hrow : (Instr.row (primary ++ secondary)).WellFormed s.cfg = true :=
    beq_iff_eq.mpr (by rw [List.length_append]; omega)
  change s.returning _ (.functions (functionOfRow _ _ _) (functionOfRow _ _ _)) = _
  rw [functionOfRow_primary halive.2, functionOfRow_secondary halive.2, List.take_left' hprimary, List.drop_left' hprimary]
  exact State.returning_of halive hrow _

/-- Settles O38: the first byte of the block is its flag, the others are its frame. -/
theorem imageBlockDecodes : Obligations.ImageBlockDecodes := by
  intro s b frame halive hlength
  have hlive : isLiveImage (b :: frame) = decide (b = 1) := beq_eq_decide _ _
  exact hlive ▸ State.returning_of (i := .image (b :: frame)) halive (beq_iff_eq.mpr hlength) _

end Sys2Proof.Machine

namespace Sys2Proof

/-- The slot of the button under the cursor that an event other than `Idle` acts on (R172 to R175). -/
def Event.slot (e : Event) : SlotName := if e = .longTriggered then .secondary else .primary

end Sys2Proof

namespace Sys2Proof.Machine

/-! ### The Dispatcher's operations behind their guard -/

section
variable {s : State} (ho : s.Open)
include ho

theorem exec_event_of_open (e : Event) : exec e.instr s = (dispatch e s).toResult :=
  (exec_event e s).trans (State.whenReady_of ho _)

theorem exec_changePage_of_open (k : U16) : exec (.changePage k) s = (changePage k.toNat s).toResult :=
  State.whenReady_of ho _

theorem exec_redrawAll_of_open : exec .redrawAll s = (redrawAll s).toResult :=
  State.whenReady_of ho _

end

/-! ### Events -/

theorem idleAction_of_buttons {s : State} (hbuttons : 0 < s.hdr.bdCount) :
    idleAction s = .done (({ s with disp := { cursor := (s.disp.cursor + 1) % s.hdr.bdCount } } : State).setAddress
      ((s.disp.cursor + 1) % s.hdr.bdCount)) :=
  if_neg hbuttons.ne'

/-- Settles O39: the action is the cursor's advance and the request for the address advanced to. -/
theorem idleAdvancesCursor : Obligations.IdleAdvancesCursor := by
  intro s ho hbuttons
  exact (exec_event_of_open ho .idle).trans (congrArg Flow.toResult (idleAction_of_buttons hbuttons))

theorem dispatch_eq_actOnSlot {e : Event} (he : e ≠ .idle) (s : State) : dispatch e s = actOnSlot e.slot s := by
  cases e with
  | idle => exact absurd rfl he
  | shortDown | shortUp | shortTriggered | longTriggered => rfl

theorem functionOfRow_event {p : Params} (hp : p.Valid) (e : Event) (row : List Byte) :
    functionOfRow p e.slot row =
      functionOfSlot p (if e = .longTriggered then row.drop (p.rowLength / 2) else row.take (p.rowLength / 2)) := by
  unfold Event.slot
  split
  · exact functionOfRow_secondary hp row
  · exact functionOfRow_primary hp row

/-- An event other than `Idle` acts on the function it decodes from the row under the cursor (R170). -/
theorem dispatch_eq_actOn {e : Event} (he : e ≠ .idle) {s : State} {row : List Byte} (hrow : s.row? s.disp.cursor = some row) :
    dispatch e s = actOn (functionOfRow s.cfg e.slot row) s := by
  simp only [dispatch_eq_actOnSlot he, actOnSlot, hrow]

/-- Settles O40: the event is the action on the decoded function, which is a page change or nothing. -/
theorem eventsActOnDecodedFunction : Obligations.EventsActOnDecodedFunction := by
  intro s row e ho hloaded hrow he half f
  have hact : exec e.instr s = (actOn f s).toResult := by
    rw [exec_event_of_open ho, dispatch_eq_actOn he (hloaded.row? hrow), functionOfRow_event ho.2.1]
  refine ⟨fun t ht => ?_, fun hinert => ?_⟩
  · rw [hact, ht, exec_changePage_of_open ho]
    rfl
  · rw [hact, actOn_inert hinert]
    rfl

/-! ### Page changes -/

theorem changePage_of_load_ok {k : Nat} {s t : State} {u : Unit} (h : loadPage k s = .ok u t) : changePage k s = redrawAll t := by
  simp only [changePage, h]

theorem changePage_of_load_fatal {k : Nat} {s t : State} (h : loadPage k s = .fatal t) : changePage k s = .fatal t := by
  simp only [changePage, h]

/-- A page load that answers a next state did so behind its guards. -/
theorem exec_loadPage_next {s t : State} {k : U16} (h : exec (.loadPage k) s = .next t) : (loadPage k.toNat s).toResult = .next t := by
  obtain ⟨-, hk⟩ := State.whenAlive_next.mp h
  split at hk
  · cases hk
  · split at hk
    · cases hk
    · exact hk

/-- Settles O41: the load ends fatal, and then so does the page change, or it leaves the block open for the redraw. -/
theorem changePageLoadsThenRedraws : Obligations.ChangePageLoadsThenRedraws := by
  intro s t k ho hexec
  have hnext := exec_loadPage_next hexec
  rw [exec_changePage_of_open ho]
  cases hload : loadPage k.toNat s with
  | ok u v =>
    obtain rfl : v = t := by simpa [hload, Res.toResult] using hnext
    obtain ⟨hmoved, hsys, hwork, -⟩ := loadPage_ok hload
    have hopen : v.Open := by rw [State.Open, hsys, hmoved.cfg, hwork]; exact ho
    rw [changePage_of_load_ok hload, exec_redrawAll_of_open hopen]
    exact ⟨fun hfatal => absurd hfatal hopen.alive.1, fun _ => rfl⟩
  | fatal v =>
    obtain rfl : v = t := by simpa [hload, Res.toResult] using hnext
    rw [changePage_of_load_fatal hload]
    exact ⟨fun _ => rfl, by simp [(loadPage_fatal hload).phase]⟩

/-- Settles O44: every draw of the redraw succeeds at once. -/
theorem redrawDrawsEveryButtonInOrder : Obligations.RedrawDrawsEveryButtonInOrder := by
  intro s ho hbuttons hpage hdraws
  rw [exec_redrawAll_of_open ho, redrawAll_of_success hbuttons hpage hdraws]
  rfl

/-- Settles O42: every call of the load succeeds, and then every draw of the redraw. -/
theorem changePageShowsNewPage : Obligations.ChangePageShowsNewPage := by
  intro s k ho hbuttons hanswers hinside hdraws
  rw [exec_changePage_of_open ho, changePage_of_load_ok (loadPage_of_answers hanswers ho.2.1 hbuttons hinside),
    redrawAll_of_success (s := s.afterLoad k.toNat) hbuttons (afterLoad_holds s k.toNat) hdraws]
  rfl

/-! ### Completion -/

/-- A redraw ends as a page change whose load has been done. -/
theorem ActionEnd.pageEnd {s : State} {f : Flow} (h : ActionEnd Drawn s f) (hp : s.page.Holds s.cfg s.hdr.bdCount) : PageEnd s f := by
  cases h with
  | done h => exact .done h.toMoved h.sys h.work (h.page ▸ hp)
  | blocked h ha hd => exact .blocked h.toMoved h.sys (h.page ▸ hp) ha hd

/-- The operation that led from `s` to `t` is over, waits for a display that keeps failing, or raised `Fatal` (log 7, log 9). -/
def State.CompletedBy (s t : State) : Prop :=
  s.SameButPage t ∧
    (t.sys.phase = .ready ∧ t.work = [] ∨
     t.sys.phase = .ready ∧ t.env.draws = { queue := [], rest := false } ∧ (∃ a < s.hdr.bdCount, t.work = [.retry a]) ∨
     t.sys.phase = .fatal ∧ t.work = [])

theorem PageEnd.completes {s : State} {f : Flow} (h : PageEnd s f) (ho : s.Open) : ∃ t, f.toResult = .next t ∧ s.CompletedBy t := by
  obtain ⟨hready, -, hnone⟩ := ho
  cases h with
  | @done t h hsys hwork _ => exact ⟨t, rfl, h.toSameButPage, .inl ⟨by rw [hsys, hready], hwork.trans hnone⟩⟩
  | @fatal t h => exact ⟨t, rfl, h.toSameButPage, .inr (.inr ⟨h.phase, h.work⟩)⟩
  | @blocked t a h hsys _ ha hdraws =>
    exact ⟨{ t with work := [.retry a] }, rfl, { h.toSameButPage with }, .inr (.inl ⟨by rw [hsys, hready], hdraws, a, ha, rfl⟩)⟩

/-- Settles O43: each of the six operations ends as a page change does. -/
theorem dispatcherOperationsComplete : Obligations.DispatcherOperationsComplete := by
  intro s i ho hloaded hi
  have hevent {e : Event} (he : e ≠ .idle) : ∃ t, exec e.instr s = .next t ∧ s.CompletedBy t := by
    rw [exec_event_of_open ho]
    exact (dispatch_end he hloaded).completes ho
  obtain rfl | rfl | rfl | rfl | rfl | ⟨k, rfl⟩ := hi
  · exact hevent (e := .shortDown) (by decide)
  · exact hevent (e := .shortUp) (by decide)
  · exact hevent (e := .shortTriggered) (by decide)
  · exact hevent (e := .longTriggered) (by decide)
  · rw [exec_redrawAll_of_open ho]
    exact ((redrawAll_end hloaded.page).pageEnd hloaded.page).completes ho
  · rw [exec_changePage_of_open ho]
    exact (changePage_end _ s).completes ho

/-! ### The display's answers -/

/-- The answers `draws` let `n` frames be drawn: a success for each is queued, or the lasting answer is one (R179). -/
def Answers.Suffice (draws : Answers Bool) (n : Nat) : Prop := draws.rest = true ∨ n ≤ draws.queue.count true

/-- Draws that fail so often each and then succeed leave `queue` of the answers `draws`; the lasting answer gives the last `extra`
successes, once the queue is used up (R179). -/
def Answers.Consumed (draws : Answers Bool) (fails : List Nat) (queue : List Bool) : Prop :=
  ∃ extra, answersUsed fails ++ queue = draws.queue ++ List.replicate extra true ∧ (extra = 0 ∨ draws.rest = true ∧ queue = [])

theorem answersUsed_cons (n : Nat) (fails : List Nat) : answersUsed (n :: fails) = answersUsed [n] ++ answersUsed fails := by
  simp [answersUsed]

/-- The draws of one frame, then those of others. -/
theorem Answers.Consumed.cons {draws : Answers Bool} {n : Nat} {fails : List Nat} {q r : List Bool} (h : draws.Consumed [n] q)
    (k : ({ draws with queue := q } : Answers Bool).Consumed fails r) : draws.Consumed (n :: fails) r := by
  obtain ⟨e, hq, he⟩ := h
  obtain ⟨e', hr, he'⟩ := k
  refine ⟨e + e', ?_, ?_⟩
  · calc
      answersUsed (n :: fails) ++ r = answersUsed [n] ++ (q ++ List.replicate e' true) := by
        rw [answersUsed_cons, List.append_assoc, hr]
      _ = draws.queue ++ List.replicate (e + e') true := by
        rw [← List.append_assoc, hq, List.append_assoc, List.replicate_append_replicate]
  · obtain rfl | he' := he'
    · obtain rfl | ⟨hrest, rfl⟩ := he
      · exact .inl rfl
      · exact .inr ⟨hrest, (List.append_eq_nil_iff.mp (hr.trans rfl)).2⟩
    · exact .inr he'

/-- One frame drawn costs one success. -/
theorem Answers.Consumed.suffice {draws : Answers Bool} {n m : Nat} {q : List Bool} (h : draws.Consumed [n] q)
    (hs : draws.Suffice (m + 1)) : ({ draws with queue := q } : Answers Bool).Suffice m := by
  obtain hrest | hcount := hs
  · exact .inl hrest
  · obtain ⟨e, hq, rfl | ⟨hrest, -⟩⟩ := h
    · have hsum := congrArg (List.count true) hq
      rw [List.count_append, count_answersUsed, List.replicate_zero, List.append_nil] at hsum
      simp only [List.length_singleton] at hsum
      exact .inr (by change m ≤ q.count true; omega)
    · exact .inl hrest

/-! ### A display that comes round -/

theorem drawUntilOk_of_suffice {s : State} {m : Nat} (h : s.env.draws.Suffice (m + 1)) (f : List Byte) :
    ∃ n q, s.env.draws.Consumed [n] q ∧
      drawUntilOk f s = (true, s.afterDraws (List.replicate n (.draw f false) ++ [.draw f true]) q) := by
  obtain ⟨b, t, hdraw, hend⟩ := drawUntilOk_spec f s
  cases hend with
  | success n extra q hq he => exact ⟨n, q, ⟨extra, by simpa [answersUsed] using hq, he⟩, hdraw⟩
  | failure n hq hrest =>
    obtain hrest' | hcount := h
    · simp [hrest] at hrest'
    · simp [hq, List.count_replicate] at hcount

theorem State.afterDraws_retryTrace (s : State) (added : List TraceRecord) (q : List Bool) (a : Nat) (fails : List Nat) :
    (s.afterDraws added q).retryTrace a fails = s.retryTrace a fails :=
  State.retryTrace_congr (s := s) (t := s.afterDraws added q) rfl a fails

theorem redrawList_of_suffice (a count : Nat) {s : State} (hp : s.page.Holds s.cfg s.hdr.bdCount) (hc : a + count ≤ s.hdr.bdCount)
    (h : s.env.draws.Suffice count) :
    ∃ fails q, fails.length = count ∧ s.env.draws.Consumed fails q ∧
      redrawList (List.range' a count) s =
        .done { s.afterDraws (s.retryTrace a fails) q with mux := if count = 0 then s.mux else { addr := a + count - 1 } } := by
  obtain ⟨fails, extra, q, hlength, hused, hextra, hredraw⟩ := (redrawList_spec a count hp hc).of_enough h
  exact ⟨fails, q, hlength, ⟨extra, hused, hextra⟩, hredraw⟩

theorem redrawAll_of_suffice {s : State} (hbuttons : 0 < s.hdr.bdCount) (hp : s.page.Holds s.cfg s.hdr.bdCount)
    (h : s.env.draws.Suffice s.hdr.bdCount) :
    ∃ fails q, fails.length = s.hdr.bdCount ∧ s.env.draws.Consumed fails q ∧
      redrawAll s = .done { s.afterDraws (s.retryTrace 0 fails) q with mux := { addr := s.hdr.bdCount - 1 } } := by
  obtain ⟨fails, q, hlength, hused, hredraw⟩ := redrawList_of_suffice 0 s.hdr.bdCount hp (Nat.zero_add _).le h
  rw [if_neg hbuttons.ne', Nat.zero_add] at hredraw
  exact ⟨fails, q, hlength, hused, by rw [redrawAll, List.range_eq_range', hredraw]⟩

/-- A retried draw that succeeds, and the redraw of the buttons after it: as a redraw from `a` on, but the address of `a` is not set
again (R179; log 30). -/
theorem retryDraw_of_suffice {s : State} {a : Nat} (hp : s.page.Holds s.cfg s.hdr.bdCount) (ha : a < s.hdr.bdCount)
    (h : s.env.draws.Suffice (s.hdr.bdCount - a)) :
    ∃ n fails q, fails.length = s.hdr.bdCount - (a + 1) ∧ s.env.draws.Consumed (n :: fails) q ∧
      retryDraw a s =
        .done { s.afterDraws (List.replicate n (.draw (s.frameOf a) false) ++
              .draw (s.frameOf a) true :: s.retryTrace (a + 1) fails) q with
          mux := if a + 1 = s.hdr.bdCount then s.mux else { addr := s.hdr.bdCount - 1 } } := by
  obtain ⟨img, hi, himg⟩ := State.img?_of_holds hp ha
  rw [show s.hdr.bdCount - a = s.hdr.bdCount - (a + 1) + 1 by omega] at h
  obtain ⟨n, q, hfirst, hdraw⟩ := drawUntilOk_of_suffice h (imageBuffer img)
  rw [State.frameOf_eq hi, retryDraw_true himg hdraw]
  generalize hcount : s.hdr.bdCount - (a + 1) = count at h
  obtain ⟨fails, r, hlength, hothers, hredraw⟩ :=
    redrawList_of_suffice (a + 1) count
      (s := s.afterDraws (List.replicate n (.draw (imageBuffer img) false) ++ [.draw (imageBuffer img) true]) q)
      hp (by change a + 1 + count ≤ s.hdr.bdCount; omega) (hfirst.suffice h)
  refine ⟨n, fails, r, hlength, hfirst.cons hothers, ?_⟩
  have hlast : (count = 0 ↔ a + 1 = s.hdr.bdCount) ∧ a + 1 + count - 1 = s.hdr.bdCount - 1 := by omega
  simp only [hlast] at hredraw
  change redrawList (List.range' (a + 1) (s.hdr.bdCount - (a + 1))) _ = _
  rw [hcount, hredraw, State.afterDraws_retryTrace, State.afterDraws_afterDraws, List.append_assoc]
  rfl

/-! ### A step that resumes -/

/-- With no waiting reset, the step of a block that waits for the display goes on with the tasks left over (R179). -/
theorem step_of_work {s : State} (hready : s.sys.phase = .ready) (hcfg : s.cfg.Valid) (hreset : resetWaits s = false)
    (hwork : s.work ≠ []) : step s = (runTasks s.work { s with work := [] }).toResult := by
  have halive : s.Alive := ⟨by simp [hready], hcfg⟩
  simp [step, nextSelection, hreset, hready, hwork, resumeWork, State.whenAlive_of halive]

/-- Settles O45: a redraw and a retried draw end as their answers tell, and after the latter the end of the invocation may follow. -/
theorem redrawRetriesUntilSuccess : Obligations.RedrawRetriesUntilSuccess := by
  intro s hp comesRound used
  refine ⟨fun ho hbuttons henough => ?_, fun a later hready hcfg hreset hwork hlater ha henough => ?_⟩
  · obtain ⟨fails, q, hlength, hused, hredraw⟩ := redrawAll_of_suffice hbuttons hp henough
    refine ⟨fails, q, hlength, hused, ?_⟩
    rw [exec_redrawAll_of_open ho, hredraw]
    rfl
  · obtain ⟨n, fails, q, hlength, hused, hretry⟩ := retryDraw_of_suffice (s := { s with work := [] }) hp ha henough
    refine ⟨n, fails, q, hlength, hused, ?_⟩
    have htrace := State.retryTrace_congr (s := s) (t := { s with work := [] }) rfl (a + 1) fails
    rw [step_of_work hready hcfg hreset (by simp [hwork]), hwork, runTasks_cons, runTask, hretry, htrace]
    obtain rfl | rfl := hlater
    · simp [runTasks, Flow.toResult, State.afterDraws, State.frameOf]
    · simp [runTasks, runTask, Flow.toResult, State.afterDraws, State.frameOf, State.finish]

/-! ### A display that keeps failing -/

/-- With no answers left and a lasting failure, one attempt fails and the answers stay as they are. -/
theorem drawUntilOk_of_hanging {s : State} (h : s.env.draws = { queue := [], rest := false }) (f : List Byte) :
    drawUntilOk f s = (false, { s with trace := s.trace ++ [.draw f false] }) := by
  have hsame : s.drawOnce f false [] = { s with trace := s.trace ++ [.draw f false] } := by
    rw [State.drawOnce, h, ← h]
    rfl
  rw [drawUntilOk, h, drawQueued, h, hsame]

/-- Settles O46: the redraw stops where its successes end, and a step that resumes there makes one attempt and waits again. -/
theorem failingDisplayHangsBlock : Obligations.FailingDisplayHangsBlock := by
  intro s hcfg hp
  refine ⟨fun ho hrest hfew => ?_, fun a img rest hready hwork hdraws himg hreset => ?_⟩
  · obtain ⟨fails, n, hlength, hqueue, hredraw⟩ := (redrawAll_spec hp).of_too_few hrest hfew
    refine ⟨fails, n, hlength, hqueue, ?_⟩
    rw [exec_redrawAll_of_open ho, hredraw, hlength]
    simp [Flow.toResult, State.afterDraws, hrest]
  · have hget : ({ s with work := [] } : State).img? a = some img := State.img?_of_getElem? hp himg
    rw [step_of_work hready hcfg hreset (by simp [hwork]), hwork, runTasks_cons, runTask,
      retryDraw_false hget (drawUntilOk_of_hanging (s := { s with work := [] }) hdraws _)]
    simp [Flow.toResult, imageBuffer, ← hwork]

end Sys2Proof.Machine

namespace Sys2Proof.Machine

/-! ### The fatal state -/

/-- Settles O2: the operation is the raise, and this is the state that the raise makes. -/
theorem raiseFatalEntersFatalState : Obligations.RaiseFatalEntersFatalState := fun _ _ => rfl

/-- Every operation but the raise and a reset stands behind `State.whenAlive` (R195, R202). -/
theorem exec_eq_whenAlive {i : Instr} (hraise : ∀ c, i ≠ .raiseFatal c) (hreset : i ≠ .reset) (s : State) :
    ∃ k, exec i s = s.whenAlive k := by
  cases i with
  | raiseFatal c => exact absurd rfl (hraise c)
  | reset => exact absurd rfl hreset
  | _ => exact ⟨_, rfl⟩

theorem State.whenAlive_of_fatal {s : State} (h : s.sys.phase = .fatal) (k : Result) : s.whenAlive k = .fault (.fatal s.sys.cause) :=
  if_pos h

/-- Settles O3: the guard of the operations faults, and of the cases of `step_cases` only the fault and the reset are left. -/
theorem fatalStateHasNoStep : Obligations.FatalStateHasNoStep := by
  intro s hfatal
  refine ⟨fun i hraise hreset => ?_, ?_⟩
  · obtain ⟨k, hexec⟩ := exec_eq_whenAlive hraise hreset s
    exact hexec.trans (State.whenAlive_of_fatal hfatal k)
  · obtain ⟨hreset, hstep⟩ | ⟨hreset, -, hstep⟩ | ⟨-, halive, -⟩ | ⟨-, hready, -⟩ | ⟨-, halive, -⟩ := step_cases s
    · exact ⟨by simp [hreset], fun _ => ⟨_, hstep, rfl⟩⟩
    · exact ⟨fun _ => hstep, by simp [hreset]⟩
    · exact absurd hfatal halive
    · simp [hfatal] at hready
    · exact absurd hfatal halive

/-! ### A pin fault -/

theorem State.pressed_of_pin_ne_low {s : State} (h : s.env.pin ≠ .low) : s.pressed = false := by
  by_cases hup : s.fsm.state = .up
  · simp [State.pressed, hup]
  · simp [State.pressed_of_ne_up hup, h]

/-- The pin enters the decider word only by being low or not (R83, R193). -/
theorem State.deciderWord_of_pin_ne_low {s : State} {pin : Pin} (h : pin ≠ .low) :
    { s with env := { s.env with pin := pin } }.deciderWord =
      s.fsm.state.bits ++ BitVec.ofBool false ++ BitVec.ofBool s.fsm.hasSec ++ BitVec.ofBool s.long := by
  rw [State.deciderWord, State.pressed_of_pin_ne_low h]
  rfl

/-- Settles O10: a fault is no low sample, and each state's decider takes its branch for that. -/
theorem pinFaultReadsAsReleased : Obligations.PinFaultReadsAsReleased := by
  intro s
  refine ⟨?_, fun _ hfault _ => ?_⟩
  · rw [State.deciderWord_of_pin_ne_low (by decide), State.deciderWord_of_pin_ne_low (by decide)]
  · have hpin : s.env.pin ≠ .low := by simp [hfault]
    exact ⟨fun hstart => (decodeDecider_start hstart).trans (if_neg hpin),
      fun hdown hheld => hheld.decodeDecider_down hdown,
      fun hdown hheld => (hheld.decodeDecider_down hdown).trans (if_neg hpin),
      fun hwaiting => (decodeDecider_downButWaiting hwaiting).trans (if_neg hpin)⟩

/-! ### Requests outside the contract -/

theorem State.whenAlive_of_badParameters {s : State} (halive : s.sys.phase ≠ .fatal) (hcfg : ¬ s.cfg.Valid) (k : Result) :
    s.whenAlive k = .refused .badParameters :=
  (if_neg halive).trans (if_neg hcfg)

theorem State.alive_of_uninit {s : State} (hcfg : s.cfg.Valid) (huninit : s.sys.phase = .uninit) : s.Alive :=
  ⟨by simp [huninit], hcfg⟩

theorem State.whenReady_of_uninit {s : State} (hcfg : s.cfg.Valid) (huninit : s.sys.phase = .uninit) (k : Result) :
    s.whenReady k = .refused .notReady := by
  rw [State.whenReady, State.whenAlive_of (State.alive_of_uninit hcfg huninit), if_pos (by simp [huninit])]

theorem exec_invoke_busy {s : State} (ho : s.Open) (hbusy : s.fsm.busy = true) : exec .invoke s = .refused .busy :=
  (State.whenReady_of ho _).trans (if_pos hbusy)

theorem exec_opNew_ready {s : State} (hcfg : s.cfg.Valid) (hready : s.sys.phase = .ready) :
    exec .opNew s = .refused .alreadyBooted :=
  (State.whenAlive_of ⟨by simp [hready], hcfg⟩ _).trans (if_pos hready)

theorem exec_opNew_not_at_start {s : State} (hcfg : s.cfg.Valid) (huninit : s.sys.phase = .uninit) (hpos : s.stream.pos ≠ 0) :
    exec .opNew s = .refused .streamNotAtStart :=
  (State.whenAlive_of (State.alive_of_uninit hcfg huninit) _).trans ((if_neg (by simp [huninit])).trans (if_pos hpos))

theorem State.sample_of_not_monotone {s : State} (h : ¬ s.ClockMonotone) : s.sample = .error .timeWentBack :=
  if_pos (Nat.not_le.mp h)

/-- An evaluation with no sample is refused as the sample is (R101). -/
theorem exec_evaluate_of_sample_error {s : State} {r : Refusal} (ho : s.Open) (hbusy : s.fsm.busy = true) (h : s.sample = .error r) :
    exec .evaluate s = .refused r := by
  change s.whenReady _ = _
  rw [State.whenReady_of ho, if_neg (by simp [hbusy]), h]

/-- A decider that asks for the elapsed time and has none selects no transition (R103). -/
theorem exec_transition_of_elapsedStop {s : State} {r : Refusal} (ho : s.Open) (hbusy : s.fsm.busy = true)
    (h : s.elapsedStop = some r) (tr : Transition) : exec tr.instr s = .refused r := by
  have hguard : ∃ k, exec tr.instr s = s.whenSelected tr k := by cases tr <;> exact ⟨_, rfl⟩
  obtain ⟨k, hexec⟩ := hguard
  rw [hexec, State.whenSelected, State.whenReady_of ho, if_neg (by simp [hbusy]), h]

section
variable {s : State} (hsec : s.fsm.hasSec = true) (hstate : s.fsm.state = .down ∨ s.fsm.state = .up)
include hsec hstate

theorem State.elapsedStop_of_no_timestamp (hts : s.fsm.pressTs = none) : s.elapsedStop = some .noTimestamp := by
  obtain hdown | hup := hstate
  · simp [State.elapsedStop, hdown, hsec, hts]
  · simp [State.elapsedStop, hup, hsec, hts]

theorem State.elapsedStop_of_later_timestamp {ts : Nat} (hts : s.fsm.pressTs = some ts) (hlater : s.env.now < ts) :
    s.elapsedStop = some .timeWentBack := by
  obtain hdown | hup := hstate
  · simp [State.elapsedStop, hdown, hsec, hts, hlater]
  · simp [State.elapsedStop, hup, hsec, hts, hlater]

/-- The fresh sample of an evaluation leaves the FSM alone, so no timestamp before it is none after it. -/
theorem exec_evaluate_of_no_timestamp (hts : s.fsm.pressTs = none) (ho : s.Open) (hbusy : s.fsm.busy = true)
    (hclock : s.ClockMonotone) : exec .evaluate s = .refused .noTimestamp := by
  obtain ⟨t, hsample⟩ := State.sample_of_monotone hclock
  have hs := State.sample_ok hsample
  rw [evaluateAppliesSelectedTransition s t ho hbusy hsample]
  rw [← hs.fsm] at hsec hstate hts hbusy
  exact exec_transition_of_elapsedStop (hs.isOpen ho) hbusy (State.elapsedStop_of_no_timestamp hsec hstate hts) _

end

/-- Settles O29: each request is stopped by the guard that its operation comes to first. -/
theorem misusedCallsAreRefused : Obligations.MisusedCallsAreRefused := by
  intro s
  refine ⟨fun hcfg halive i hraise hreset => ?_, fun hcfg => ⟨?_, ?_, ?_, ?_, ?_, ?_⟩, ?_, fun ho hbusy hsec hstate => ⟨?_, ?_⟩⟩
  · obtain ⟨k, hexec⟩ := exec_eq_whenAlive hraise hreset s
    exact hexec.trans (State.whenAlive_of_badParameters halive hcfg k)
  · exact fun huninit => State.whenReady_of_uninit hcfg huninit _
  · exact fun hready hwork hbusy => exec_invoke_busy ⟨hready, hcfg, hwork⟩ hbusy
  · exact exec_opNew_ready hcfg
  · exact exec_opNew_not_at_start hcfg
  · exact fun huninit => State.whenReady_of_uninit hcfg huninit _
  · intro huninit hpos hanswer hlen hdecoded hmany
    exact (exec_opNew_decoded hcfg huninit hpos hanswer hlen hdecoded).trans (bootPage_tooManyButtons hmany.not_ge)
  · exact fun ho hbusy hclock => exec_evaluate_of_sample_error ho hbusy (State.sample_of_not_monotone hclock)
  · exact fun hts => ⟨exec_evaluate_of_no_timestamp hsec hstate hts ho hbusy,
      exec_transition_of_elapsedStop ho hbusy (State.elapsedStop_of_no_timestamp hsec hstate hts)⟩
  · exact fun ts hts hlater => exec_transition_of_elapsedStop ho hbusy (State.elapsedStop_of_later_timestamp hsec hstate hts hlater)

end Sys2Proof.Machine

namespace Sys2Proof.Machine

/-! ### The cursor -/

theorem FlowEnd.disp {ts : List Task} {s t : State} {f : Flow} (h : FlowEnd WorkedInPlace ts s f) (ht : f.toResult = .next t) :
    t.disp = s.disp := by
  cases h with
  | done h | fatal h | blocked h => obtain ⟨⟩ := ht; exact h.2
  | refused => cases ht

/-- The ways an operation can move the cursor: the action of `Idle` (R171), and inside an invocation the transition that emits it, alone
or selected by a sample (R105). -/
inductive MovesCursor (i : Instr) (s t : State) : Prop
  | idle (hi : i = .eventIdle)
  | startIsUp (ho : s.Open) (hbusy : s.fsm.busy = true) (hi : i = .startIsUp)
  | evaluated (ho : s.Open) (hbusy : s.fsm.busy = true) (u : State) (hsample : s.sample = .ok u) (h : Transitioned .startIsUp u t)

theorem Transitioned.disp {tr : Transition} {s t : State} (h : Transitioned tr s t) (htr : tr ≠ .startIsUp) : t.disp = s.disp := by
  obtain ⟨-, -, -, -, -, hinPlace⟩ := h
  exact (hinPlace htr).disp

theorem Effect.movesCursor {i : Instr} {s t : State} (h : Effect i s t) (hmoved : s.disp ≠ t.disp) : MovesCursor i s t := by
  cases h with
  | returned h => rw [h] at hmoved; exact absurd rfl hmoved
  | raised c h => rw [h] at hmoved; exact absurd rfl hmoved
  | header _ _ h =>
    obtain ⟨h, -⟩ | ⟨d, h⟩ := h <;> rw [h] at hmoved <;> exact absurd rfl hmoved
  | booted _ _ h => exact absurd h.1.disp.symm hmoved
  | loaded _ _ _ h => exact absurd h.1.disp.symm hmoved
  | invoked _ _ _ sec h => rw [h] at hmoved; exact absurd rfl hmoved
  | evaluated _ ho hbusy u hsample h =>
    by_cases htr : decodeDecider u.deciderWord = .startIsUp
    · exact .evaluated ho hbusy u hsample (htr ▸ h)
    · rw [h.disp htr, (State.sample_ok hsample).same] at hmoved
      exact absurd rfl hmoved
  | transitioned tr hi h =>
    by_cases htr : tr = .startIsUp
    · obtain ⟨ho, hbusy, -⟩ := h
      exact .startIsUp ho hbusy (by rw [hi, htr]; rfl)
    · exact absurd (h.disp htr).symm hmoved
  | worked _ _ hdisp =>
    by_cases hi : i = .eventIdle
    · exact .idle hi
    · exact absurd (hdisp hi).symm hmoved

/-- `Start/IsUp` is selected in `Start` by a pin that is not low, and ends the invocation however its action ends (R84, R105). -/
theorem Transitioned.of_startIsUp {s t : State} (h : Transitioned .startIsUp s t) :
    s.fsm.state = .start ∧ s.env.pin ≠ .low ∧ t.fsm.busy = false := by
  obtain ⟨-, -, -, hsel, hended, -⟩ := h
  rw [decodeDecider_deciderWord] at hsel
  obtain ⟨u, hworked, ht⟩ := hended.exists_worked
  have hidle : t.fsm.busy = false := by
    rw [ht]
    obtain hfsm | hfsm := hworked.fsm <;> exact congrArg Fsm.busy hfsm
  cases hstate : s.fsm.state <;> simp only [hstate] at hsel
  case start => exact ⟨rfl, fun hlow => by simp [hlow] at hsel, hidle⟩
  case down | downButWaiting | up => split_ifs at hsel

/-- Settles O57: the tasks left over hold no `Idle`, a waiting call is served between invocations only, where no transition runs, and of the
block's own operations the evaluation alone can move the cursor. -/
theorem cursorMovesOnlyOnIdle : Obligations.CursorMovesOnlyOnIdle := by
  intro s t h hstep hreset hcursor
  have hmoved : s.disp ≠ t.disp := fun hd => hcursor (congrArg Disp.cursor hd)
  cases step_next hstep with
  | reset hr => simp [hreset] at hr
  | resumed hwork =>
    rw [step_of_work (h.waiting hwork) h.cfg hreset hwork] at hstep
    exact absurd ((runTasks_inPlace h.noIdle _).disp hstep).symm hmoved
  | served w rest i hcalls hdecode _ hidle heffect =>
    cases heffect.movesCursor hmoved with
    | idle hi => exact .inr ⟨w, rest, hcalls, hi ▸ hdecode⟩
    | startIsUp ho hbusy | evaluated ho hbusy => exact absurd (hidle ho.1) (by simpa using hbusy)
  | own i hi _ heffect =>
    cases heffect.movesCursor hmoved with
    | idle hidle | startIsUp _ _ hidle => simp [hidle] at hi
    | evaluated _ hbusy u hsample htr =>
      obtain ⟨hstart, hpin, hended⟩ := htr.of_startIsUp
      have hsampled := State.sample_ok hsample
      rw [hsampled.fsm] at hstart
      rw [hsampled.pin (by simp [hstart])] at hpin
      exact .inl ⟨hbusy, hstart, hpin, hended⟩

/-! ### A held button -/

theorem Acted.refl (s : State) : Acted [] s s := (Drawn.refl s).acted

/-- The tasks that wait are no part of what an action did. -/
theorem Acted.with_work {es : List Event} {s t : State} (h : Acted es s t) (work : List Task) : Acted es s { t with work := work } :=
  { h.toSameButPage with loaded := fun hp => ⟨(h.loaded hp).page, (h.loaded hp).cursor⟩, events := h.events }

/-- An event emitted on a loaded page has a next state, with its record and no further one (R115). -/
theorem emit_acted_next {e : Event} (he : e ≠ .idle) {s : State} (hloaded : s.PageLoaded) :
    ∃ t, (emit e s).toResult = .next t ∧ Acted [e] s t := by
  have hend := emit_flow he s
  have hnever : ∀ r, emit e s ≠ .refused r := runTask_not_refused (t := .emit e) hloaded nofun
  generalize emit e s = f at hend hnever ⊢
  cases hend with
  | done hacted | fatal hacted => exact ⟨_, rfl, hacted⟩
  | @blocked t _ _ hacted => exact ⟨_, rfl, hacted.with_work _⟩
  | refused => exact absurd rfl (hnever _)

/-- Inside an invocation in `Down` the button is held past the threshold or not, since the time of the press is there (R103, R116). -/
theorem Fsm.Running.heldPast_or_notHeldPast {s : State} (h : s.fsm.Running s.env.now s.cfg.longPressThreshold)
    (hdown : s.fsm.state = .down) : s.HeldPast ∨ s.NotHeldPast := by
  obtain ⟨-, hpress⟩ := h
  simp only [hdown] at hpress
  obtain ⟨ts, hts, hnow⟩ := hpress
  obtain hheld | hover := le_or_gt (s.env.now - ts) s.cfg.longPressThreshold
  · exact .inr (.inr ⟨ts, hts, hnow, hheld⟩)
  · cases hsec : s.fsm.hasSec with
    | false => exact .inr (.inl hsec)
    | true => exact .inl ⟨hsec, ts, hts, hover⟩

/-- How a step that does not end the invocation leaves a state `s`: busy in `Down` or `DownButWaiting`, with no `Idle` emitted. -/
structure StillPressed (s t : State) : Prop where
  busy : t.fsm.busy = true
  state : t.fsm.state = .down ∨ t.fsm.state = .downButWaiting
  events : ∃ added, t.trace = s.trace ++ added ∧ .idle ∉ eventsOf added
  disp : t.disp = s.disp
  hdr : t.hdr = s.hdr

theorem Acted.stillPressed {es : List Event} {s t : State} {f : Fsm} (h : Acted es { s with fsm := f } t) (hidle : .idle ∉ es)
    (hbusy : f.busy = true) (hstate : f.state = .down ∨ f.state = .downButWaiting) : StillPressed s t := by
  obtain ⟨added, htrace, hevents⟩ := h.events
  have hfsm : t.fsm = f := h.fsm
  exact ⟨hfsm ▸ hbusy, hfsm ▸ hstate, ⟨added, htrace, hevents ▸ hidle⟩, h.disp, h.hdr⟩

section
variable {s : State} (ho : s.Open) (hbusy : s.fsm.busy = true) (hlow : s.env.pin = .low)
include ho hbusy hlow

/-- Where a held button changes nothing, the selected transition answers the state itself (R108, R110). -/
theorem exec_selected_stillDown (hstate : s.fsm.state = .downButWaiting ∨ s.fsm.state = .down ∧ s.NotHeldPast) :
    exec (decodeDecider s.deciderWord).instr s = .next s := by
  obtain ⟨hdown, hwaiting⟩ := stillDownChangesNothing s ho hbusy hlow
  obtain hstate | ⟨hstate, hheld⟩ := hstate
  · rw [decodeDecider_downButWaiting hstate, if_pos hlow]
    exact hwaiting hstate
  · rw [hheld.decodeDecider_down hstate, if_pos hlow]
    exact hdown hstate hheld

/-- The transition selected under a held button stays inside the invocation (R106 to R108, R110). -/
theorem exec_selected_held (h : s.Inv) (hup : s.fsm.state ≠ .up) :
    ∃ t, exec (decodeDecider s.deciderWord).instr s = .next t ∧ StillPressed s t := by
  have hstill := exec_selected_stillDown ho hbusy hlow
  have hready : s.sys.phase = .ready := ho.1
  have hloaded (f : Fsm) : ({ s with fsm := f } : State).PageLoaded := ⟨(h.pageLoaded hready).page, (h.pageLoaded hready).cursor⟩
  cases hstate : s.fsm.state with
  | up => exact absurd hstate hup
  | start =>
    rw [decodeDecider_start hstate, if_pos hlow]
    have hexec := exec_startIsDown ho hbusy hstate hlow
    cases hsec : s.fsm.hasSec with
    | true => exact ⟨_, hexec.trans (if_pos hsec), (Acted.refl _).stillPressed nofun hbusy (.inl rfl)⟩
    | false =>
      obtain ⟨t, ht, hacted⟩ := emit_acted_next (e := .shortDown) (by decide) (hloaded _)
      exact ⟨t, (hexec.trans (if_neg (by simp [hsec]))).trans ht, hacted.stillPressed (by decide) hbusy (.inl rfl)⟩
  | down =>
    obtain hheld | hheld := (h.running hready hbusy).heldPast_or_notHeldPast hstate
    · obtain ⟨t, ht, hacted⟩ := emit_acted_next (e := .longTriggered) (by decide) (hloaded _)
      rw [hheld.decodeDecider_down hstate]
      exact ⟨t, (exec_downHeldLong ho hbusy hstate hheld).trans ht, hacted.stillPressed (by decide) hbusy (.inr rfl)⟩
    · exact ⟨s, hstill (.inr ⟨hstate, hheld⟩), (Acted.refl s).stillPressed nofun hbusy (.inl hstate)⟩
  | downButWaiting => exact ⟨s, hstill (.inl hstate), (Acted.refl s).stillPressed nofun hbusy (.inr hstate)⟩

end

/-- Settles O59: the step runs the transition that the fresh sample selects, and the sample adds the pin read to the trace,
which is all where that transition changes nothing. -/
theorem heldButtonBlocksBlock : Obligations.HeldButtonBlocksBlock := by
  intro s ho hbusy hup hclock hlow hreset
  have ⟨hready, _, hwork⟩ := ho
  have hsample := State.sample_of_ne_up hclock hup
  have hstep := step_selected ho hbusy hreset hsample rfl
  have htrace : s.readClock.readPin.trace = s.trace ++ [.pinRead .low] := by simp [hlow]
  refine ⟨fun hstate => ?_, fun h => ?_⟩
  · have hstill := exec_selected_stillDown (s := s.readClock.readPin) ho hbusy hlow (hstate.imp_right (.imp_right .inl))
    exact ⟨_, hstep.trans hstill, rfl, rfl, rfl, rfl, hwork, htrace⟩
  · have hinv := h.sampled hready (State.sample_ok hsample)
    obtain ⟨t, ht, hpressed⟩ := exec_selected_held (s := s.readClock.readPin) ho hbusy hlow hinv hup
    obtain ⟨added, hadded, hidle⟩ := hpressed.events
    exact ⟨t, added, hstep.trans ht, by rw [hadded, htrace, List.append_assoc]; rfl, hidle, hpressed.busy, hpressed.state,
      hpressed.disp, hpressed.hdr⟩

end Sys2Proof.Machine

namespace Sys2Proof

/-! ### The words of an operation decode to it -/

/-- Each `match` word of R84 selects its own transition. -/
theorem decodeDecider_matchWord (t : Transition) : decodeDecider t.matchWord = t := by
  cases t <;> rfl

theorem decode_transition_word (p : Params) (t : Transition) : decode p t.word = .ok t.instr := by
  rw [Transition.word, decode_deciderWord, decodeDecider_matchWord]

theorem decode_event_word (p : Params) (e : Event) : decode p e.word = .ok e.instr := by
  cases e <;> rfl

/-- Each assigned code, under any high nibble, selects its own operation with that nibble (R75, R150). -/
theorem decodeSlot_modeByte {p : Params} (hp : p.Valid) (hi : BitVec 4) (payload : List Byte) :
    decodeSlot p (modeByte hi p.modePressKeys) payload = .slotPressKeys hi payload ∧
    decodeSlot p (modeByte hi modeChangePage) payload = .slotChangePage hi payload ∧
    decodeSlot p (modeByte hi p.modePressSpecialKey) payload = .slotPressSpecialKey hi payload ∧
    decodeSlot p (modeByte hi p.modeSendText) payload = .slotSendText hi payload ∧
    decodeSlot p (modeByte hi p.modeSetSetting) payload = .slotSetSetting hi payload ∧
    decodeSlot p (modeByte hi p.modeCommunicateToHost) payload = .slotCommunicateToHost hi payload ∧
    decodeSlot p (modeByte hi p.modeNoFunction) payload = .slotNoFunction hi payload := by
  simpa only [modeCode_modeByte, modeHigh_modeByte, forall_and, forall_eq] using
    fun code => decodeSlot_assigned hp (modeByte hi code) payload

/-- The slot of an unassigned code with top bit `high` and low bits `c` (R159; log 16). -/
def unknownSlot (high : Bool) (hi : BitVec 4) (c : BitVec 3) (payload : List Byte) : Instr :=
  if high then .slotUnknownHigh hi c payload else .slotUnknownLow hi c payload

theorem unknownSlot_wellFormed {p : Params} {high : Bool} {hi : BitVec 4} {c : BitVec 3} {payload : List Byte} :
    (unknownSlot high hi c payload).WellFormed p = true ↔ payload.length = p.dataSize ∧ unknownCode high c ∉ p.modeCodes := by
  cases high <;> simp [unknownSlot, Instr.WellFormed]

theorem encode_unknownSlot (p : Params) (high : Bool) (hi : BitVec 4) (c : BitVec 3) (payload : List Byte) :
    encode p (unknownSlot high hi c payload) = slotWord hi (unknownCode high c) payload := by
  cases high <;> rfl

theorem decodeSlot_unknownCode {p : Params} {high : Bool} {c : BitVec 3} (h : unknownCode high c ∉ p.modeCodes) (hi : BitVec 4)
    (payload : List Byte) : decodeSlot p (modeByte hi (unknownCode high c)) payload = unknownSlot high hi c payload := by
  rw [decodeSlot_unassigned (by rwa [modeCode_modeByte])]
  simp only [modeCode_modeByte, modeHigh_modeByte, unknownCode_high, unknownCode_low, unknownSlot]

theorem decode_encode_unknownSlot {p : Params} {high : Bool} {hi : BitVec 4} {c : BitVec 3} {payload : List Byte}
    (h : (unknownSlot high hi c payload).WellFormed p = true) :
    decode p (encode p (unknownSlot high hi c payload)) = .ok (unknownSlot high hi c payload) := by
  obtain ⟨hlength, hcode⟩ := unknownSlot_wellFormed.mp h
  rw [encode_unknownSlot, decode_slotWord hlength, decodeSlot_unknownCode hcode]

theorem decode_encode_slotFunction (p : Params) (slot : SlotName) (button : U16) :
    decode p (encode p (.slotFunction slot button)) = .ok (.slotFunction slot button) := by
  cases slot <;> exact callWithU16_bytes _ button

theorem decode_encode_raiseFatal (p : Params) (cause : Cause) :
    decode p (encode p (.raiseFatal cause)) = .ok (.raiseFatal cause) := by
  cases cause <;> rfl

/-! ### What decodes is encoded by the same bytes -/

/-- The operation `i` is well formed, and `w` are its words. -/
def Instr.EncodedBy (p : Params) (i : Instr) (w : OpWord) : Prop :=
  i.WellFormed p = true ∧ encode p i = w

theorem Transition.instr_wellFormed (p : Params) (t : Transition) : t.instr.WellFormed p = true := by
  cases t <;> rfl

theorem Event.instr_encodedBy (p : Params) (e : Event) : e.instr.EncodedBy p e.word := by
  cases e <;> exact ⟨rfl, rfl⟩

theorem decodeEvent_ok {b : Byte} {e : Event} (h : decodeEvent b = .ok e) : b = e.code := by
  unfold decodeEvent at h
  split_ifs at h <;> obtain ⟨⟩ := h <;> assumption

theorem decode_event_encodedBy {p : Params} {b : Byte} {i : Instr} (h : decode p ⟨.event, [b]⟩ = .ok i) :
    i.EncodedBy p ⟨.event, [b]⟩ := by
  cases hb : decodeEvent b with
  | error e => simp [decode, hb, Except.map] at h
  | ok e =>
    obtain rfl : e.instr = i := by simpa [decode, hb, Except.map] using h
    rw [decodeEvent_ok hb]
    exact e.instr_encodedBy p

/-- The operation of a slot holds both nibbles of the mode byte: the high one as an operand, the code in its name, or in its name and
an operand if the code is unassigned (R75). -/
theorem decodeSlot_encodedBy {p : Params} (mode : Byte) {payload : List Byte} (hlength : payload.length = p.dataSize) :
    (decodeSlot p mode payload).EncodedBy p ⟨.slot, mode :: payload⟩ := by
  have hslot : (payload.length == p.dataSize) = true := beq_iff_eq.mpr hlength
  have hword {code : BitVec 4} (hcode : modeCode mode = code) : slotWord (modeHigh mode) code payload = ⟨.slot, mode :: payload⟩ := by
    rw [slotWord, ← hcode, modeByte_parts]
  have hunknown {high : Bool} (hhigh : (modeCode mode).getLsbD 3 = high) (hcode : modeCode mode ∉ p.modeCodes) :
      (unknownSlot high (modeHigh mode) ((modeCode mode).setWidth 3) payload).EncodedBy p ⟨.slot, mode :: payload⟩ := by
    refine ⟨unknownSlot_wellFormed.mpr ⟨hlength, unknownCode_setWidth_notMem hcode hhigh⟩, (encode_unknownSlot ..).trans (hword ?_)⟩
    rw [← hhigh, unknownCode_parts]
  simp only [decodeSlot]
  split_ifs with hkeys hpage hspecial htext hsetting hhost hnone hbit
  · exact ⟨hslot, hword hkeys⟩
  · exact ⟨hslot, hword hpage⟩
  · exact ⟨hslot, hword hspecial⟩
  · exact ⟨hslot, hword htext⟩
  · exact ⟨hslot, hword hsetting⟩
  · exact ⟨hslot, hword hhost⟩
  · exact ⟨hslot, hword hnone⟩
  · exact hunknown hbit (by simp [Params.modeCodes, *])
  · exact hunknown (Bool.eq_false_of_not_eq_true hbit) (by simp [Params.modeCodes, *])

section
variable {p : Params} {number : Byte} {operands : List Byte} {i : Instr}

theorem callAlone_encodedBy {j : Instr} (hj : j.EncodedBy p ⟨.call, [number]⟩) (h : callAlone j operands = .ok i) :
    i.EncodedBy p ⟨.call, number :: operands⟩ := by
  obtain ⟨rfl, rfl⟩ := callAlone_ok h
  exact hj

theorem callWithU16_encodedBy {f : U16 → Instr} (hf : ∀ v, (f v).EncodedBy p ⟨.call, [number, lowByte v, highByte v]⟩)
    (h : callWithU16 f operands = .ok i) : i.EncodedBy p ⟨.call, number :: operands⟩ := by
  obtain ⟨v, rfl, rfl⟩ := callWithU16_ok h
  exact hf v

theorem callSlotFunction_encodedBy (h : callSlotFunction operands = .ok i) : i.EncodedBy p ⟨.call, 4 :: operands⟩ := by
  obtain ⟨slot, button, rfl, rfl⟩ := callSlotFunction_ok h
  exact ⟨rfl, rfl⟩

theorem callRaiseFatal_encodedBy (h : callRaiseFatal operands = .ok i) : i.EncodedBy p ⟨.call, 8 :: operands⟩ := by
  obtain ⟨cause, rfl, rfl⟩ := callRaiseFatal_ok h
  exact ⟨rfl, rfl⟩

/-- Each call number selects the one call whose words begin with it (log 10). -/
theorem decodeCall_encodedBy (h : decodeCall number operands = .ok i) : i.EncodedBy p ⟨.call, number :: operands⟩ := by
  unfold decodeCall at h
  split_ifs at h <;> subst number
  · exact callAlone_encodedBy (j := .invoke) ⟨rfl, rfl⟩ h
  · exact callAlone_encodedBy (j := .evaluate) ⟨rfl, rfl⟩ h
  · exact callAlone_encodedBy (j := .opNew) ⟨rfl, rfl⟩ h
  · exact callWithU16_encodedBy (f := .loadPage) (fun _ => ⟨rfl, rfl⟩) h
  · exact callSlotFunction_encodedBy h
  · exact callWithU16_encodedBy (f := .isLive) (fun _ => ⟨rfl, rfl⟩) h
  · exact callWithU16_encodedBy (f := .changePage) (fun _ => ⟨rfl, rfl⟩) h
  · exact callAlone_encodedBy (j := .redrawAll) ⟨rfl, rfl⟩ h
  · exact callRaiseFatal_encodedBy h
  · exact callAlone_encodedBy (j := .reset) ⟨rfl, rfl⟩ h

end

/-- A decoder that guards its operation by a test answers that operation only, and only if the test holds. -/
theorem guard_and_eq_of_ite_eq_ok {c : Prop} [Decidable c] {e : DecodeError} {i j : Instr}
    (h : (if c then .ok j else .error e : Except DecodeError Instr) = .ok i) : c ∧ j = i := by
  split_ifs at h with hc
  exact ⟨hc, Except.ok.inj h⟩

end Sys2Proof

namespace Sys2Proof.Machine

/-- Settles O48: the mode codes of the seven named functions are distinct and an unassigned code is none of them; each other
operation has a word, a block or a call number of its own. -/
theorem decodeInvertsEncode : Obligations.DecodeInvertsEncode := by
  intro p i hp hwf
  cases i with
  | startIsUp | startIsDown | downHeldLong | downStillDown | downAnyUp | downButWaitingStillDown | downButWaitingReleased
  | upUpAfterLong | upShortHeld | upShortUp => exact decode_transition_word p _
  | slotPressKeys hi payload | slotChangePage hi payload | slotNoFunction hi payload | slotPressSpecialKey hi payload
  | slotSendText hi payload | slotSetSetting hi payload | slotCommunicateToHost hi payload =>
    simp [encode, decode_slotWord (eq_of_beq hwf), decodeSlot_modeByte hp]
  | slotUnknownLow => exact decode_encode_unknownSlot (high := false) hwf
  | slotUnknownHigh => exact decode_encode_unknownSlot (high := true) hwf
  | eventIdle | eventShortDown | eventShortUp | eventShortTriggered | eventLongTriggered => exact decode_event_word p _
  | header | row | image => exact if_pos (eq_of_beq hwf)
  | loadPage v | isLive v | changePage v => exact callWithU16_bytes _ v
  | slotFunction slot button => exact decode_encode_slotFunction p slot button
  | raiseFatal cause => exact decode_encode_raiseFatal p cause
  | hasSecondary | invoke | evaluate | opNew | redrawAll | reset => rfl

/-- Settles O49: a decider word leaves a transition, which has no operands, and every other format leaves all of its bytes in the
operation. -/
theorem encodeInvertsDecode : Obligations.EncodeInvertsDecode := by
  intro p w i _ h
  match w, h with
  | ⟨.decider, [b]⟩, h =>
    obtain ⟨-, rfl⟩ := guard_and_eq_of_ite_eq_ok h
    exact ⟨Transition.instr_wellFormed p _, fun hformat => absurd rfl hformat⟩
  | ⟨.slot, mode :: payload⟩, h =>
    obtain ⟨hlength, rfl⟩ := guard_and_eq_of_ite_eq_ok h
    exact (decodeSlot_encodedBy mode hlength).imp_right fun hword _ => hword
  | ⟨.secondaryMode, [b]⟩, rfl => exact ⟨rfl, fun _ => rfl⟩
  | ⟨.event, [b]⟩, h => exact (decode_event_encodedBy h).imp_right fun hword _ => hword
  | ⟨.header, bytes⟩, h | ⟨.row, bytes⟩, h | ⟨.image, bytes⟩, h =>
    obtain ⟨hlength, rfl⟩ := guard_and_eq_of_ite_eq_ok h
    exact ⟨beq_iff_eq.mpr hlength, fun _ => rfl⟩
  | ⟨.call, number :: operands⟩, h => exact (decodeCall_encodedBy h).imp_right fun hword _ => hword

end Sys2Proof.Machine
